-- ==== Sys2Proof/Word.lean ====
section
/-! DEFINITION. The words the engine computes on (spec/00_scope.md R8, R10, R11; spec/10_state.md R29, R31; spec/30_encoding.md
R70, R72): types only. Everything a test could show wrong about them is computed in Sys2Proof/Machine/. -/

namespace Sys2Proof

/-- A byte (R10). -/
abbrev Byte := BitVec 8

/-- A byte string (R11): a finite sequence of bytes. -/
abbrev Bytes := List Byte

/-- One of the 25 lanes of the sponge state (R22). -/
abbrev Lane := BitVec 64

/-- A command word (R70). -/
abbrev CommandWord := BitVec 32

/-- The contents of an integer register: an unsigned integer of NBITS = 521 bits (R29). -/
abbrev NWord := BitVec 521

/-- The field prime `p = 2^521 - 1` (R8, R190), written out as R190 writes it. -/
def fieldPrime : Nat :=
  0x1FFFFFFFFFFFFFFFFFFFFFFFFFFFFFFFFFFFFFFFFFFFFFFFFFFFFFFFFFFFFFFFFFFFFFFFFFFFFFFFFFFFFFFFFFFFFFFFFFFFFFFFFFFFFFFFFFFFFFFFFFFFFFFFFFF

/-- A canonical field element: an integer in `[0, p)` (R18, R31). -/
abbrev Fe := Fin fieldPrime

/-- The index of a byte-string register `B0` .. `B7` (R27, R72). -/
abbrev BReg := Fin 8

/-- The index of an integer register `N0` .. `N7` (R29, R72). -/
abbrev NReg := Fin 8

/-- The index of a point register `P0` .. `P3` (R31, R72). -/
abbrev PReg := Fin 4

end Sys2Proof
end

