-- ==== Sys2Proof/Syntax.lean ====
section
/-! DEFINITION. The 37 commands (spec/30_encoding.md R71 to R74), one constructor per row of spec/opcode_table.json, in the table's
order. Operands stand in the order rd, ra, rb, imm (R77). -/

namespace Sys2Proof

/-- A command. A register operand is an index of the file R74 gives its field; an immediate is the used part of `imm` (R73). -/
inductive Instr where
  /-- KROUND, R112: one round, round index `imm[4:0]`. -/
  | kround (ir : BitVec 5)
  /-- KECCAKF, R113: the permutation. -/
  | keccakf
  /-- STLD, R114: load the sponge state from a byte string. -/
  | stld (ra : BReg)
  /-- STRD, R115: read the sponge state into a byte string. -/
  | strd (rd : BReg)
  /-- SINIT, R121: create a sponge operation. -/
  | sinit
  /-- ABSORB, R123. -/
  | absorb (ra : BReg)
  /-- FINAL, R125: pad with the suffix byte `imm[7:0]` and switch to squeezing. -/
  | final (suffix : Byte)
  /-- SQUEEZE, R128: emit `N[ra]` bytes. -/
  | squeeze (rd : BReg) (ra : NReg)
  /-- SDONE, R129: destroy the sponge operation. -/
  | sdone
  /-- LENC, R144. -/
  | lenc (rd : BReg) (ra : NReg)
  /-- RENC, R145. -/
  | renc (rd : BReg) (ra : NReg)
  /-- ENCSTR, R146. -/
  | encstr (rd : BReg) (ra : BReg)
  /-- BYTEPAD, R147: the width is `N[rb]`. -/
  | bytepad (rd : BReg) (ra : BReg) (rb : NReg)
  /-- BCAT, R150. -/
  | bcat (rd : BReg) (ra : BReg) (rb : BReg)
  /-- BXOR, R151. -/
  | bxor (rd : BReg) (ra : BReg) (rb : BReg)
  /-- B2I, R156. -/
  | b2i (rd : NReg) (ra : BReg)
  /-- I2B, R159. -/
  | i2b (rd : BReg) (ra : NReg)
  /-- NLI, R160. -/
  | nli (rd : NReg) (imm : BitVec 12)
  /-- BCLR, R161. -/
  | bclr (rd : BReg)
  /-- CSHAKE, R174. -/
  | cshake
  /-- KMACXOF, R177. -/
  | kmacxof
  /-- PNEUT, R200. -/
  | pneut (rd : PReg)
  /-- PGEN, R201. -/
  | pgen (rd : PReg)
  /-- PFROMX, R203: `lsb` is `imm[0]`. -/
  | pfromx (rd : PReg) (ra : NReg) (lsb : BitVec 1)
  /-- PNEG, R205. -/
  | pneg (rd : PReg) (ra : PReg)
  /-- PADD, R208. -/
  | padd (rd : PReg) (ra : PReg) (rb : PReg)
  /-- PSCALE, R210: scalar `N[ra]`, point `P[rb]`. -/
  | pscale (rd : PReg) (ra : NReg) (rb : PReg)
  /-- PGETX, R211. -/
  | pgetx (rd : NReg) (ra : PReg)
  /-- PGETY, R212. -/
  | pgety (rd : NReg) (ra : PReg)
  /-- PSET, R213: x is `N[ra]`, y is `N[rb]`. -/
  | pset (rd : PReg) (ra : NReg) (rb : NReg)
  /-- KEYGEN, R236. -/
  | keygen
  /-- SYMENC, R238. -/
  | symenc
  /-- SYMDEC, R239. -/
  | symdec
  /-- ASYMENC, R241. -/
  | asymenc
  /-- ASYMDEC, R242. -/
  | asymdec
  /-- SIGN, R244. -/
  | sign
  /-- VERIFY, R245. -/
  | verify
  deriving DecidableEq, Repr

end Sys2Proof
end

