-- ==== Sys2Proof/WellFormed.lean ====
section
/-! DEFINITION. Which commands have a word (spec/30_encoding.md R72, R73). The types of the operands already hold the register
ranges of R72 and the immediate widths of R73; what is left to check is KROUND's round index, whose five bits reach 31 while the
legal range ends at 23. -/

namespace Sys2Proof

/-- A command has a legal word: every operand is in the range R72 and R73 give it. -/
def Instr.wf : Instr → Bool
  | .kround ir => ir.toNat ≤ 23
  | .keccakf | .stld _ | .strd _ => true
  | .sinit | .absorb _ | .final _ | .squeeze _ _ | .sdone => true
  | .lenc _ _ | .renc _ _ | .encstr _ _ | .bytepad _ _ _ | .bcat _ _ _ | .bxor _ _ _ => true
  | .b2i _ _ | .i2b _ _ | .nli _ _ | .bclr _ => true
  | .cshake | .kmacxof => true
  | .pneut _ | .pgen _ | .pfromx _ _ _ | .pneg _ _ | .padd _ _ _ | .pscale _ _ _ => true
  | .pgetx _ _ | .pgety _ _ | .pset _ _ _ => true
  | .keygen | .symenc | .symdec | .asymenc | .asymdec | .sign | .verify => true

end Sys2Proof
end

