-- ==== Sys2Proof/Decode.lean ====
section
/-! DEFINITION. Decoding a command word and encoding a command (spec/30_encoding.md R70 to R76). Decoding is strict and total on all
2^32 words (R75, R76): a word is one of the 37 commands or it is illegal, and the rejection names the ground of R75. -/

namespace Sys2Proof

/-- The ground on which R75 makes a word illegal. The engine reports none of them apart: every one raises ILLEGAL (R261,
log 19). -/
inductive Illegal where
  /-- (a): the `op` field is not one of the 37 opcodes. -/
  | unknownOpcode
  /-- (b): a field the format does not use is not zero. -/
  | unusedField
  /-- (c): a register index is outside its file. -/
  | registerRange
  /-- (d): a part of `imm` the command does not use is not zero, or KROUND's round index is above 23. -/
  | immediateRange
  deriving DecidableEq, Repr

/-- `op`, word bits 7:0 (R70). -/
def opField (w : CommandWord) : BitVec 8 := w.extractLsb' 0 8

/-- `rd`, word bits 11:8 (R70). -/
def rdField (w : CommandWord) : BitVec 4 := w.extractLsb' 8 4

/-- `ra`, word bits 15:12 (R70). -/
def raField (w : CommandWord) : BitVec 4 := w.extractLsb' 12 4

/-- `rb`, word bits 19:16 (R70). -/
def rbField (w : CommandWord) : BitVec 4 := w.extractLsb' 16 4

/-- `imm`, word bits 31:20 (R70). -/
def immField (w : CommandWord) : BitVec 12 := w.extractLsb' 20 12

/-- A field the format does not use must be zero (R71, R75 b). -/
def unused {k : Nat} (f : BitVec k) : Except Illegal Unit :=
  if f = 0 then .ok () else .error .unusedField

/-- A register index must be inside its file: 0 to 7 for `B` and `N` (R72, R75 c). -/
def index8 (f : BitVec 4) : Except Illegal (Fin 8) :=
  if h : f.toNat < 8 then .ok ⟨f.toNat, h⟩ else .error .registerRange

/-- A register index must be inside its file: 0 to 3 for `P` (R72, R75 c). -/
def index4 (f : BitVec 4) : Except Illegal (Fin 4) :=
  if h : f.toNat < 4 then .ok ⟨f.toNat, h⟩ else .error .registerRange

/-- The used low `k` bits of `imm`; the rest of `imm` must be zero (R73, R75 d). -/
def immLow (k : Nat) (f : BitVec 12) : Except Illegal (BitVec k) :=
  if f.toNat < 2 ^ k then .ok (f.setWidth k) else .error .immediateRange

/-- KROUND's round index: five bits of `imm`, at most 23 (R73, R75 d). -/
def roundIndex (f : BitVec 12) : Except Illegal (BitVec 5) := do
  let ir ← immLow 5 f
  if ir.toNat ≤ 23 then .ok ir else .error .immediateRange

/-- Format F0: `op` alone (R71). -/
def formatF0 (w : CommandWord) (i : Instr) : Except Illegal Instr := do
  unused (rdField w); unused (raField w); unused (rbField w); unused (immField w)
  .ok i

/-- Format FI: `op`, `imm`; `imm` is checked by `get` (R71). -/
def formatFI {k : Nat} (w : CommandWord) (get : BitVec 12 → Except Illegal (BitVec k)) (build : BitVec k → Instr) :
    Except Illegal Instr := do
  unused (rdField w); unused (raField w); unused (rbField w)
  let imm ← get (immField w)
  .ok (build imm)

/-- Format FD: `op`, `rd` (R71). -/
def formatFD {n : Nat} (w : CommandWord) (rd : BitVec 4 → Except Illegal (Fin n)) (build : Fin n → Instr) :
    Except Illegal Instr := do
  unused (raField w); unused (rbField w); unused (immField w)
  let d ← rd (rdField w)
  .ok (build d)

/-- Format FA: `op`, `ra` (R71). -/
def formatFA {n : Nat} (w : CommandWord) (ra : BitVec 4 → Except Illegal (Fin n)) (build : Fin n → Instr) :
    Except Illegal Instr := do
  unused (rdField w); unused (rbField w); unused (immField w)
  let a ← ra (raField w)
  .ok (build a)

/-- Format FDA: `op`, `rd`, `ra` (R71). -/
def formatFDA {n m : Nat} (w : CommandWord) (rd : BitVec 4 → Except Illegal (Fin n)) (ra : BitVec 4 → Except Illegal (Fin m))
    (build : Fin n → Fin m → Instr) : Except Illegal Instr := do
  unused (rbField w); unused (immField w)
  let d ← rd (rdField w)
  let a ← ra (raField w)
  .ok (build d a)

/-- Format FDI: `op`, `rd`, `imm`, all twelve bits of it (R71, R73). -/
def formatFDI {n : Nat} (w : CommandWord) (rd : BitVec 4 → Except Illegal (Fin n)) (build : Fin n → BitVec 12 → Instr) :
    Except Illegal Instr := do
  unused (raField w); unused (rbField w)
  let d ← rd (rdField w)
  .ok (build d (immField w))

/-- Format FDAB: `op`, `rd`, `ra`, `rb` (R71). -/
def formatFDAB {n m l : Nat} (w : CommandWord) (rd : BitVec 4 → Except Illegal (Fin n))
    (ra : BitVec 4 → Except Illegal (Fin m)) (rb : BitVec 4 → Except Illegal (Fin l))
    (build : Fin n → Fin m → Fin l → Instr) : Except Illegal Instr := do
  unused (immField w)
  let d ← rd (rdField w)
  let a ← ra (raField w)
  let b ← rb (rbField w)
  .ok (build d a b)

/-- Format FDAI: `op`, `rd`, `ra`, one bit of `imm` (R71, R73). -/
def formatFDAI {n m : Nat} (w : CommandWord) (rd : BitVec 4 → Except Illegal (Fin n)) (ra : BitVec 4 → Except Illegal (Fin m))
    (build : Fin n → Fin m → BitVec 1 → Instr) : Except Illegal Instr := do
  unused (rbField w)
  let d ← rd (rdField w)
  let a ← ra (raField w)
  let imm ← immLow 1 (immField w)
  .ok (build d a imm)

/-- The decoder (R74, R75, R76): the row `op` selects, its format and its register files; any other word is illegal. -/
def decode (w : CommandWord) : Except Illegal Instr :=
  match opField w with
  | 0x10#8 => formatFI w roundIndex .kround
  | 0x11#8 => formatF0 w .keccakf
  | 0x12#8 => formatFA w index8 .stld
  | 0x13#8 => formatFD w index8 .strd
  | 0x20#8 => formatF0 w .sinit
  | 0x21#8 => formatFA w index8 .absorb
  | 0x22#8 => formatFI w (immLow 8) .final
  | 0x23#8 => formatFDA w index8 index8 .squeeze
  | 0x24#8 => formatF0 w .sdone
  | 0x30#8 => formatFDA w index8 index8 .lenc
  | 0x31#8 => formatFDA w index8 index8 .renc
  | 0x32#8 => formatFDA w index8 index8 .encstr
  | 0x33#8 => formatFDAB w index8 index8 index8 .bytepad
  | 0x34#8 => formatFDAB w index8 index8 index8 .bcat
  | 0x35#8 => formatFDAB w index8 index8 index8 .bxor
  | 0x36#8 => formatFDA w index8 index8 .b2i
  | 0x37#8 => formatFDA w index8 index8 .i2b
  | 0x38#8 => formatFDI w index8 .nli
  | 0x39#8 => formatFD w index8 .bclr
  | 0x40#8 => formatF0 w .cshake
  | 0x41#8 => formatF0 w .kmacxof
  | 0x50#8 => formatFD w index4 .pneut
  | 0x51#8 => formatFD w index4 .pgen
  | 0x52#8 => formatFDAI w index4 index8 .pfromx
  | 0x53#8 => formatFDA w index4 index4 .pneg
  | 0x54#8 => formatFDAB w index4 index4 index4 .padd
  | 0x55#8 => formatFDAB w index4 index8 index4 .pscale
  | 0x56#8 => formatFDA w index8 index4 .pgetx
  | 0x57#8 => formatFDA w index8 index4 .pgety
  | 0x58#8 => formatFDAB w index4 index8 index8 .pset
  | 0x60#8 => formatF0 w .keygen
  | 0x61#8 => formatF0 w .symenc
  | 0x62#8 => formatF0 w .symdec
  | 0x63#8 => formatF0 w .asymenc
  | 0x64#8 => formatF0 w .asymdec
  | 0x65#8 => formatF0 w .sign
  | 0x66#8 => formatF0 w .verify
  | _ => .error .unknownOpcode

/-- What the decoder reads from a word numbered as the opcode table numbers it. A command is one 32-bit word that is a number (R70),
so there is no byte order to lay out and nothing above bit 31. -/
def decodeTableWord (_nbits w : Nat) : Option Instr :=
  match decode (BitVec.ofNat 32 w) with
  | .ok i => some i
  | .error _ => none

/-- A register index as a 4-bit field (R72). -/
def indexField {n : Nat} (i : Fin n) : BitVec 4 := BitVec.ofNat 4 i.val

/-- A command word from its five fields (R70). -/
def packWord (op : BitVec 8) (rd ra rb : BitVec 4) (imm : BitVec 12) : CommandWord := imm ++ rb ++ ra ++ rd ++ op

/-- The encoder: the word of a well-formed command (R70 to R74). -/
def encode : Instr → CommandWord
  | .kround ir => packWord 0x10 0 0 0 (ir.setWidth 12)
  | .keccakf => packWord 0x11 0 0 0 0
  | .stld ra => packWord 0x12 0 (indexField ra) 0 0
  | .strd rd => packWord 0x13 (indexField rd) 0 0 0
  | .sinit => packWord 0x20 0 0 0 0
  | .absorb ra => packWord 0x21 0 (indexField ra) 0 0
  | .final suffix => packWord 0x22 0 0 0 (suffix.setWidth 12)
  | .squeeze rd ra => packWord 0x23 (indexField rd) (indexField ra) 0 0
  | .sdone => packWord 0x24 0 0 0 0
  | .lenc rd ra => packWord 0x30 (indexField rd) (indexField ra) 0 0
  | .renc rd ra => packWord 0x31 (indexField rd) (indexField ra) 0 0
  | .encstr rd ra => packWord 0x32 (indexField rd) (indexField ra) 0 0
  | .bytepad rd ra rb => packWord 0x33 (indexField rd) (indexField ra) (indexField rb) 0
  | .bcat rd ra rb => packWord 0x34 (indexField rd) (indexField ra) (indexField rb) 0
  | .bxor rd ra rb => packWord 0x35 (indexField rd) (indexField ra) (indexField rb) 0
  | .b2i rd ra => packWord 0x36 (indexField rd) (indexField ra) 0 0
  | .i2b rd ra => packWord 0x37 (indexField rd) (indexField ra) 0 0
  | .nli rd imm => packWord 0x38 (indexField rd) 0 0 imm
  | .bclr rd => packWord 0x39 (indexField rd) 0 0 0
  | .cshake => packWord 0x40 0 0 0 0
  | .kmacxof => packWord 0x41 0 0 0 0
  | .pneut rd => packWord 0x50 (indexField rd) 0 0 0
  | .pgen rd => packWord 0x51 (indexField rd) 0 0 0
  | .pfromx rd ra lsb => packWord 0x52 (indexField rd) (indexField ra) 0 (lsb.setWidth 12)
  | .pneg rd ra => packWord 0x53 (indexField rd) (indexField ra) 0 0
  | .padd rd ra rb => packWord 0x54 (indexField rd) (indexField ra) (indexField rb) 0
  | .pscale rd ra rb => packWord 0x55 (indexField rd) (indexField ra) (indexField rb) 0
  | .pgetx rd ra => packWord 0x56 (indexField rd) (indexField ra) 0 0
  | .pgety rd ra => packWord 0x57 (indexField rd) (indexField ra) 0 0
  | .pset rd ra rb => packWord 0x58 (indexField rd) (indexField ra) (indexField rb) 0
  | .keygen => packWord 0x60 0 0 0 0
  | .symenc => packWord 0x61 0 0 0 0
  | .symdec => packWord 0x62 0 0 0 0
  | .asymenc => packWord 0x63 0 0 0 0
  | .asymdec => packWord 0x64 0 0 0 0
  | .sign => packWord 0x65 0 0 0 0
  | .verify => packWord 0x66 0 0 0 0

/-- A row of the opcode map (R74): a word `w` selects the row when `w &&& mask = pattern` (and, for KROUND, `w[24:20] ≤ 23`). -/
structure OpcodeRow where
  mnemonic : String
  pattern : CommandWord
  mask : CommandWord
  deriving DecidableEq, Repr

/-- The opcode map of R74, as printed there. The decoder does not read it: it is the spec's second description of the same words,
which the statements about decoding hold the decoder against. -/
def opcodeTable : List OpcodeRow :=
  [⟨"KROUND", 0x00000010, 0xFE0FFFFF⟩,
   ⟨"KECCAKF", 0x00000011, 0xFFFFFFFF⟩,
   ⟨"STLD", 0x00000012, 0xFFFF8FFF⟩,
   ⟨"STRD", 0x00000013, 0xFFFFF8FF⟩] ++
  [⟨"SINIT", 0x00000020, 0xFFFFFFFF⟩,
   ⟨"ABSORB", 0x00000021, 0xFFFF8FFF⟩,
   ⟨"FINAL", 0x00000022, 0xF00FFFFF⟩,
   ⟨"SQUEEZE", 0x00000023, 0xFFFF88FF⟩,
   ⟨"SDONE", 0x00000024, 0xFFFFFFFF⟩] ++
  [⟨"LENC", 0x00000030, 0xFFFF88FF⟩,
   ⟨"RENC", 0x00000031, 0xFFFF88FF⟩,
   ⟨"ENCSTR", 0x00000032, 0xFFFF88FF⟩,
   ⟨"BYTEPAD", 0x00000033, 0xFFF888FF⟩,
   ⟨"BCAT", 0x00000034, 0xFFF888FF⟩,
   ⟨"BXOR", 0x00000035, 0xFFF888FF⟩,
   ⟨"B2I", 0x00000036, 0xFFFF88FF⟩,
   ⟨"I2B", 0x00000037, 0xFFFF88FF⟩,
   ⟨"NLI", 0x00000038, 0x000FF8FF⟩,
   ⟨"BCLR", 0x00000039, 0xFFFFF8FF⟩] ++
  [⟨"CSHAKE", 0x00000040, 0xFFFFFFFF⟩,
   ⟨"KMACXOF", 0x00000041, 0xFFFFFFFF⟩] ++
  [⟨"PNEUT", 0x00000050, 0xFFFFFCFF⟩,
   ⟨"PGEN", 0x00000051, 0xFFFFFCFF⟩,
   ⟨"PFROMX", 0x00000052, 0xFFEF8CFF⟩,
   ⟨"PNEG", 0x00000053, 0xFFFFCCFF⟩,
   ⟨"PADD", 0x00000054, 0xFFFCCCFF⟩,
   ⟨"PSCALE", 0x00000055, 0xFFFC8CFF⟩,
   ⟨"PGETX", 0x00000056, 0xFFFFC8FF⟩,
   ⟨"PGETY", 0x00000057, 0xFFFFC8FF⟩,
   ⟨"PSET", 0x00000058, 0xFFF88CFF⟩] ++
  [⟨"KEYGEN", 0x00000060, 0xFFFFFFFF⟩,
   ⟨"SYMENC", 0x00000061, 0xFFFFFFFF⟩,
   ⟨"SYMDEC", 0x00000062, 0xFFFFFFFF⟩,
   ⟨"ASYMENC", 0x00000063, 0xFFFFFFFF⟩,
   ⟨"ASYMDEC", 0x00000064, 0xFFFFFFFF⟩,
   ⟨"SIGN", 0x00000065, 0xFFFFFFFF⟩,
   ⟨"VERIFY", 0x00000066, 0xFFFFFFFF⟩]

/-- The mnemonic of a command (R74). -/
def Instr.mnemonic : Instr → String
  | .kround _ => "KROUND"
  | .keccakf => "KECCAKF"
  | .stld _ => "STLD"
  | .strd _ => "STRD"
  | .sinit => "SINIT"
  | .absorb _ => "ABSORB"
  | .final _ => "FINAL"
  | .squeeze _ _ => "SQUEEZE"
  | .sdone => "SDONE"
  | .lenc _ _ => "LENC"
  | .renc _ _ => "RENC"
  | .encstr _ _ => "ENCSTR"
  | .bytepad _ _ _ => "BYTEPAD"
  | .bcat _ _ _ => "BCAT"
  | .bxor _ _ _ => "BXOR"
  | .b2i _ _ => "B2I"
  | .i2b _ _ => "I2B"
  | .nli _ _ => "NLI"
  | .bclr _ => "BCLR"
  | .cshake => "CSHAKE"
  | .kmacxof => "KMACXOF"
  | .pneut _ => "PNEUT"
  | .pgen _ => "PGEN"
  | .pfromx _ _ _ => "PFROMX"
  | .pneg _ _ => "PNEG"
  | .padd _ _ _ => "PADD"
  | .pscale _ _ _ => "PSCALE"
  | .pgetx _ _ => "PGETX"
  | .pgety _ _ => "PGETY"
  | .pset _ _ _ => "PSET"
  | .keygen => "KEYGEN"
  | .symenc => "SYMENC"
  | .symdec => "SYMDEC"
  | .asymenc => "ASYMENC"
  | .asymdec => "ASYMDEC"
  | .sign => "SIGN"
  | .verify => "VERIFY"

/-- A word is a legal command by the map of R74 alone: some row's mask and pattern fit, and KROUND's round index is at most 23. -/
def legalByTable (w : CommandWord) : Bool :=
  opcodeTable.any fun row =>
    w &&& row.mask == row.pattern && (row.pattern != 0x10 || (w.extractLsb' 20 5).toNat ≤ 23)

end Sys2Proof
end

