-- ==== Sys2Proof/Config.lean ====
section
/-! DEFINITION. What an implementation fixes and the spec leaves open (spec/00_scope.md R9; spec/93_implementation_defined.md I1 to
I4; spec/43_encodings.md R148), as constants without a body: no proof can know a value of them. The legal range of BMAX and the law of
I2B are put on them in Sys2Proof/Machine/Ops.lean (`bmax`, `i2b`). The fourth open parameter, REGMAP, needs no value (I3, log 1). -/

namespace Sys2Proof

/-- Any number: where the largest byte-string length `BMAX` comes from (R9, log 6). DESIGN CHOICE, safe. -/
opaque Config.bmaxRaw : Nat

/-- Any function: where the bytes of an integer used as a key, `I2B`, come from (R158, log 7). DESIGN CHOICE, safe. -/
opaque Config.i2bRaw : NWord → Bytes

/-- Any function: the length byte of `left_encode` and `right_encode` for an integer of `2^2040` or more, whose byte count is no byte
(R9, R148, R238, R239, log 27). A free value. DESIGN CHOICE, safe. -/
opaque Config.longLengthByte : Nat → Byte

/-- The entropy source `RAND` (R37, R235, log 8): draw number `k`, 64 bytes no rule constrains. A free value, safe. -/
opaque Config.rand : Nat → Vector Byte 64

end Sys2Proof
end

