-- ==== Sys2Proof/Machine/State.lean ====
section
/-! DEFINITION. The state of one engine (spec/10_state.md R20 to R41), its environment as plain data (spec/20_memory.md R56 to R58,
spec/46_protocol.md R235, spec/70_reset_and_hazards.md R290), the reasons a step can stop, and the state after reset. -/

namespace Sys2Proof.Machine

/-- `PHASE` (R25). Its 2-bit code is `Phase.code`. -/
inductive Phase where
  /-- No sponge operation exists. -/
  | idle
  /-- Created by SINIT, nothing absorbed yet. -/
  | ready
  /-- At least one ABSORB since SINIT. -/
  | absorbing
  /-- FINAL has run. -/
  | squeezing
  deriving DecidableEq, Repr

/-- The condition of the most recent command or refused host write, the value of `STATUS.ERR` (R33, R260). Codes 8 to 15 are never
produced (R260), so the type has none. -/
inductive Condition where
  /-- Code 0: completed normally. -/
  | ok
  /-- Code 1, R264: PFROMX found no root. -/
  | invalidPoint
  /-- Code 2, R265: SYMDEC, ASYMDEC, VERIFY rejected. -/
  | authFail
  /-- Code 3, R267: a refused host write. -/
  | format
  /-- Code 4, R261: the word is no command. -/
  | illegal
  /-- Code 5, R262: not allowed in this phase. -/
  | seq
  /-- Code 6, R263: an operand value outside what the command accepts. -/
  | param
  /-- Code 7, R264: a denominator of the addition law is 0. -/
  | divZero
  deriving DecidableEq, Repr

/-- A pair of canonical field elements (R31, log 23). Nothing says it is on the curve. -/
structure Point where
  x : Fe
  y : Fe
  deriving DecidableEq, Repr

/-- What the sponge functions of spec/42_sponge.md read and write: the 200 state bytes (R21, log 21) and the cursor (R23). The rate is a
constant (R24), the phase is the commands' (R25). -/
structure Sponge where
  st : Vector Byte 200
  pt : BitVec 8
  deriving DecidableEq, Repr

/-- What the environment does to the engine, between commands only (R56, R60). A register number or an integer that breaks the
precondition of a write can be said here, since R57 gives it an effect. -/
inductive HostAction where
  /-- `HostWriteB(i, S)`. -/
  | writeB (i : Nat) (v : Bytes)
  /-- `HostReadB(i)`. -/
  | readB (i : Nat)
  /-- `HostWriteN(i, v)`. -/
  | writeN (i : Nat) (v : Int)
  /-- `HostReadN(i)`. -/
  | readN (i : Nat)
  /-- `HostReadStatus()`. -/
  | readStatus
  /-- `HostCommand(w)` (R58). -/
  | command (w : CommandWord)
  /-- The reset input (R290): applied from outside, not one of the host's actions. -/
  | reset
  deriving DecidableEq, Repr

/-- What a host read returns (R56). -/
inductive HostReply where
  /-- From `HostReadB`. -/
  | bytes (v : Bytes)
  /-- From `HostReadN`. -/
  | integer (v : NWord)
  /-- From `HostReadStatus`. -/
  | status (v : BitVec 32)
  deriving DecidableEq, Repr

/-- The engine (the fields `sponge` to `accept`, R20) and its environment (the fields `pending` to `draws`, the model's own). `RSIZ` is
hardwired (R24) and `STATUS` is assembled on reading (R33): `State.rsiz` and `State.status` in Machine/Flags.lean. -/
structure State where
  /-- `ST` and `PT` (R21, R23). -/
  sponge : Sponge
  /-- `PHASE` (R25). -/
  phase : Phase
  /-- `B0` .. `B7` (R27). -/
  b : Vector Bytes 8
  /-- `N0` .. `N7` (R29). -/
  n : Vector NWord 8
  /-- `P0` .. `P3` (R31). -/
  p : Vector Point 4
  /-- `STATUS.ERR` (R33, R34). -/
  err : Condition
  /-- `STATUS.ACCEPT` (R33, R35). -/
  accept : Bool
  /-- The model's own: the actions the environment has still to make, next one first (log 2). -/
  pending : List HostAction
  /-- The model's own: what host reads have returned, newest first (log 4). -/
  replies : List HostReply
  /-- The model's own: the draws the entropy source has laid ready, next one first (log 8). -/
  entropy : List (Vector Byte 64)
  /-- The model's own: how many draws were taken with none laid ready, the index of the next free value (log 8). -/
  draws : Nat
  deriving DecidableEq, Repr

/-- Why the machine stops. No command stops it (93_implementation_defined.md, end of part 1). -/
inductive Fault where
  /-- Raised by a host read (`HostReadB`, `HostReadN`) whose register number is not 0 to 7: R56 makes that a precondition and gives
  no effect, and there is no such register to read. Safe: nothing is proved about what follows (log 5). -/
  | noSuchRegister
  deriving DecidableEq, Repr

/-- Why an instruction has no meaning. -/
inductive Refusal where
  /-- Raised by an arm of `exec` that has no meaning yet, which no arm is. Safe. -/
  | notModelled (mnemonic : String)
  deriving DecidableEq, Repr

/-- What a step, or the meaning of a command, answers. -/
abbrev Result := Host.Outcome State Fault Refusal

/-- `neutral()`, the pair `(0, 1)` (R194). -/
def neutral : Point := ⟨⟨0, by decide⟩, ⟨1, by decide⟩⟩

/-- The sponge unit with every state byte zero and the cursor at 0: what `init()` and reset leave (R41, R121). -/
def Sponge.zero : Sponge := ⟨Vector.replicate 200 0, 0⟩

/-- The machine right after reset (R41, R290): every engine value is the spec's. The environment has laid nothing ready (logs 2,
4, 8, 20). -/
def State.reset : State where
  sponge := Sponge.zero
  phase := .idle
  b := Vector.replicate 8 []
  n := Vector.replicate 8 0
  p := Vector.replicate 4 neutral
  err := .ok
  accept := false
  pending := []
  replies := []
  entropy := []
  draws := 0

end Sys2Proof.Machine
end

