-- ==== Sys2Proof/Machine/Ops.lean ====
section
/-! DEFINITION. The named operations: numbers and byte strings (spec/00_scope.md R10 to R12), the two open parameters with their laws
(R9, R158), the sponge state as memory (R13, R21), the entropy draw (R235), and raising a condition (spec/60_exceptions.md R266), the one
operation that takes an exception on this engine; there is no return from one (R271). -/

namespace Sys2Proof.Machine

/-! ### Numbers and byte strings -/

/-- `ROTL64(v, n)`, for `n < 64` (R10). -/
def rotl64 (v : Lane) (n : Nat) : Lane := (v <<< n) ||| (v >>> (64 - n))

/-- `bitlen(x)`: the position of the highest set bit plus one, and 0 for 0 (R140). -/
def bitlen (x : Nat) : Nat := if x = 0 then 0 else Nat.log2 x + 1

/-- `int(S)`: a byte string as an unsigned big-endian magnitude (R12, R53, R155). -/
def int (s : Bytes) : Nat := s.foldl (fun acc byte => acc * 256 + byte.toNat) 0

/-- `BE_n(x)`: the `n` big-endian bytes of `x` (R12). -/
def bigEndian : Nat → Nat → Bytes
  | 0, _ => []
  | n + 1, x => bigEndian n (x / 256) ++ [BitVec.ofNat 8 x]

/-- `LE64(S)` of eight bytes, the first the least significant (R12, R22). -/
def littleEndian64 (b0 b1 b2 b3 b4 b5 b6 b7 : Byte) : Lane := b7 ++ b6 ++ b5 ++ b4 ++ b3 ++ b2 ++ b1 ++ b0

/-- Byte `k` of a lane, byte 0 the least significant (R22, R52). -/
def laneByte (v : Lane) (k : Nat) : Byte := v.extractLsb' (8 * k) 8

/-- `XOR` of two byte strings of equal length (R11). -/
def xorBytes (a b : Bytes) : Bytes := List.zipWith (· ^^^ ·) a b

/-- `bitlength(S) = 8·len(S)` (R11). -/
def bitLength (s : Bytes) : Nat := 8 * s.length

/-! ### The open parameters -/

/-- `BMAX`, the largest byte length a byte-string register holds: any number with `200 ≤ BMAX < 2^2037` (R9, log 6). Every such
number is a value it may have, and no other is. -/
def bmax : Nat := max 200 (min Config.bmaxRaw (2 ^ 2037 - 1))

/-- The default instance of `I2B` (R158): the shortest big-endian form with a zero sign bit, `floor(bitlen/8) + 1` bytes. -/
def i2bDefault (n : NWord) : Bytes := bigEndian (bitlen n.toNat / 8 + 1) n.toNat

/-- The law every instance of `I2B` satisfies at `n` (R158): at most 66 bytes, and `int(I2B(n)) = n`. -/
def i2bLaw (v : Bytes) (n : NWord) : Bool := v.length ≤ 66 && int v == n.toNat

/-- `I2B(n)`, the bytes of an integer used as a key (R158, log 7): any function that satisfies the law. Where the raw function breaks
the law the default stands in, so every lawful function is a value it may have, and no other is. -/
def i2b (n : NWord) : Bytes := if i2bLaw (Config.i2bRaw n) n then Config.i2bRaw n else i2bDefault n

/-! ### The sponge state as memory -/

/-- `RSIZ`, the rate in bytes (R8, R24). -/
def rsiz : Nat := 136

/-- `MemRead(addr, 1)`: byte `addr` of `ST` (R13). The spec uses it with `addr < 200` only; above, it reads 0 (log 11). -/
def Sponge.read (s : Sponge) (addr : Nat) : Byte := s.st[addr]?.getD 0

/-- XOR a byte into `ST[addr]` (R59). Above address 199 there is no byte and nothing is written (log 11). -/
def Sponge.xorAt (s : Sponge) (addr : Nat) (byte : Byte) : Sponge :=
  { s with st := s.st.setIfInBounds addr (s.read addr ^^^ byte) }

/-- The 200-byte string `ST[0..199]` (R115). -/
def Sponge.bytes (s : Sponge) : Bytes := s.st.toList

/-- `ST[j] <- S[j]` for `j` in 0..199 (R114); the command gives it 200 bytes. -/
def Sponge.load (s : Sponge) (v : Bytes) : Sponge := { s with st := Vector.ofFn fun j => v.getD j.val 0 }

/-! ### Conditions -/

/-- Raise a condition (R14, R266): `ERR` takes the code, `ACCEPT` is 0, and nothing else changes. The engine then waits for the next
command; there is no handler, nothing to return from (R271). -/
def State.raise (s : State) (c : Condition) : State := { s with err := c, accept := false }

/-- End a command normally: `ERR <- OK`, `ACCEPT <- 0` (R33 to R35). -/
def State.complete (s : State) : State := { s with err := .ok, accept := false }

/-- End SYMDEC, ASYMDEC or VERIFY with acceptance: `ERR <- OK`, `ACCEPT <- 1` (R35). -/
def State.accepted (s : State) : State := { s with err := .ok, accept := true }

/-! ### The sponge unit's life -/

/-- Leave the sponge unit destroyed: `ST` zero, `PT = 0`, `PHASE = IDLE` (R129, R170 c). -/
def State.destroySponge (s : State) : State := { s with sponge := Sponge.zero, phase := .idle }

/-! ### Entropy -/

/-- The 64 bytes the next draw yields (R235): what the environment has laid ready, else the free value (log 8). -/
def State.nextDraw (s : State) : Bytes :=
  match s.entropy with
  | [] => (Config.rand s.draws).toList
  | z :: _ => z.toList

/-- The next draw is taken: it is consumed and lost (R235). -/
def State.takeDraw (s : State) : State :=
  match s.entropy with
  | [] => { s with draws := s.draws + 1 }
  | _ :: rest => { s with entropy := rest }

end Sys2Proof.Machine
end

