-- ==== Sys2Proof/Machine/Operands.lean ====
section
/-! DEFINITION. Reading and writing a register operand (spec/10_state.md R27 to R32; spec/30_encoding.md R72) and the fixed registers
the composite commands use under their aliases (R28, R30, R32). No register is hardwired. -/

namespace Sys2Proof.Machine

/-- `B[i]` (R13, R27). -/
def State.readB (s : State) (i : BReg) : Bytes := s.b.get i

/-- `B[i] <- v` (R13, R27); a command checks `BMAX` first (R263). -/
def State.writeB (s : State) (i : BReg) (v : Bytes) : State := { s with b := s.b.set i.val v i.isLt }

/-- `N[i]` (R13, R29). -/
def State.readN (s : State) (i : NReg) : NWord := s.n.get i

/-- `N[i] <- v` (R13, R29). -/
def State.writeN (s : State) (i : NReg) (v : NWord) : State := { s with n := s.n.set i.val v i.isLt }

/-- `P[i]` (R13, R31). -/
def State.readP (s : State) (i : PReg) : Point := s.p.get i

/-- `P[i] <- v` (R13, R31). -/
def State.writeP (s : State) (i : PReg) (v : Point) : State := { s with p := s.p.set i.val v i.isLt }

/-- A value as the contents of an integer register; the caller has it below `2^521` (R29, R162 b). -/
def toNWord (v : Nat) : NWord := BitVec.ofNat 521 v

/-- The 12-bit immediate as an integer register's contents, `zext_521(imm)` (R73, R160). -/
def zext521 (imm : BitVec 12) : NWord := imm.setWidth 521

/-- `BK`: the key of KMACXOF, the password (R28). -/
def BK : BReg := 0

/-- `BX`: the main input, the message, the recovered plaintext (R28). -/
def BX : BReg := 1

/-- `BN`: cSHAKE's function-name string (R28). -/
def BN : BReg := 2

/-- `BS`: the customization string (R28). -/
def BS : BReg := 3

/-- `BO`: the output of CSHAKE and KMACXOF, the ciphertext (R28). -/
def BO : BReg := 4

/-- `BT`: the tag (R28). -/
def BT : BReg := 5

/-- `BZ`: the symmetric nonce (R28). -/
def BZ : BReg := 6

/-- `BH`: the signature digest (R28). -/
def BH : BReg := 7

/-- `NL`: the requested output length in bits (R30). -/
def NL : NReg := 0

/-- `NS`: the private scalar (R30). -/
def NS : NReg := 1

/-- `NZ`: the signature response (R30). -/
def NZ : NReg := 2

/-- `PV`: the public key (R32). -/
def PV : PReg := 0

/-- `PZ`: the ephemeral public point (R32). -/
def PZ : PReg := 1

end Sys2Proof.Machine
end

