-- ==== Sys2Proof/Machine/Flags.lean ====
section
/-! DEFINITION. The status register (spec/10_state.md R33 to R35; spec/60_exceptions.md R260): the codes of its fields and the word the
host reads. The engine has no arithmetic flags. -/

namespace Sys2Proof.Machine

/-- The value of the `PHASE` field (R25). -/
def Phase.code : Phase → BitVec 2
  | .idle => 0
  | .ready => 1
  | .absorbing => 2
  | .squeezing => 3

/-- The value of the `ERR` field (R260). -/
def Condition.code : Condition → BitVec 4
  | .ok => 0
  | .invalidPoint => 1
  | .authFail => 2
  | .format => 3
  | .illegal => 4
  | .seq => 5
  | .param => 6
  | .divZero => 7

/-- `RSIZ` as the host sees it: hardwired to 136, whatever the state (R24, log 12). -/
def State.rsiz (_s : State) : BitVec 8 := 136

/-- `STATUS`, from the top: bits 31:24 zero, `RSIZ` 23:16, `PT` 15:8, bit 7 zero, `PHASE` 6:5, `ACCEPT` 4, `ERR` 3:0. The mirrors are the
sponge unit's registers at this moment (R33). -/
def State.status (s : State) : BitVec 32 :=
  0#8 ++ s.rsiz ++ s.sponge.pt ++ 0#1 ++ s.phase.code ++ BitVec.ofBool s.accept ++ s.err.code

end Sys2Proof.Machine
end

