-- ==== Sys2Proof/Machine/Curve.lean ====
section
/-! DEFINITION. E521 field and point arithmetic and its nine commands (spec/45_e521.md R190 to R215). None touches the sponge unit and all
are legal in every phase. A result of `none` is the failure the function's docstring names. -/

namespace Sys2Proof.Machine

/-! ### The field -/

/-- An integer taken modulo `p` (R12, R191). -/
def fe (n : Nat) : Fe := ⟨n % fieldPrime, Nat.mod_lt _ (by decide)⟩

/-- The curve constant `d = -376014 mod p` (R190). -/
def curveD : Fe := fe (fieldPrime - 376014)

/-- The subgroup order `r` (R190), written out as R190 writes it. -/
def groupOrder : Nat :=
  0x7FFFFFFFFFFFFFFFFFFFFFFFFFFFFFFFFFFFFFFFFFFFFFFFFFFFFFFFFFFFFFFFFD15B6C64746FC85F736B8AF5E7EC53F04FBD8C4569A8F1F4540EA2435F5180D6B

/-- Square and multiply: `acc · base^e`, for an exponent of at most the given number of bits. -/
def powLoop : Nat → Fe → Nat → Fe → Fe
  | 0, _, _, acc => acc
  | k + 1, base, e, acc => powLoop k (base * base) (e / 2) (if e % 2 = 1 then acc * base else acc)

/-- `a.pow(e)`, which is `a^e mod p` with `a.pow(0) = 1` (R191). -/
def fpow (a : Fe) (e : Nat) : Fe := powLoop (bitlen e) a e (fe 1)

/-- `finv(b)`, for `b ≠ 0` (R191): the inverse is unique, so how it is computed is not architectural (log 16). No rule reads it at 0. -/
def finv (b : Fe) : Fe := fpow b (fieldPrime - 2)

/-- `a / b`, for `b ≠ 0` (R191). -/
def fdiv (a b : Fe) : Fe := a * finv b

/-! ### The curve -/

/-- `on_curve(x, y)` (R193). -/
def onCurve (q : Point) : Bool := q.x * q.x + q.y * q.y == fe 1 + curveD * q.x * q.x * q.y * q.y

/-- The base point `G`, a constant of the engine (R197). -/
def basePoint : Point where
  x := fe 4
  y := fe
    0x11DD4B4952F9B741BDB15C806D24013B3EBF3BE43295904D1E4050B3C80F5920A145616EBB481557D7BFA955CBFB1CFD4E064B0DE40F93E22F8BCDFB41D0093B10C

/-- `point_from_x(x, lsb)` (R202); `none` is InvalidPoint. -/
def pointFromX (x : Fe) (lsb : BitVec 1) : Option Point :=
  let v := fdiv (fe 1 - x * x) (fe 1 + fe 376014 * x * x)
  let rt := fpow v (2 ^ 519)
  if rt.val % 2 ≠ lsb.toNat then
    if rt.val = 0 then none
    else
      let flipped := fe (fieldPrime - rt.val)
      if flipped * flipped ≠ v then none else some ⟨x, flipped⟩
  else if rt * rt ≠ v then none
  else some ⟨x, rt⟩

/-- `negate(P)` (R204). -/
def negate (q : Point) : Point := ⟨fe (fieldPrime - q.x.val), q.y⟩

/-- `add(P1, P2)` (R207); `none` is a zero denominator, DIV_ZERO (R206). -/
def padd (q1 q2 : Point) : Option Point :=
  let t := curveD * q1.x * q2.x * q1.y * q2.y
  let up := fe 1 + t
  let down := fe 1 - t
  if up.val = 0 ∨ down.val = 0 then none
  else some ⟨fdiv (q1.x * q2.y + q1.y * q2.x) up, fdiv (q1.y * q2.y - q1.x * q2.x) down⟩

/-- The loop of R209 over the low `m` bits of `k`, least significant first: add when the bit is 1, then always double the addend. -/
def scaleLoop : Nat → Nat → Point → Point → Option Point
  | 0, _, acc, _ => some acc
  | m + 1, k, acc, addend =>
    match (if k % 2 = 1 then padd acc addend else some acc) with
    | none => none
    | some acc' =>
      match padd addend addend with
      | none => none
      | some addend' => scaleLoop m (k / 2) acc' addend'

/-- `scale(k, P)` (R209), `k` unreduced; `none` is DIV_ZERO. Off the curve a scalar of 1 may meet it (DEDUCED, log 25). -/
def pscale (k : Nat) (q : Point) : Option Point := scaleLoop (bitlen k) k neutral q

/-- An integer register as a coordinate: `n mod p` (R192). -/
def toField (n : NWord) : Fe := fe n.toNat

/-- A coordinate as an integer register's contents: it is below `p` and so fits (R211). -/
def ofField (a : Fe) : NWord := toNWord a.val

/-! ### The commands -/

/-- PNEUT (R200). -/
def execPneut (rd : PReg) (s : State) : Result := .next (s.writeP rd neutral).complete

/-- PGEN (R201). -/
def execPgen (rd : PReg) (s : State) : Result := .next (s.writeP rd basePoint).complete

/-- PFROMX (R203). -/
def execPfromx (rd : PReg) (ra : NReg) (lsb : BitVec 1) (s : State) : Result :=
  .next <|
    match pointFromX (toField (s.readN ra)) lsb with
    | none => s.raise .invalidPoint
    | some q => (s.writeP rd q).complete

/-- PNEG (R205). -/
def execPneg (rd ra : PReg) (s : State) : Result := .next (s.writeP rd (negate (s.readP ra))).complete

/-- PADD (R208). -/
def execPadd (rd ra rb : PReg) (s : State) : Result :=
  .next <|
    match padd (s.readP ra) (s.readP rb) with
    | none => s.raise .divZero
    | some q => (s.writeP rd q).complete

/-- PSCALE (R210). -/
def execPscale (rd : PReg) (ra : NReg) (rb : PReg) (s : State) : Result :=
  .next <|
    match pscale (s.readN ra).toNat (s.readP rb) with
    | none => s.raise .divZero
    | some q => (s.writeP rd q).complete

/-- PGETX (R211). -/
def execPgetx (rd : NReg) (ra : PReg) (s : State) : Result := .next (s.writeN rd (ofField (s.readP ra).x)).complete

/-- PGETY (R212). -/
def execPgety (rd : NReg) (ra : PReg) (s : State) : Result := .next (s.writeN rd (ofField (s.readP ra).y)).complete

/-- PSET (R213): the curve equation is not checked. -/
def execPset (rd : PReg) (ra rb : NReg) (s : State) : Result :=
  .next (s.writeP rd ⟨toField (s.readN ra), toField (s.readN rb)⟩).complete

end Sys2Proof.Machine
end

