-- ==== Sys2Proof/Machine/Encodings.lean ====
section
/-! DEFINITION. The length encodings and the byte-string utilities (spec/43_encodings.md R140 to R162). None of these commands touches the
sponge unit and all are legal in every phase. -/

namespace Sys2Proof.Machine

/-- The number of bytes `left_encode` and `right_encode` give an integer: the least `n ≥ 1` with `x < 256^n`, which is
`max(1, ceil(bitlen(x)/8))` (R140). -/
def encodedLength (x : Nat) : Nat := max 1 ((bitlen x + 7) / 8)

/-- The length byte `n` of the two encodings (R140, R141). From `2^2040` on, `n` is no byte and the spec gives none: R148 and R9 hold that
no encoded length gets there, but the key `z‖password` of SYMENC and SYMDEC (R238, R239) may be longer than `BMAX` and get there when
`BMAX` is near its limit. There the byte is a free value (log 27). DESIGN CHOICE, safe. -/
def lengthByte (x : Nat) : Byte :=
  if encodedLength x < 256 then BitVec.ofNat 8 (encodedLength x) else Config.longLengthByte x

/-- `left_encode(x)` (R140); its length byte is free from `2^2040` on (log 27). -/
def leftEncode (x : Nat) : Bytes := lengthByte x :: bigEndian (encodedLength x) x

/-- `right_encode(x)` (R141); its length byte is free from `2^2040` on (log 27), which no command gives it. -/
def rightEncode (x : Nat) : Bytes := bigEndian (encodedLength x) x ++ [lengthByte x]

/-- `encode_string(S)` (R142). -/
def encodeString (v : Bytes) : Bytes := leftEncode (bitLength v) ++ v

/-- The length of `bytepad(X, w)` for `w > 0` (R147): `w·ceil((len(left_encode(w)) + len(X))/w)`. -/
def bytepadLength (x : Bytes) (w : Nat) : Nat := w * (((leftEncode w).length + x.length + w - 1) / w)

/-- `bytepad(X, w)` for `w > 0` (R143): the prefix, `X`, and zero bytes up to a multiple of `w`. -/
def bytepad (x : Bytes) (w : Nat) : Bytes :=
  let z := leftEncode w ++ x
  z ++ List.replicate (bytepadLength x w - z.length) 0

/-- LENC (R144). -/
def execLenc (rd : BReg) (ra : NReg) (s : State) : Result :=
  .next (s.writeB rd (leftEncode (s.readN ra).toNat)).complete

/-- RENC (R145). -/
def execRenc (rd : BReg) (ra : NReg) (s : State) : Result :=
  .next (s.writeB rd (rightEncode (s.readN ra).toNat)).complete

/-- ENCSTR (R146). -/
def execEncstr (rd ra : BReg) (s : State) : Result :=
  .next <|
    if bmax < (leftEncode (bitLength (s.readB ra))).length + (s.readB ra).length then s.raise .param
    else (s.writeB rd (encodeString (s.readB ra))).complete

/-- BYTEPAD (R147): the length is compared before anything is built. -/
def execBytepad (rd ra : BReg) (rb : NReg) (s : State) : Result :=
  .next <|
    if (s.readN rb).toNat = 0 then s.raise .param
    else if bmax < bytepadLength (s.readB ra) (s.readN rb).toNat then s.raise .param
    else (s.writeB rd (bytepad (s.readB ra) (s.readN rb).toNat)).complete

/-- BCAT (R150). -/
def execBcat (rd ra rb : BReg) (s : State) : Result :=
  .next <|
    if bmax < (s.readB ra).length + (s.readB rb).length then s.raise .param
    else (s.writeB rd (s.readB ra ++ s.readB rb)).complete

/-- BXOR (R151). -/
def execBxor (rd ra rb : BReg) (s : State) : Result :=
  .next <|
    if (s.readB ra).length ≠ (s.readB rb).length then s.raise .param
    else (s.writeB rd (xorBytes (s.readB ra) (s.readB rb))).complete

/-- B2I (R156): the test is on the value, not the length. -/
def execB2i (rd : NReg) (ra : BReg) (s : State) : Result :=
  .next <|
    if 2 ^ 521 ≤ int (s.readB ra) then s.raise .param
    else (s.writeN rd (toNWord (int (s.readB ra)))).complete

/-- I2B (R159), under whichever instance of the open parameter the implementation has (R158). -/
def execI2b (rd : BReg) (ra : NReg) (s : State) : Result :=
  .next (s.writeB rd (i2b (s.readN ra))).complete

/-- NLI (R160). -/
def execNli (rd : NReg) (imm : BitVec 12) (s : State) : Result :=
  .next (s.writeN rd (zext521 imm)).complete

/-- BCLR (R161). -/
def execBclr (rd : BReg) (s : State) : Result := .next (s.writeB rd []).complete

end Sys2Proof.Machine
end

