-- ==== Sys2Proof/Machine/Permutation.lean ====
section
/-! DEFINITION. The permutation and the four raw commands (spec/41_permutation.md R100 to R115). -/

namespace Sys2Proof.Machine

/-- The lane view `A[0..24]` (R22, R100). -/
abbrev Lanes := Vector Lane 25

/-- The lanes of a state: lane `i` is bytes `8i` to `8i+7`, least significant first (R22). -/
def lanesOf (st : Vector Byte 200) : Lanes :=
  Vector.ofFn fun i =>
    littleEndian64 st[8 * i.val] st[8 * i.val + 1] st[8 * i.val + 2] st[8 * i.val + 3] st[8 * i.val + 4] st[8 * i.val + 5]
      st[8 * i.val + 6] st[8 * i.val + 7]

/-- The state of the lanes: byte `j` is byte `j mod 8` of lane `j div 8` (R22, R52). -/
def bytesOf (a : Lanes) : Vector Byte 200 := Vector.ofFn fun j => laneByte a[j.val / 8] (j.val % 8)

/-- `theta` (R102). -/
def theta (a : Lanes) : Lanes :=
  let col : Vector Lane 5 := Vector.ofFn fun x =>
    a[x.val] ^^^ a[x.val + 5] ^^^ a[x.val + 10] ^^^ a[x.val + 15] ^^^ a[x.val + 20]
  let diff : Vector Lane 5 := Vector.ofFn fun x => col[(x.val + 4) % 5] ^^^ rotl64 col[(x.val + 1) % 5] 1
  Vector.ofFn fun i => a[i.val] ^^^ diff[i.val % 5]

/-- `ROTC`, the rotation offsets (R104, log 24). -/
def rotc : Vector Nat 24 :=
  #v[1, 3, 6, 10, 15, 21, 28, 36, 45, 55, 2, 14, 27, 41, 56, 8, 25, 43, 62, 18, 39, 61, 20, 44]

/-- `PILN`, the permutation indices (R104). -/
def piln : Vector (Fin 25) 24 :=
  #v[10, 7, 11, 17, 18, 3, 5, 16, 8, 21, 24, 4, 15, 23, 19, 13, 12, 2, 20, 14, 22, 9, 6, 1]

/-- One step of the walk of R103, on the lanes so far and the value `t` in hand. -/
def rhoPiStep (walk : Lanes × Lane) (i : Fin 24) : Lanes × Lane :=
  let j := piln.get i
  (walk.1.set j.val (rotl64 walk.2 (rotc.get i)) j.isLt, walk.1.get j)

/-- `rho_pi` (R103): the walk over the 24 lanes other than lane 0, starting with `t = A[1]`. -/
def rhoPi (a : Lanes) : Lanes := ((List.finRange 24).foldl rhoPiStep (a, a[1])).1

/-- `chi` (R105): every lane reads the old row. -/
def chi (a : Lanes) : Lanes :=
  Vector.ofFn fun i =>
    let x := i.val % 5
    let row := 5 * (i.val / 5)
    a[i.val] ^^^ (~~~a[(x + 1) % 5 + row] &&& a[(x + 2) % 5 + row])

/-- The set bits of each round constant, read off R108's table: only the positions 0, 1, 3, 7, 15, 31 and 63 occur (log 24). -/
def roundConstantBits : Vector (List Nat) 24 :=
  #v[[0], [1, 7, 15], [1, 3, 7, 15, 63], [15, 31, 63], [0, 1, 3, 7, 15], [0, 31],
     [0, 7, 15, 31, 63], [0, 3, 15, 63], [1, 3, 7], [3, 7], [0, 3, 15, 31], [1, 3, 31],
     [0, 1, 3, 7, 15, 31], [0, 1, 3, 7, 63], [0, 3, 7, 15, 63], [0, 1, 15, 63], [1, 15, 63], [7, 63],
     [1, 3, 15], [1, 3, 31, 63], [0, 7, 15, 31, 63], [7, 15, 63], [0, 31], [3, 15, 31, 63]]

/-- The lane whose set bits are the given ones; bit `z` has weight `2^z` (R100). -/
def laneOfBits (bits : List Nat) : Lane := bits.foldl (fun lane z => lane ||| BitVec.twoPow 64 z) 0

/-- `RC`, the round constants (R108). -/
def roundConstants : Vector Lane 24 := roundConstantBits.map laneOfBits

/-- `iota` (R106). -/
def iota (a : Lanes) (ir : Fin 24) : Lanes := a.set 0 (a[0] ^^^ roundConstants.get ir)

/-- `keccak_round` (R107). -/
def keccakRound (a : Lanes) (ir : Fin 24) : Lanes := iota (chi (rhoPi (theta a))) ir

/-- `keccak_f` on lanes (R109): rounds 0 to 23 in that order. -/
def keccakLanes (a : Lanes) : Lanes := (List.finRange 24).foldl keccakRound a

/-- `keccak_f` on bytes, "the permutation" (R109). -/
def keccakF (st : Vector Byte 200) : Vector Byte 200 := bytesOf (keccakLanes (lanesOf st))

/-- One round on the sponge state's bytes (R112). -/
def keccakRoundBytes (st : Vector Byte 200) (ir : Fin 24) : Vector Byte 200 := bytesOf (keccakRound (lanesOf st) ir)

/-- KROUND (R112). A round index above 23 has no legal word; as syntax it raises ILLEGAL, as its word does (R75, log 15). -/
def execKround (ir : BitVec 5) (s : State) : Result :=
  .next <|
    if h : ir.toNat < 24 then
      if s.phase ≠ .idle then s.raise .seq
      else { s with sponge := { s.sponge with st := keccakRoundBytes s.sponge.st ⟨ir.toNat, h⟩ } }.complete
    else s.raise .illegal

/-- KECCAKF (R113). -/
def execKeccakf (s : State) : Result :=
  .next <|
    if s.phase ≠ .idle then s.raise .seq
    else { s with sponge := { s.sponge with st := keccakF s.sponge.st } }.complete

/-- STLD (R114). -/
def execStld (ra : BReg) (s : State) : Result :=
  .next <|
    if s.phase ≠ .idle then s.raise .seq
    else if (s.readB ra).length ≠ 200 then s.raise .param
    else { s with sponge := s.sponge.load (s.readB ra) }.complete

/-- STRD (R115). -/
def execStrd (rd : BReg) (s : State) : Result :=
  .next <|
    if s.phase ≠ .idle then s.raise .seq
    else (s.writeB rd s.sponge.bytes).complete

end Sys2Proof.Machine
end

