-- ==== Sys2Proof/Machine/SpongeUnit.lean ====
section
/-! DEFINITION. The sponge (spec/42_sponge.md R120 to R132): its functions on the sponge unit, and the five commands with the phase table
of R120. -/

namespace Sys2Proof.Machine

/-- The permutation and the cursor back to 0, at a block boundary (R122, R127). -/
def permuteBlock (u : Sponge) : Sponge := { st := keccakF u.st, pt := 0 }

/-- One input byte (R122): XOR at the cursor, step the cursor, and permute as soon as it reaches the rate. -/
def absorbByte (u : Sponge) (byte : Byte) : Sponge :=
  let stepped : Sponge := { u.xorAt u.pt.toNat byte with pt := u.pt + 1 }
  if stepped.pt.toNat = rsiz then permuteBlock stepped else stepped

/-- `absorb(data)` (R122), the bytes in index order. -/
def absorbBytes (u : Sponge) (data : Bytes) : Sponge := data.foldl absorbByte u

/-- `finalize(suffix)` (R124): the two XORs one after the other, then one permutation. -/
def finalize (u : Sponge) (suffix : Byte) : Sponge := permuteBlock ((u.xorAt u.pt.toNat suffix).xorAt (rsiz - 1) 0x80)

/-- `squeeze(n)` (R127): the bytes and the unit after them. The permutation runs just before a byte is emitted at the rate. -/
def squeezeBytes : Nat → Sponge → Bytes × Sponge
  | 0, u => ([], u)
  | n + 1, u =>
    let at0 := if u.pt.toNat = rsiz then permuteBlock u else u
    let rest := squeezeBytes n { at0 with pt := at0.pt + 1 }
    (at0.read at0.pt.toNat :: rest.1, rest.2)

/-- `sponge(X, suffix, n)` (R131): a whole operation on a fresh unit. -/
def spongeHash (x : Bytes) (suffix : Byte) (n : Nat) : Bytes :=
  (squeezeBytes n (finalize (absorbBytes Sponge.zero x) suffix)).1

/-- SINIT (R121): legal in every phase. -/
def execSinit (s : State) : Result := .next { s with sponge := Sponge.zero, phase := .ready }.complete

/-- ABSORB (R123). -/
def execAbsorb (ra : BReg) (s : State) : Result :=
  .next <|
    if s.phase ≠ .ready ∧ s.phase ≠ .absorbing then s.raise .seq
    else { s with sponge := absorbBytes s.sponge (s.readB ra), phase := .absorbing }.complete

/-- FINAL (R125), any suffix byte (R126). -/
def execFinal (suffix : Byte) (s : State) : Result :=
  .next <|
    if s.phase ≠ .ready ∧ s.phase ≠ .absorbing then s.raise .seq
    else { s with sponge := finalize s.sponge suffix, phase := .squeezing }.complete

/-- SQUEEZE (R128). -/
def execSqueeze (rd : BReg) (ra : NReg) (s : State) : Result :=
  .next <|
    if s.phase ≠ .squeezing then s.raise .seq
    else if bmax < (s.readN ra).toNat then s.raise .param
    else
      let out := squeezeBytes (s.readN ra).toNat s.sponge
      ({ s with sponge := out.2 }.writeB rd out.1).complete

/-- SDONE (R129): legal in every phase. -/
def execSdone (s : State) : Result := .next s.destroySponge.complete

end Sys2Proof.Machine
end

