-- ==== Sys2Proof/Machine/Shake.lean ====
section
/-! DEFINITION. cSHAKE and KMACXOF (spec/44_cshake_kmac.md R170 to R179). Both run on a fresh sponge unit of their own; the command then
leaves the engine's unit destroyed (R170). -/

namespace Sys2Proof.Machine

/-- `cshake(X, L, N, S)` (R173), `L` in bits and a multiple of 8. -/
def cshake (x : Bytes) (l : Nat) (n s : Bytes) : Bytes :=
  let padded :=
    if n.length = 0 ∧ s.length = 0 then finalize (absorbBytes Sponge.zero x) 0x1F
    else finalize (absorbBytes (absorbBytes Sponge.zero (bytepad (encodeString n ++ encodeString s) 136)) x) 0x04
  (squeezeBytes (l / 8) padded).1

/-- The function name "KMAC" (R8, R176). -/
def kmacName : Bytes := [0x4B, 0x4D, 0x41, 0x43]

/-- `kmacxof(K, X, L, S)` (R176): the trailer is always `right_encode(0)`. -/
def kmacxof (k x : Bytes) (l : Nat) (s : Bytes) : Bytes :=
  cshake (bytepad (encodeString k) 136 ++ x ++ rightEncode 0) l kmacName s

/-- The checks CSHAKE and KMACXOF make on `NL` before computing (R174, R177): a multiple of 8, and an output that fits. -/
def badOutputLength (l : Nat) : Bool := l % 8 != 0 || bmax < l / 8

/-- CSHAKE (R174). -/
def execCshake (s : State) : Result :=
  .next <|
    if s.phase ≠ .idle then s.raise .seq
    else if badOutputLength (s.readN NL).toNat then s.raise .param
    else (s.writeB BO (cshake (s.readB BX) (s.readN NL).toNat (s.readB BN) (s.readB BS))).destroySponge.complete

/-- KMACXOF (R177): `BN` is not read. -/
def execKmacxof (s : State) : Result :=
  .next <|
    if s.phase ≠ .idle then s.raise .seq
    else if badOutputLength (s.readN NL).toNat then s.raise .param
    else (s.writeB BO (kmacxof (s.readB BK) (s.readB BX) (s.readN NL).toNat (s.readB BS))).destroySponge.complete

end Sys2Proof.Machine
end

