-- ==== Sys2Proof/Machine/Protocol.lean ====
section
/-! DEFINITION. The seven protocol commands (spec/46_protocol.md R230 to R248): composite commands on fixed registers. -/

namespace Sys2Proof.Machine

/-! ### Labels (R231) -/

/-- "K". -/
def labelK : Bytes := [0x4B]

/-- "S". -/
def labelS : Bytes := [0x53]

/-- "SKE". -/
def labelSKE : Bytes := [0x53, 0x4B, 0x45]

/-- "SKA". -/
def labelSKA : Bytes := [0x53, 0x4B, 0x41]

/-- "P". -/
def labelP : Bytes := [0x50]

/-- "PKE". -/
def labelPKE : Bytes := [0x50, 0x4B, 0x45]

/-- "PKA". -/
def labelPKA : Bytes := [0x50, 0x4B, 0x41]

/-- "N". -/
def labelN : Bytes := [0x4E]

/-- "T". -/
def labelT : Bytes := [0x54]

/-! ### Shared functions -/

/-- `(ke, ka)` of the 128 bytes `ke‖ka`: cut in the middle (R232). -/
def splitKeys (keka : Bytes) : Bytes × Bytes := (keka.take 64, keka.drop 64)

/-- The symmetric keys from nonce and password (R238, R239). The KMACXOF key `z‖password` is a string of its own, in no register: up to
`64 + BMAX` bytes for SYMENC and `2·BMAX` for SYMDEC. A bit length of `2^2040` or more, which R148 calls impossible, has a free length
byte (log 27). -/
def symKeys (z password : Bytes) : Bytes × Bytes := splitKeys (kmacxof (z ++ password) [] 1024 labelS)

/-- The asymmetric keys from the x-coordinate of `W` (R233, R241, R242). -/
def asymKeys (w : Point) : Bytes × Bytes := splitKeys (kmacxof (i2b (ofField w.x)) [] 1024 labelP)

/-- `seal` (R234): ciphertext and tag, the tag over the plaintext. -/
def sealMessage (keys : Bytes × Bytes) (m labelE labelA : Bytes) : Bytes × Bytes :=
  (xorBytes (kmacxof keys.1 [] (bitLength m) labelE) m, kmacxof keys.2 m 512 labelA)

/-- `open` (R234): the plaintext if the recomputed tag is the given one as a byte string (R247), else nothing. -/
def openMessage (keys : Bytes × Bytes) (ciphertext tag labelE labelA : Bytes) : Option Bytes :=
  let m := xorBytes (kmacxof keys.1 [] (bitLength ciphertext) labelE) ciphertext
  if kmacxof keys.2 m 512 labelA = tag then some m else none

/-- The private scalar of a password (R230, R236, R244): `4 · int(64 bytes)`. -/
def passwordScalar (password : Bytes) : Nat := 4 * int (kmacxof password [] 512 labelK)

/-- The nonce scalar of a signature (R244). -/
def signatureNonce (secret : Nat) (message : Bytes) : Nat := 4 * int (kmacxof (i2b (toNWord secret)) message 512 labelN)

/-- The digest of a signature, from the point `U` or `U'` (R244, R245). -/
def signatureDigest (u : Point) (message : Bytes) : Bytes := kmacxof (i2b (ofField u.x)) message 512 labelT

/-- `z = (k − h·s) mod r`, the nonnegative residue (R12, R244). -/
def signatureResponse (k h secret : Nat) : Nat := (((k : Int) - (h : Int) * (secret : Int)) % (groupOrder : Int)).toNat

/-- The end of SYMDEC and ASYMDEC (R239, R242, R265): the sponge unit destroyed, then the plaintext and acceptance, or `BX` emptied and
AUTH_FAIL. -/
def State.finishDecrypt (s : State) (res : Option Bytes) : State :=
  match res with
  | some m => (s.destroySponge.writeB BX m).accepted
  | none => (s.destroySponge.writeB BX []).raise .authFail

/-! ### The commands -/

/-- KEYGEN (R236). DIV_ZERO cannot occur, `G` being on the curve; the branch is there because `pscale` answers an Option (log 17). -/
def execKeygen (s : State) : Result :=
  .next <|
    if s.phase ≠ .idle then s.raise .seq
    else
      let secret := passwordScalar (s.readB BK)
      match pscale secret basePoint with
      | none => s.raise .divZero
      | some v => ((s.writeN NS (toNWord secret)).writeP PV v).destroySponge.complete

/-- SYMENC (R238). -/
def execSymenc (s : State) : Result :=
  .next <|
    if s.phase ≠ .idle then s.raise .seq
    else
      let z := s.nextDraw
      let ct := sealMessage (symKeys z (s.readB BK)) (s.readB BX) labelSKE labelSKA
      (((s.takeDraw.writeB BZ z).writeB BO ct.1).writeB BT ct.2).destroySponge.complete

/-- SYMDEC (R239). -/
def execSymdec (s : State) : Result :=
  .next <|
    if s.phase ≠ .idle then s.raise .seq
    else
      s.finishDecrypt (openMessage (symKeys (s.readB BZ) (s.readB BK)) (s.readB BO) (s.readB BT) labelSKE labelSKA)

/-- ASYMENC (R241): the draw is consumed even when DIV_ZERO is raised (R235). -/
def execAsymenc (s : State) : Result :=
  .next <|
    if s.phase ≠ .idle then s.raise .seq
    else
      let k := 4 * int s.nextDraw
      match pscale k (s.readP PV), pscale k basePoint with
      | some w, some z =>
        let ct := sealMessage (asymKeys w) (s.readB BX) labelPKE labelPKA
        (((s.takeDraw.writeP PZ z).writeB BO ct.1).writeB BT ct.2).destroySponge.complete
      | _, _ => s.takeDraw.raise .divZero

/-- ASYMDEC (R242): `NS` is used as it is. -/
def execAsymdec (s : State) : Result :=
  .next <|
    if s.phase ≠ .idle then s.raise .seq
    else
      match pscale (s.readN NS).toNat (s.readP PZ) with
      | none => s.raise .divZero
      | some w => s.finishDecrypt (openMessage (asymKeys w) (s.readB BO) (s.readB BT) labelPKE labelPKA)

/-- SIGN (R244). DIV_ZERO cannot occur, `G` being on the curve (log 17). -/
def execSign (s : State) : Result :=
  .next <|
    if s.phase ≠ .idle then s.raise .seq
    else
      let secret := passwordScalar (s.readB BK)
      let k := signatureNonce secret (s.readB BX)
      match pscale k basePoint with
      | none => s.raise .divZero
      | some u =>
        let digest := signatureDigest u (s.readB BX)
        ((s.writeB BH digest).writeN NZ (toNWord (signatureResponse k (int digest) secret))).destroySponge.complete

/-- `U' = scale(z, G) + scale(h, V)` (R245), the additions in the order the pseudocode gives; `none` is DIV_ZERO. -/
def verifyPoint (z h : Nat) (v : Point) : Option Point :=
  match pscale z basePoint with
  | none => none
  | some a =>
    match pscale h v with
    | none => none
    | some b => padd a b

/-- The end of VERIFY (R245): the sponge unit destroyed, then acceptance or AUTH_FAIL. No register is written. -/
def State.finishVerify (s : State) (ok : Bool) : State :=
  if ok then s.destroySponge.accepted else s.destroySponge.raise .authFail

/-- VERIFY (R245): a `BH` whose value is `2^521` or more rejects before any point is computed. -/
def execVerify (s : State) : Result :=
  .next <|
    if s.phase ≠ .idle then s.raise .seq
    else if 2 ^ 521 ≤ int (s.readB BH) then s.finishVerify false
    else
      match verifyPoint (s.readN NZ).toNat (int (s.readB BH)) (s.readP PV) with
      | none => s.raise .divZero
      | some u => s.finishVerify (signatureDigest u (s.readB BX) == s.readB BH)

end Sys2Proof.Machine
end

