-- ==== Sys2Proof/Machine/Dispatch.lean ====
section
/-! DEFINITION. One arm per command (spec/30_encoding.md R74), each a direct call of its meaning. -/

namespace Sys2Proof.Machine

def exec (i : Instr) (s : State) : Host.Outcome State Fault Refusal :=
  match i with
  | .kround ir => Sys2Proof.Machine.execKround ir s
  | .keccakf => Sys2Proof.Machine.execKeccakf s
  | .stld ra => Sys2Proof.Machine.execStld ra s
  | .strd rd => Sys2Proof.Machine.execStrd rd s
  | .sinit => Sys2Proof.Machine.execSinit s
  | .absorb ra => Sys2Proof.Machine.execAbsorb ra s
  | .final suffix => Sys2Proof.Machine.execFinal suffix s
  | .squeeze rd ra => Sys2Proof.Machine.execSqueeze rd ra s
  | .sdone => Sys2Proof.Machine.execSdone s
  | .lenc rd ra => Sys2Proof.Machine.execLenc rd ra s
  | .renc rd ra => Sys2Proof.Machine.execRenc rd ra s
  | .encstr rd ra => Sys2Proof.Machine.execEncstr rd ra s
  | .bytepad rd ra rb => Sys2Proof.Machine.execBytepad rd ra rb s
  | .bcat rd ra rb => Sys2Proof.Machine.execBcat rd ra rb s
  | .bxor rd ra rb => Sys2Proof.Machine.execBxor rd ra rb s
  | .b2i rd ra => Sys2Proof.Machine.execB2i rd ra s
  | .i2b rd ra => Sys2Proof.Machine.execI2b rd ra s
  | .nli rd imm => Sys2Proof.Machine.execNli rd imm s
  | .bclr rd => Sys2Proof.Machine.execBclr rd s
  | .cshake => Sys2Proof.Machine.execCshake s
  | .kmacxof => Sys2Proof.Machine.execKmacxof s
  | .pneut rd => Sys2Proof.Machine.execPneut rd s
  | .pgen rd => Sys2Proof.Machine.execPgen rd s
  | .pfromx rd ra lsb => Sys2Proof.Machine.execPfromx rd ra lsb s
  | .pneg rd ra => Sys2Proof.Machine.execPneg rd ra s
  | .padd rd ra rb => Sys2Proof.Machine.execPadd rd ra rb s
  | .pscale rd ra rb => Sys2Proof.Machine.execPscale rd ra rb s
  | .pgetx rd ra => Sys2Proof.Machine.execPgetx rd ra s
  | .pgety rd ra => Sys2Proof.Machine.execPgety rd ra s
  | .pset rd ra rb => Sys2Proof.Machine.execPset rd ra rb s
  | .keygen => Sys2Proof.Machine.execKeygen s
  | .symenc => Sys2Proof.Machine.execSymenc s
  | .symdec => Sys2Proof.Machine.execSymdec s
  | .asymenc => Sys2Proof.Machine.execAsymenc s
  | .asymdec => Sys2Proof.Machine.execAsymdec s
  | .sign => Sys2Proof.Machine.execSign s
  | .verify => Sys2Proof.Machine.execVerify s

end Sys2Proof.Machine
end

