-- ==== Sys2Proof/Machine/Host.lean ====
section
/-! DEFINITION. What the environment does to the engine (spec/20_memory.md R56 to R58, spec/70_reset_and_hazards.md R290, R291): one function
per host action, each on the state with the action already taken from `pending`. -/

namespace Sys2Proof.Machine

/-- A host write is refused (R57): no register changes, `ERR <- FORMAT`, `ACCEPT <- 0`. -/
def State.refuseWrite (s : State) : State := s.raise .format

/-- `HostWriteB(i, S)` (R56, R57). An accepted write does not change `STATUS`. -/
def hostWriteB (i : Nat) (v : Bytes) (s : State) : State :=
  if h : i < 8 then
    if v.length ≤ bmax then s.writeB ⟨i, h⟩ v else s.refuseWrite
  else s.refuseWrite

/-- `HostWriteN(i, v)` (R56, R57). A negative integer breaks the precondition too (log 18). -/
def hostWriteN (i : Nat) (v : Int) (s : State) : State :=
  if h : i < 8 then
    if 0 ≤ v ∧ v.toNat < 2 ^ 521 then s.writeN ⟨i, h⟩ (toNWord v.toNat) else s.refuseWrite
  else s.refuseWrite

/-- The value goes to the host and the engine does not change (R56). -/
def State.reply (s : State) (r : HostReply) : State := { s with replies := r :: s.replies }

/-- `HostReadB(i)` (R56). No register has a number above 7 (log 5). -/
def hostReadB (i : Nat) (s : State) : Result :=
  if h : i < 8 then .next (s.reply (.bytes (s.readB ⟨i, h⟩))) else .fault .noSuchRegister

/-- `HostReadN(i)` (R56). No register has a number above 7 (log 5). -/
def hostReadN (i : Nat) (s : State) : Result :=
  if h : i < 8 then .next (s.reply (.integer (s.readN ⟨i, h⟩))) else .fault .noSuchRegister

/-- `HostReadStatus()` (R56). -/
def hostReadStatus (s : State) : State := s.reply (.status s.status)

/-- `HostCommand(w)` (R58): execute the command the word encodes; a word that is no command raises ILLEGAL (R75, R261). -/
def hostCommand (w : CommandWord) (s : State) : Result :=
  match decode w with
  | .ok i => exec i s
  | .error _ => .next (s.raise .illegal)

/-- Reset (R290, R291): every piece of engine state to its value of R41; the environment is no engine state and keeps what it had
(log 10). -/
def resetEngine (s : State) : State :=
  { State.reset with pending := s.pending, replies := s.replies, entropy := s.entropy, draws := s.draws }

/-- One action of the environment. -/
def hostAct (a : HostAction) (s : State) : Result :=
  match a with
  | .writeB i v => .next (hostWriteB i v s)
  | .readB i => hostReadB i s
  | .writeN i v => .next (hostWriteN i v s)
  | .readN i => hostReadN i s
  | .readStatus => .next (hostReadStatus s)
  | .command w => hostCommand w s
  | .reset => .next (resetEngine s)

/-- The next thing that happens: the next pending action, run on the state without it; with none pending the engine waits (R290, log 3). -/
def nextAction (s : State) : Result :=
  match s.pending with
  | [] => .next s
  | a :: rest => hostAct a { s with pending := rest }

/-- The host is about to issue the command word `w` next (log 9). -/
def issueNext (w : CommandWord) (s : State) : State := { s with pending := .command w :: s.pending }

/-- A list of commands run one after the other (R60, R79): the order is the host's, and nothing else orders them. -/
def execAll : List Instr → State → Result
  | [], s => .next s
  | i :: is, s =>
    match exec i s with
    | .next s' => execAll is s'
    | .fault r => .fault r
    | .refused r => .refused r

end Sys2Proof.Machine
end

