-- ==== Sys2Proof/Machine/Step.lean ====
section
/-! DEFINITION. One step, and the placing of a command the next step runs. The engine has no program counter and no fetch (spec/10_state.md
R40): the host issues the command word, so a step is the environment's next action. -/

namespace Sys2Proof.Machine

/-- One step: the next action of the environment, to completion (R58, R60). -/
def step (s : State) : Host.Outcome State Fault Refusal := nextAction s

/-- `s` with the command word `w` issued next (log 9): the next step runs exactly it. A command is one 32-bit word, whatever `nbits` says. -/
def State.withFetchWord (s : State) (_nbits w : Nat) : State := issueNext (BitVec.ofNat 32 w) s

end Sys2Proof.Machine
end

