-- ==== Sys2Proof/Machine/Pseudo.lean ====
section
/-! DEFINITION. The spellings of spec/30_encoding.md: the pseudo-commands (R78) and the assembler syntax (R77). Neither adds a command; each
pseudo-command is the commands beside it. -/

namespace Sys2Proof.Machine

/-- `PDBL Pd, Pa` (R78). -/
def expandPdbl (rd ra : PReg) : List Instr := [.padd rd ra ra]

/-- `SHAKE256` (R78). -/
def expandShake256 : List Instr := [.bclr BN, .bclr BS, .cshake]

/-- `FINAL.SHAKE` (R78). -/
def expandFinalShake : List Instr := [.final 0x1F]

/-- `FINAL.CSHAKE` (R78). -/
def expandFinalCshake : List Instr := [.final 0x04]

/-- `NCLR Nd` (R78). -/
def expandNclr (rd : NReg) : List Instr := [.nli rd 0]

/-- `PMOV Pd, Pa` (R78): overwrites `N6` and `N7`. -/
def expandPmov (rd ra : PReg) : List Instr := [.pgetx 7 ra, .pgety 6 ra, .pset rd 7 6]

/-- A `B` register's name (R77). -/
def nameB (i : BReg) : String := "B" ++ toString i.val

/-- An `N` register's name (R77). -/
def nameN (i : NReg) : String := "N" ++ toString i.val

/-- A `P` register's name (R77). -/
def nameP (i : PReg) : String := "P" ++ toString i.val

/-- The operands of a command, in the order rd, ra, rb, imm, immediates in decimal (R77). -/
def operandNames : Instr → List String
  | .kround ir => [toString ir.toNat]
  | .final suffix => [toString suffix.toNat]
  | .stld ra | .absorb ra => [nameB ra]
  | .strd rd | .bclr rd => [nameB rd]
  | .squeeze rd ra | .lenc rd ra | .renc rd ra | .i2b rd ra => [nameB rd, nameN ra]
  | .encstr rd ra => [nameB rd, nameB ra]
  | .bytepad rd ra rb => [nameB rd, nameB ra, nameN rb]
  | .bcat rd ra rb | .bxor rd ra rb => [nameB rd, nameB ra, nameB rb]
  | .b2i rd ra => [nameN rd, nameB ra]
  | .nli rd imm => [nameN rd, toString imm.toNat]
  | .pneut rd | .pgen rd => [nameP rd]
  | .pfromx rd ra lsb => [nameP rd, nameN ra, toString lsb.toNat]
  | .pneg rd ra => [nameP rd, nameP ra]
  | .padd rd ra rb => [nameP rd, nameP ra, nameP rb]
  | .pscale rd ra rb => [nameP rd, nameN ra, nameP rb]
  | .pgetx rd ra | .pgety rd ra => [nameN rd, nameP ra]
  | .pset rd ra rb => [nameP rd, nameN ra, nameN rb]
  | .keccakf | .sinit | .sdone | .cshake | .kmacxof | .keygen | .symenc | .symdec | .asymenc | .asymdec | .sign | .verify => []

/-- A command in the syntax of R77, without a comment. -/
def assembler (i : Instr) : String :=
  match operandNames i with
  | [] => i.mnemonic
  | ops => i.mnemonic ++ " " ++ String.intercalate ", " ops

end Sys2Proof.Machine
end

