-- ==== Sys2Proof/Safety.lean ====
section
/-! DEFINITION. What counts as a sound state, and the spec's tables about all commands (which phase allows a command, what it may raise, what
it writes), in the terms the statements use. The machine reads none of this. -/

namespace Sys2Proof.Machine

/-! ### Sound states -/

/-- The cursor is where the phase allows it (R23, R26): below the rate while absorbing, at most the rate while squeezing. In IDLE it is 0,
which the spec does not say in one sentence but every way into IDLE gives (R41, R129, R170; DEDUCED, log 26). -/
def State.cursorOk (s : State) : Bool :=
  match s.phase with
  | .idle => s.sponge.pt.toNat == 0
  | .ready => s.sponge.pt.toNat == 0
  | .absorbing => s.sponge.pt.toNat < 136
  | .squeezing => s.sponge.pt.toNat ≤ 136

/-- Every byte-string register holds at most `BMAX` bytes (R27). -/
def State.lengthsOk (s : State) : Prop := ∀ i : BReg, (s.readB i).length ≤ bmax

/-- The sponge unit is all zero between SINIT and the first ABSORB (R25). -/
def State.readyOk (s : State) : Prop := s.phase = .ready → s.sponge = Sponge.zero

/-- What holds of every state a run from reset reaches (R23, R25, R26, R27). -/
structure State.Inv (s : State) : Prop where
  cursor : s.cursorOk = true
  lengths : s.lengthsOk
  ready : s.readyOk

end Sys2Proof.Machine

namespace Sys2Proof

section Tables

open Machine

/-! ### The spec's tables about all commands -/

/-- A raw command (R111). -/
def Instr.isRaw : Instr → Bool
  | .kround _ | .keccakf | .stld _ | .strd _ => true
  | _ => false

/-- A composite command (R170). -/
def Instr.isComposite : Instr → Bool
  | .cshake | .kmacxof | .keygen | .symenc | .symdec | .asymenc | .asymdec | .sign | .verify => true
  | _ => false

/-- The table of R120: the command may execute in this phase. -/
def Instr.allowedIn (i : Instr) (ph : Phase) : Bool :=
  match i with
  | .absorb _ | .final _ => ph == .ready || ph == .absorbing
  | .squeeze _ _ => ph == .squeezing
  | i => if i.isRaw || i.isComposite then ph == .idle else true

/-- The table of R120: the phase a command that executes leaves. -/
def Instr.phaseAfter (i : Instr) (ph : Phase) : Phase :=
  match i with
  | .sinit => .ready
  | .absorb _ => .absorbing
  | .final _ => .squeezing
  | .sdone => .idle
  | _ => ph

/-- The column "raised by" of R260: the command may end with the condition. ILLEGAL belongs to words and FORMAT to host writes. -/
def Instr.mayRaise (i : Instr) : Condition → Bool
  | .ok => true
  | .invalidPoint => match i with | .pfromx _ _ _ => true | _ => false
  | .authFail => match i with | .symdec | .asymdec | .verify => true | _ => false
  | .format => false
  | .illegal => false
  | .seq => match i with | .absorb _ | .final _ | .squeeze _ _ => true | i => i.isRaw || i.isComposite
  | .param =>
    match i with
    | .stld _ | .squeeze _ _ | .encstr _ _ | .bytepad _ _ _ | .bcat _ _ _ | .bxor _ _ _ | .b2i _ _ | .cshake | .kmacxof => true
    | _ => false
  | .divZero => match i with | .padd _ _ _ | .pscale _ _ _ | .asymenc | .asymdec | .verify => true | _ => false

/-- The list of R263: the operand values for which a command raises PARAM. -/
def Instr.badOperand (i : Instr) (s : State) : Prop :=
  match i with
  | .stld ra => (s.readB ra).length ≠ 200
  | .squeeze _ ra => bmax < (s.readN ra).toNat
  | .encstr _ ra => bmax < (encodeString (s.readB ra)).length
  | .bytepad _ ra rb => s.readN rb = 0 ∨ bmax < (Machine.bytepad (s.readB ra) (s.readN rb).toNat).length
  | .bcat _ ra rb => bmax < (s.readB ra).length + (s.readB rb).length
  | .bxor _ ra rb => (s.readB ra).length ≠ (s.readB rb).length
  | .b2i _ ra => 2 ^ 521 ≤ int (s.readB ra)
  | .cshake | .kmacxof => (s.readN NL).toNat % 8 ≠ 0 ∨ bmax < (s.readN NL).toNat / 8
  | _ => False

/-- The byte-string registers a command writes (R42). -/
def Instr.writesB : Instr → List BReg
  | .strd rd | .squeeze rd _ | .lenc rd _ | .renc rd _ | .i2b rd _ | .encstr rd _ | .bytepad rd _ _ | .bcat rd _ _ | .bxor rd _ _
  | .bclr rd => [rd]
  | .cshake | .kmacxof => [BO]
  | .symenc => [BZ, BO, BT]
  | .symdec | .asymdec => [BX]
  | .asymenc => [BO, BT]
  | .sign => [BH]
  | _ => []

/-- The integer registers a command writes (R42). -/
def Instr.writesN : Instr → List NReg
  | .b2i rd _ | .nli rd _ | .pgetx rd _ | .pgety rd _ => [rd]
  | .keygen => [NS]
  | .sign => [NZ]
  | _ => []

/-- The point registers a command writes (R42). -/
def Instr.writesP : Instr → List PReg
  | .pneut rd | .pgen rd | .pfromx rd _ _ | .pneg rd _ | .padd rd _ _ | .pscale rd _ _ | .pset rd _ _ => [rd]
  | .keygen => [PV]
  | .asymenc => [PZ]
  | _ => []

/-- The command writes `ST` (R42). -/
def Instr.writesSt : Instr → Bool
  | .kround _ | .keccakf | .stld _ | .sinit | .absorb _ | .final _ | .squeeze _ _ | .sdone => true
  | i => i.isComposite

/-- The command writes `PT` (R42). -/
def Instr.writesPt : Instr → Bool
  | .sinit | .absorb _ | .final _ | .squeeze _ _ | .sdone => true
  | i => i.isComposite

/-- The command writes `PHASE` (R42). -/
def Instr.writesPhase : Instr → Bool
  | .sinit | .absorb _ | .final _ | .sdone => true
  | _ => false

/-- The command takes a draw from the entropy source (R235). -/
def Instr.draws : Instr → Bool
  | .symenc | .asymenc => true
  | _ => false

end Tables

end Sys2Proof

namespace Sys2Proof.Machine

/-- What a command leaves unchanged (R42, R235): everything the tables above do not give it, but for `STATUS`. -/
structure State.Frame (i : Instr) (s t : State) : Prop where
  b : ∀ r : BReg, r ∉ i.writesB → t.readB r = s.readB r
  n : ∀ r : NReg, r ∉ i.writesN → t.readN r = s.readN r
  p : ∀ r : PReg, r ∉ i.writesP → t.readP r = s.readP r
  st : i.writesSt = false → t.sponge.st = s.sponge.st
  pt : i.writesPt = false → t.sponge.pt = s.sponge.pt
  phase : i.writesPhase = false → t.phase = s.phase
  entropy : i.draws = false → t.entropy = s.entropy ∧ t.draws = s.draws
  host : t.pending = s.pending ∧ t.replies = s.replies

/-! ### Second forms of the spec's procedures -/

/-- One step of the shift register of R108: times `x` modulo its polynomial `x^8 + x^6 + x^5 + x^4 + 1`. -/
def shiftRegisterStep (r : BitVec 8) : BitVec 8 := (r <<< 1) ^^^ (if r.msb then 0b01110001 else 0)

/-- The shift register of R108 after `t` steps, started at 1. Its output is bit 0. -/
def shiftRegister : Nat → BitVec 8
  | 0 => 1
  | t + 1 => shiftRegisterStep (shiftRegister t)

/-- The offsets `r[x][y]` of R104, row `x`. -/
def rhoOffset (x y : Fin 5) : Nat :=
  ((#v[#v[0, 36, 3, 41, 18], #v[1, 44, 10, 45, 2], #v[62, 6, 43, 15, 61], #v[28, 55, 25, 21, 56], #v[27, 20, 39, 8, 14]] :
    Vector (Vector Nat 5) 5).get x).get y

/-- Lane `(x, y)`, which is `A[x + 5y]` (R100). -/
def laneAt (a : Lanes) (x y : Fin 5) : Lane := a.get ⟨x.val + 5 * y.val, by omega⟩

/-- The loop of `scale(k, P)` run without meeting a zero denominator (R209), written as the values its two variables take: `acc i` and
`addend i` stand before turn `i`, and after the last of the `n` turns, `n` being the bit length of `k`. A 1 bit adds the addend in; the
addend is doubled at every turn, the last included. -/
structure ScaleRun (k : Nat) (p : Point) (n : Nat) (acc addend : Nat → Point) : Prop where
  fits : k < 2 ^ n
  least : ∀ m, k < 2 ^ m → n ≤ m
  start : (acc 0).x.val = 0 ∧ (acc 0).y.val = 1 ∧ addend 0 = p
  add : ∀ i, i < n → k.testBit i = true → padd (acc i) (addend i) = some (acc (i + 1))
  keep : ∀ i, i < n → k.testBit i = false → acc (i + 1) = acc i
  double : ∀ i, i < n → padd (addend i) (addend i) = some (addend (i + 1))

end Sys2Proof.Machine
end

