-- ==== Sys2Proof/Certificates/Slice0/Obligations.lean ====
section
/-! DEFINITION. The statements for the provers. Each says in its docstring which rule of spec/ it formalises. A statement rests on no value
of the open parameters: BMAX, I2B, the entropy and the length byte of a number of `2^2040` or more (log 27) are whatever `bmax`, `i2b`,
`State.nextDraw` and `lengthByte` answer. -/

section Statements

open Sys2Proof Sys2Proof.Machine

/-! ### Reset, status, the host -/

/-- R41: the state after reset. -/
def Obligations.ResetValues : Prop :=
  (∀ j : Fin 200, State.reset.sponge.st.get j = 0) ∧ State.reset.sponge.pt = 0 ∧ State.reset.rsiz = 136 ∧
    State.reset.phase = .idle ∧ (∀ i : BReg, State.reset.readB i = []) ∧ (∀ i : NReg, State.reset.readN i = 0) ∧
    (∀ i : PReg, (State.reset.readP i).x.val = 0 ∧ (State.reset.readP i).y.val = 1) ∧
    State.reset.err = .ok ∧ State.reset.accept = false ∧ State.reset.status = 0x00880000#32

/-- R290: applying reset puts every engine field at its reset value and leaves the environment (log 10); with no action pending the
engine waits (log 3). -/
def Obligations.ResetAction : Prop :=
  (∀ (s : State) (rest : List HostAction), s.pending = .reset :: rest →
    step s = .next { State.reset with
      pending := rest
      replies := s.replies
      entropy := s.entropy
      draws := s.draws }) ∧
  ∀ s : State, s.pending = [] → step s = .next s

/-- R33: the fields of `STATUS`. -/
def Obligations.StatusFields : Prop :=
  ∀ s : State,
    s.status.extractLsb' 0 4 = s.err.code ∧ s.status.getLsbD 4 = s.accept ∧ s.status.extractLsb' 5 2 = s.phase.code ∧
      s.status.getLsbD 7 = false ∧ s.status.extractLsb' 8 8 = s.sponge.pt ∧ s.status.extractLsb' 16 8 = 136#8 ∧
      s.status.extractLsb' 24 8 = 0#8

/-- R260: the codes, and which commands raise which condition. FORMAT and ILLEGAL are raised by no command: they belong to host writes
and to words that are no command. -/
def Obligations.ConditionTable : Prop :=
  ([Condition.ok, .invalidPoint, .authFail, .format, .illegal, .seq, .param, .divZero].map Condition.code =
    [0, 1, 2, 3, 4, 5, 6, 7]) ∧
  (∀ c : Condition, c.code.toNat < 8) ∧
  (∀ (i : Instr) (s t : State), i.wf = true → exec i s = .next t → i.mayRaise t.err = true) ∧
  (∀ (w : CommandWord) (s t : State), hostCommand w s = .next t → (t.err = .illegal ↔ ∃ e, decode w = .error e)) ∧
  ∀ (w : CommandWord) (s t : State), hostCommand w s = .next t → t.err ≠ .format

/-- R57: a host write that breaks its precondition is refused. -/
def Obligations.HostWriteRefused : Prop :=
  ∀ (s : State) (i : Nat),
    (∀ v : Bytes, ¬ (i < 8 ∧ v.length ≤ bmax) → hostAct (.writeB i v) s = .next { s with
      err := .format
      accept := false }) ∧
    ∀ v : Int, ¬ (i < 8 ∧ 0 ≤ v ∧ v.toNat < 2 ^ 521) → hostAct (.writeN i v) s = .next { s with
      err := .format
      accept := false }

/-- R56: an accepted write replaces one register and leaves `STATUS` alone; a read gives the value and changes no engine state (log 4);
a read of a register number that does not exist stops the machine (log 5). -/
def Obligations.HostAccess : Prop :=
  ∀ s : State,
    (∀ (i : BReg) (v : Bytes), v.length ≤ bmax → hostAct (.writeB i.val v) s = .next (s.writeB i v)) ∧
    (∀ (i : NReg) (v : NWord), hostAct (.writeN i.val v.toNat) s = .next (s.writeN i v)) ∧
    (∀ i : BReg, hostAct (.readB i.val) s = .next { s with replies := .bytes (s.readB i) :: s.replies }) ∧
    (∀ i : NReg, hostAct (.readN i.val) s = .next { s with replies := .integer (s.readN i) :: s.replies }) ∧
    hostAct .readStatus s = .next { s with replies := .status s.status :: s.replies } ∧
    ∀ i : Nat, 8 ≤ i → hostAct (.readB i) s = .fault .noSuchRegister ∧ hostAct (.readN i) s = .fault .noSuchRegister

/-! ### Decoding and the step -/

/-- R70 to R74: decoding the word of a well-formed command gives the command. -/
def Obligations.DecodeOfEncode : Prop := ∀ i : Instr, i.wf = true → decode (encode i) = .ok i

/-- R75, R76: a word that decodes is the word of the command it decodes to, and that command is well-formed: no bit is ignored. -/
def Obligations.EncodeOfDecode : Prop :=
  ∀ (w : CommandWord) (i : Instr), decode w = .ok i → i.wf = true ∧ encode i = w

/-- R74, R75: the decoder accepts exactly the words the opcode map's masks and matches select, and reads the command of the row. -/
def Obligations.DecodeFollowsTable : Prop :=
  ∀ (w : CommandWord) (row : OpcodeRow), row ∈ opcodeTable →
    ((∃ i, decode w = .ok i ∧ i.mnemonic = row.mnemonic) ↔
      w &&& row.mask = row.pattern ∧ (row.mnemonic = "KROUND" → (w.extractLsb' 20 5).toNat ≤ 23))

/-- R77's example words. -/
def Obligations.SampleWords : Prop :=
  decode 0x00010254 = .ok (.padd 2 0 1) ∧ decode 0x01700010 = .ok (.kround 23) ∧ decode 0x01F00022 = .ok (.final 0x1F) ∧
    decode 0x00400022 = .ok (.final 0x04) ∧ decode 0x00000423 = .ok (.squeeze BO NL) ∧
    decode 0x00103252 = .ok (.pfromx 2 3 1) ∧ decode 0x20000038 = .ok (.nli NL 512) ∧
    decode 0x00034533 = .ok (.bytepad 5 4 3) ∧ decode 0x00021355 = .ok (.pscale 3 NS 2)

/-- R261: a word that is no command changes nothing but `STATUS`. -/
def Obligations.IllegalWord : Prop :=
  ∀ (w : CommandWord) (e : Illegal) (s : State), decode w = .error e → hostCommand w s = .next { s with
    err := .illegal
    accept := false }

/-- R58, R60: a step performs the next action of the environment (log 2); when that is a command word that decodes, the step is that
command's meaning. The placing of a word by `withFetchWord` is such an action (log 9). -/
def Obligations.StepRunsDecodedCommand : Prop :=
  (∀ (s : State) (a : HostAction) (rest : List HostAction), s.pending = a :: rest →
    step s = hostAct a { s with pending := rest }) ∧
  (∀ (s : State) (w : CommandWord) (i : Instr) (rest : List HostAction), s.pending = .command w :: rest → decode w = .ok i →
    step s = exec i { s with pending := rest }) ∧
  ∀ (s : State) (nbits w : Nat) (i : Instr), decode (BitVec.ofNat 32 w) = .ok i → step (s.withFetchWord nbits w) = exec i s

/-! ### The permutation -/

/-- R102, R103, R105, R106: the four steps in the standard's coordinates, lane `(x, y)` at index `x + 5y`. R107: their order inside a
round. R108: the round constants by their shift register, bit `2^j - 1` of constant `ir` being output `j + 7·ir`; no other bit is set. -/
def Obligations.RoundStepsInCoordinates : Prop :=
  (∀ (a : Lanes) (ir : Fin 24), keccakRound a ir = iota (chi (rhoPi (theta a))) ir) ∧
  (∀ (ir : Fin 24) (z : Nat), (roundConstants.get ir).getLsbD z = true ↔
    ∃ j, j < 7 ∧ z = 2 ^ j - 1 ∧ (shiftRegister (j + 7 * ir.val)).getLsbD 0 = true) ∧
  ∀ (a : Lanes) (x y : Fin 5),
    (let parity := fun x : Fin 5 => laneAt a x 0 ^^^ laneAt a x 1 ^^^ laneAt a x 2 ^^^ laneAt a x 3 ^^^ laneAt a x 4
     laneAt (theta a) x y = laneAt a x y ^^^ (parity (x - 1) ^^^ rotl64 (parity (x + 1)) 1)) ∧
    laneAt (rhoPi a) y (2 * x + 3 * y) = rotl64 (laneAt a x y) (rhoOffset x y) ∧
    laneAt (chi a) x y = laneAt a x y ^^^ (~~~ laneAt a (x + 1) y &&& laneAt a (x + 2) y) ∧
    ∀ ir : Fin 24, laneAt (iota a ir) x y = if x = 0 ∧ y = 0 then laneAt a x y ^^^ roundConstants.get ir else laneAt a x y

/-- R112, R113: in IDLE KROUND applies one round to the lanes and KECCAKF the 24 rounds, and nothing else changes; the 24 KROUND
commands in order have exactly KECCAKF's effect, in every state (R112 marks this sentence as derived from R109). -/
def Obligations.PermutationCommands : Prop :=
  (∀ (s : State) (ir : BitVec 5) (h : ir.toNat < 24), s.phase = .idle →
    ∃ st : Vector Byte 200, lanesOf st = keccakRound (lanesOf s.sponge.st) ⟨ir.toNat, h⟩ ∧
      exec (.kround ir) s = .next { s with
        sponge := { s.sponge with st := st }
        err := .ok
        accept := false }) ∧
  (∀ s : State, s.phase = .idle →
    ∃ st : Vector Byte 200, lanesOf st = (List.finRange 24).foldl keccakRound (lanesOf s.sponge.st) ∧
      exec .keccakf s = .next { s with
        sponge := { s.sponge with st := st }
        err := .ok
        accept := false }) ∧
  ∀ s : State, execAll ((List.finRange 24).map fun k => .kround (BitVec.ofNat 5 k.val)) s = exec .keccakf s

/-- R114, R115: byte `j` of the string is `ST[j]`, both ways; storing and loading again leaves the state as it was. -/
def Obligations.RawTransfer : Prop :=
  (∀ (s : State) (ra : BReg), s.phase = .idle → (s.readB ra).length = 200 →
    ∃ st : Vector Byte 200, (∀ j : Fin 200, st.get j = (s.readB ra).getD j.val 0) ∧
      exec (.stld ra) s = .next { s with
        sponge := { s.sponge with st := st }
        err := .ok
        accept := false }) ∧
  (∀ (s : State) (rd : BReg), s.phase = .idle →
    ∃ v : Bytes, v.length = 200 ∧ (∀ j : Fin 200, v.getD j.val 0 = s.sponge.st.get j) ∧
      exec (.strd rd) s = .next (s.writeB rd v).complete) ∧
  ∀ (s : State) (rd : BReg), s.phase = .idle →
    ∃ v : Bytes, execAll [.strd rd, .stld rd] s = .next (s.writeB rd v).complete

/-! ### The sponge -/

/-- R121, R129: SINIT and SDONE in every phase. -/
def Obligations.SinitSdoneResult : Prop :=
  ∀ s : State,
    exec .sinit s = .next { s with
      sponge := ⟨Vector.replicate 200 0, 0⟩
      phase := .ready
      err := .ok
      accept := false } ∧
    exec .sdone s = .next { s with
      sponge := ⟨Vector.replicate 200 0, 0⟩
      phase := .idle
      err := .ok
      accept := false }

/-- R122, R123: where ABSORB leaves the cursor, and, below the block's end, which bytes it changes: those at the cursor, by XOR. -/
def Obligations.AbsorbResult : Prop :=
  ∀ (s : State) (ra : BReg), s.phase = .ready ∨ s.phase = .absorbing → s.sponge.pt.toNat < 136 →
    let u := absorbBytes s.sponge (s.readB ra)
    exec (.absorb ra) s = .next { s with
        sponge := u
        phase := .absorbing
        err := .ok
        accept := false } ∧
      u.pt.toNat = (s.sponge.pt.toNat + (s.readB ra).length) % 136 ∧
      (s.sponge.pt.toNat + (s.readB ra).length < 136 → ∀ j, j < 200 →
        u.read j =
          if s.sponge.pt.toNat ≤ j ∧ j < s.sponge.pt.toNat + (s.readB ra).length
          then s.sponge.read j ^^^ (s.readB ra).getD (j - s.sponge.pt.toNat) 0 else s.sponge.read j)

/-- R122: the input that fills the block is XORed in, then one permutation runs and the cursor is 0; the rest goes on from there. The
capacity bytes take no input (R26). -/
def Obligations.AbsorbBlock : Prop :=
  ∀ (u : Sponge) (a v : Bytes), a ≠ [] → u.pt.toNat + a.length = 136 →
    ∃ st : Vector Byte 200,
      (∀ j : Fin 200, st.get j =
        if u.pt.toNat ≤ j.val ∧ j.val < 136 then u.st.get j ^^^ a.getD (j.val - u.pt.toNat) 0 else u.st.get j) ∧
      absorbBytes u (a ++ v) = absorbBytes ⟨keccakF st, 0⟩ v

/-- R124, R125: FINAL XORs the suffix at the cursor and 0x80 into byte 135, both into one byte when the cursor is there, and permutes
once. -/
def Obligations.FinalResult : Prop :=
  ∀ (s : State) (suffix : Byte), s.phase = .ready ∨ s.phase = .absorbing → s.sponge.pt.toNat < 136 →
    ∃ st : Vector Byte 200,
      (∀ j : Fin 200, st.get j =
        s.sponge.st.get j ^^^ (if j.val = s.sponge.pt.toNat then suffix else 0) ^^^ (if j.val = 135 then 0x80 else 0)) ∧
      exec (.final suffix) s = .next { s with
        sponge := ⟨keccakF st, 0⟩
        phase := .squeezing
        err := .ok
        accept := false }

/-- R127, R128: SQUEEZE writes `N[ra]` bytes and moves the cursor; inside the rate window it emits the bytes at the cursor and changes
none; from a used-up window it permutes just before the first byte, and not at all for no byte. -/
def Obligations.SqueezeResult : Prop :=
  ∀ (s : State) (rd : BReg) (ra : NReg), s.phase = .squeezing → (s.readN ra).toNat ≤ bmax → s.sponge.pt.toNat ≤ 136 →
    let n := (s.readN ra).toNat
    let pt := s.sponge.pt.toNat
    ∃ (out : Bytes) (u : Sponge),
      exec (.squeeze rd ra) s = .next ({ s with sponge := u }.writeB rd out).complete ∧ out.length = n ∧
      u.pt.toNat = (if n = 0 then pt else (pt + n - 1) % 136 + 1) ∧
      (n = 0 → u = s.sponge) ∧
      (pt + n ≤ 136 → u.st = s.sponge.st ∧ ∀ j, j < n → out.getD j 0 = s.sponge.read (pt + j)) ∧
      (pt = 136 → 0 < n → n ≤ 136 →
        u.st = keccakF s.sponge.st ∧ ∀ j, j < n → out.getD j 0 = (keccakF s.sponge.st)[j]?.getD 0)

/-- The streaming laws, at the commands, which the spec itself derives from R122 and R127 (its R130): ABSORB of two strings one after the other is ABSORB of their concatenation; two SQUEEZEs continue one
stream. -/
def Obligations.SpongeStreams : Prop :=
  (∀ (s : State) (ra rb rc : BReg), s.phase = .ready ∨ s.phase = .absorbing → s.readB rc = s.readB ra ++ s.readB rb →
    execAll [.absorb ra, .absorb rb] s = exec (.absorb rc) s) ∧
  ∀ (s : State) (ra rb rc : NReg) (rd re rf : BReg), s.phase = .squeezing →
    (s.readN rc).toNat = (s.readN ra).toNat + (s.readN rb).toNat → (s.readN rc).toNat ≤ bmax → rd ≠ re →
    ∃ t u : State, execAll [.squeeze rd ra, .squeeze re rb] s = .next t ∧ exec (.squeeze rf rc) s = .next u ∧
      u.readB rf = t.readB rd ++ t.readB re ∧ u.sponge = t.sponge ∧ u.phase = t.phase

/-! ### Encodings and byte strings -/

/-- R140, R141, R144, R145: LENC and RENC write the least number `n` of big-endian bytes that hold the integer, with the byte `n`
before or after them. -/
def Obligations.LengthEncodings : Prop :=
  ∀ (s : State) (rd : BReg) (ra : NReg),
    ∃ (n : Nat) (v : Bytes), 1 ≤ n ∧ n ≤ 66 ∧ (s.readN ra).toNat < 256 ^ n ∧
      (∀ m, 1 ≤ m → (s.readN ra).toNat < 256 ^ m → n ≤ m) ∧ v.length = n ∧ int v = (s.readN ra).toNat ∧
      exec (.lenc rd ra) s = .next (s.writeB rd (BitVec.ofNat 8 n :: v)).complete ∧
      exec (.renc rd ra) s = .next (s.writeB rd (v ++ [BitVec.ofNat 8 n])).complete

/-- From R140, R141, R143, within R148's bound: each encoding can be cut off again whatever stands after or before it, so both are
injective (the spec's inference in R149); a padded string's length is a multiple of the width. -/
def Obligations.EncodingsUnambiguous : Prop :=
  (∀ (x y : Nat) (u v : Bytes), x < 2 ^ 2040 → y < 2 ^ 2040 → leftEncode x ++ u = leftEncode y ++ v → x = y ∧ u = v) ∧
  (∀ (x y : Nat) (u v : Bytes), x < 2 ^ 2040 → y < 2 ^ 2040 → u ++ rightEncode x = v ++ rightEncode y → x = y ∧ u = v) ∧
  ∀ (x : Bytes) (w : Nat), 0 < w → (bytepad x w).length % w = 0

/-- R142, R143, R146, R147: ENCSTR puts the length in bits before the string; BYTEPAD adds the fewest zero bytes that make the prefixed
string's length a multiple of the width; a width of 0, or a result that does not fit, is PARAM. -/
def Obligations.StringEncodings : Prop :=
  (∀ (s : State) (rd ra : BReg),
    let v := leftEncode (8 * (s.readB ra).length) ++ s.readB ra
    (v.length ≤ bmax → exec (.encstr rd ra) s = .next (s.writeB rd v).complete) ∧
    (bmax < v.length → exec (.encstr rd ra) s = .next (s.raise .param))) ∧
  ∀ (s : State) (rd ra : BReg) (rb : NReg),
    let w := (s.readN rb).toNat
    let z := leftEncode w ++ s.readB ra
    (w = 0 → exec (.bytepad rd ra rb) s = .next (s.raise .param)) ∧
    (0 < w → ∃ k, k < w ∧ w ∣ z.length + k ∧
      (z.length + k ≤ bmax → exec (.bytepad rd ra rb) s = .next (s.writeB rd (z ++ List.replicate k 0)).complete) ∧
      (bmax < z.length + k → exec (.bytepad rd ra rb) s = .next (s.raise .param)))

/-- R150, R151, R160, R161: BCAT, BXOR, NLI, BCLR, whichever registers coincide. -/
def Obligations.ByteStringUtilities : Prop :=
  (∀ (s : State) (rd ra rb : BReg), (s.readB ra).length + (s.readB rb).length ≤ bmax →
    exec (.bcat rd ra rb) s = .next (s.writeB rd (s.readB ra ++ s.readB rb)).complete) ∧
  (∀ (s : State) (rd ra rb : BReg), (s.readB ra).length = (s.readB rb).length →
    ∃ v : Bytes, v.length = (s.readB ra).length ∧
      (∀ j, j < v.length → v.getD j 0 = (s.readB ra).getD j 0 ^^^ (s.readB rb).getD j 0) ∧
      exec (.bxor rd ra rb) s = .next (s.writeB rd v).complete) ∧
  (∀ (s : State) (rd : NReg) (imm : BitVec 12),
    ∃ n : NWord, n.toNat = imm.toNat ∧ exec (.nli rd imm) s = .next (s.writeN rd n).complete) ∧
  ∀ (s : State) (rd : BReg), exec (.bclr rd) s = .next (s.writeB rd []).complete

/-- R155, R156: `int` is the big-endian magnitude, and B2I writes it when it fits. -/
def Obligations.B2iResult : Prop :=
  (∀ v : Bytes, int v = ∑ i ∈ Finset.range v.length, (v.getD i 0).toNat * 256 ^ (v.length - 1 - i)) ∧
  (∀ v : Bytes, int (0 :: v) = int v) ∧
  (∀ (s : State) (rd : NReg) (ra : BReg), int (s.readB ra) < 2 ^ 521 →
    ∃ n : NWord, n.toNat = int (s.readB ra) ∧ exec (.b2i rd ra) s = .next (s.writeN rd n).complete) ∧
  ∀ (s : State) (rd : NReg) (ra : BReg), 2 ^ 521 ≤ int (s.readB ra) → exec (.b2i rd ra) s = .next (s.raise .param)

/-- R158, R159: I2B writes at most 66 bytes of which the integer can be read back, whichever instance of the open parameter it is; B2I
after I2B returns the integer. -/
def Obligations.I2bResult : Prop :=
  ∀ (s : State) (rd : BReg) (ra : NReg),
    ∃ v : Bytes, v.length ≤ 66 ∧ int v = (s.readN ra).toNat ∧
      exec (.i2b rd ra) s = .next (s.writeB rd v).complete ∧
      ∀ re : NReg, execAll [.i2b rd ra, .b2i re rd] s = .next ((s.writeB rd v).writeN re (s.readN ra)).complete

/-! ### cSHAKE and KMACXOF -/

/-- R173, R174, R175: CSHAKE is the sponge over the padded prefix and the message, or plain SHAKE when both strings are empty. -/
def Obligations.CshakeResult : Prop :=
  ∀ s : State, s.phase = .idle → (s.readN NL).toNat % 8 = 0 → (s.readN NL).toNat / 8 ≤ bmax →
    let out :=
      if s.readB BN = [] ∧ s.readB BS = [] then spongeHash (s.readB BX) 0x1F ((s.readN NL).toNat / 8)
      else spongeHash (bytepad (encodeString (s.readB BN) ++ encodeString (s.readB BS)) 136 ++ s.readB BX) 0x04
        ((s.readN NL).toNat / 8)
    exec .cshake s = .next { s.writeB BO out with
      sponge := ⟨Vector.replicate 200 0, 0⟩
      phase := .idle
      err := .ok
      accept := false }

/-- R176, R177: KMACXOF is the sponge over the four pieces R176 writes out, with suffix 0x04. -/
def Obligations.KmacxofResult : Prop :=
  ∀ s : State, s.phase = .idle → (s.readN NL).toNat % 8 = 0 → (s.readN NL).toNat / 8 ≤ bmax →
    let out :=
      spongeHash (bytepad ([0x01, 0x20, 0x4B, 0x4D, 0x41, 0x43] ++ encodeString (s.readB BS)) 136 ++
        bytepad (encodeString (s.readB BK)) 136 ++ s.readB BX ++ [0x00, 0x01]) 0x04 ((s.readN NL).toNat / 8)
    exec .kmacxof s = .next { s.writeB BO out with
      sponge := ⟨Vector.replicate 200 0, 0⟩
      phase := .idle
      err := .ok
      accept := false }

/-- The spec's own inference at the end of R174, from R127: a longer output of CSHAKE or KMACXOF begins with the shorter one. -/
def Obligations.LongerOutputExtends : Prop :=
  ∀ (s : State) (i : Instr) (l : NWord), i = .cshake ∨ i = .kmacxof → s.phase = .idle → (s.readN NL).toNat % 8 = 0 →
    l.toNat % 8 = 0 → (s.readN NL).toNat ≤ l.toNat → l.toNat / 8 ≤ bmax →
    ∃ (t u : State) (v : Bytes), exec i s = .next t ∧ exec i (s.writeN NL l) = .next u ∧ u.readB BO = t.readB BO ++ v

/-- The law R178 asks a model to prove, which it marks as derived from R173, R176 and the command rules: CSHAKE with a name or a customization string, and KMACXOF, are the sequences of primitive commands R178 gives, up to the
scratch registers `B5`, `B6` and `B7`. `N3` holds the width, `N4` the output length in bytes, `N5` the 0 of the trailer. -/
def Obligations.CompositesFromPrimitives : Prop :=
  ∀ s : State, s.phase = .idle → (s.readN NL).toNat % 8 = 0 → (s.readN NL).toNat / 8 ≤ bmax → (s.readN 3).toNat = 136 →
    (s.readN 4).toNat = (s.readN NL).toNat / 8 →
    (s.readB BN ≠ [] ∨ s.readB BS ≠ [] →
      (bytepad (encodeString (s.readB BN) ++ encodeString (s.readB BS)) 136).length ≤ bmax →
      ∃ (u : State) (v5 v6 : Bytes), exec .cshake s = .next u ∧
        execAll [.encstr 5 BN, .encstr 6 BS, .bcat 5 5 6, .bytepad 5 5 3, .sinit, .absorb 5, .absorb BX, .final 0x04,
          .squeeze BO 4, .sdone] s = .next ((u.writeB 5 v5).writeB 6 v6)) ∧
    (s.readB BN = kmacName → (s.readN 5).toNat = 0 →
      (bytepad (encodeString (s.readB BN) ++ encodeString (s.readB BS)) 136).length ≤ bmax →
      (bytepad (encodeString (s.readB BK)) 136).length ≤ bmax →
      ∃ (u : State) (v5 v6 v7 : Bytes), exec .kmacxof s = .next u ∧
        execAll [.encstr 5 BN, .encstr 6 BS, .bcat 5 5 6, .bytepad 5 5 3, .encstr 6 BK, .bytepad 6 6 3, .renc 7 5, .sinit,
          .absorb 5, .absorb 6, .absorb BX, .absorb 7, .final 0x04, .squeeze BO 4, .sdone] s =
          .next (((u.writeB 5 v5).writeB 6 v6).writeB 7 v7))

/-! ### E521 -/

/-- R197, R200, R201, R205, R211, R212, R213: loading, negating and moving points, on the curve or not, whichever registers coincide; PGEN
loads the curve point with x-coordinate 4 and even y, which PFROMX finds too. -/
def Obligations.PointMoves : Prop :=
  ∀ s : State,
    (∀ rd : PReg, ∃ q : Point, q.x.val = 0 ∧ q.y.val = 1 ∧ exec (.pneut rd) s = .next (s.writeP rd q).complete) ∧
    (∀ rd : PReg, ∃ q : Point, q.x.val = 4 ∧ q.y.val % 2 = 0 ∧ onCurve q = true ∧
      exec (.pgen rd) s = .next (s.writeP rd q).complete ∧
      ∀ ra : NReg, s.readN ra = 4 → exec (.pfromx rd ra 0) s = exec (.pgen rd) s) ∧
    (∀ rd ra : PReg, ∃ q : Point, q.x.val = (fieldPrime - (s.readP ra).x.val) % fieldPrime ∧ q.y = (s.readP ra).y ∧
      exec (.pneg rd ra) s = .next (s.writeP rd q).complete) ∧
    (∀ (rd : NReg) (ra : PReg), ∃ n m : NWord, n.toNat = (s.readP ra).x.val ∧ m.toNat = (s.readP ra).y.val ∧
      exec (.pgetx rd ra) s = .next (s.writeN rd n).complete ∧ exec (.pgety rd ra) s = .next (s.writeN rd m).complete) ∧
    ∀ (rd : PReg) (ra rb : NReg), ∃ q : Point, q.x.val = (s.readN ra).toNat % fieldPrime ∧
      q.y.val = (s.readN rb).toNat % fieldPrime ∧ exec (.pset rd ra rb) s = .next (s.writeP rd q).complete

/-- R202, R203: PFROMX finds the point of the curve with that x-coordinate and that parity when there is one, and otherwise raises
INVALID_POINT and writes nothing. -/
def Obligations.PfromxResult : Prop :=
  ∀ (s : State) (rd : PReg) (ra : NReg) (lsb : BitVec 1) (x : Fe), x.val = (s.readN ra).toNat % fieldPrime →
    (∀ y : Fe, onCurve ⟨x, y⟩ = true → y.val % 2 = lsb.toNat →
      exec (.pfromx rd ra lsb) s = .next (s.writeP rd ⟨x, y⟩).complete) ∧
    ((∀ y : Fe, onCurve ⟨x, y⟩ = true → y.val % 2 ≠ lsb.toNat) →
      exec (.pfromx rd ra lsb) s = .next (s.raise .invalidPoint))

/-- R206, R207, R208: PADD writes the quotients of the addition law, or raises DIV_ZERO exactly when a denominator is 0; the operands
need not be on the curve. -/
def Obligations.PaddResult : Prop :=
  ∀ (s : State) (rd ra rb : PReg),
    let x1 := (s.readP ra).x
    let y1 := (s.readP ra).y
    let x2 := (s.readP rb).x
    let y2 := (s.readP rb).y
    let t := curveD * x1 * x2 * y1 * y2
    ((fe 1 + t).val ≠ 0 → (fe 1 - t).val ≠ 0 →
      ∃ q : Point, q.x * (fe 1 + t) = x1 * y2 + y1 * x2 ∧ q.y * (fe 1 - t) = y1 * y2 - x1 * x2 ∧
        exec (.padd rd ra rb) s = .next (s.writeP rd q).complete) ∧
    ((fe 1 + t).val = 0 ∨ (fe 1 - t).val = 0 → exec (.padd rd ra rb) s = .next (s.raise .divZero))

/-- R193: the addition law is complete: on the curve PADD never raises, and its result is on the curve. -/
def Obligations.AdditionIsComplete : Prop :=
  ∀ (s : State) (rd ra rb : PReg), onCurve (s.readP ra) = true → onCurve (s.readP rb) = true →
    ∃ q : Point, onCurve q = true ∧ exec (.padd rd ra rb) s = .next (s.writeP rd q).complete

/-- PADD as a group operation, from R204 and R207: commutative and with neutral element `(0, 1)` for all pairs (the latter is the spec's
inference in R194); on the curve PNEG gives the inverse (its inference in R204) and PADD is associative, which R214's law needs. That the
addition is associative R207 marks as general knowledge, not in its source: here it is to be proved from the formulas. The clause needs
`rd ≠ ra` and `rd ≠ rc`: the first PADD of each sequence would overwrite an operand of the second. -/
def Obligations.GroupLaws : Prop :=
  (∀ (s : State) (rd ra rb : PReg), exec (.padd rd ra rb) s = exec (.padd rd rb ra) s) ∧
  (∀ (s : State) (rd ra rb : PReg), s.readP rb = neutral →
    exec (.padd rd ra rb) s = .next (s.writeP rd (s.readP ra)).complete) ∧
  (∀ (s : State) (ra rb : PReg), onCurve (s.readP ra) = true → ra ≠ rb →
    execAll [.pneg rb ra, .padd rb ra rb] s = .next (s.writeP rb neutral).complete) ∧
  ∀ (s : State) (rd ra rb rc : PReg), onCurve (s.readP ra) = true → onCurve (s.readP rb) = true → onCurve (s.readP rc) = true →
    rd ≠ ra → rd ≠ rc → ∃ q : Point, onCurve q = true ∧
      execAll [.padd rd ra rb, .padd rd rd rc] s = .next (s.writeP rd q).complete ∧
      execAll [.padd rd rb rc, .padd rd ra rd] s = .next (s.writeP rd q).complete

/-- The points of small order, which the spec finds by executing R207 (its R195): on the curve, orders 1, 2, 4 and 4, and every
multiple of 4 sends them to `(0, 1)`. -/
def Obligations.SmallOrderPoints : Prop :=
  let o : Point := ⟨fe 0, fe 1⟩
  let h : Point := ⟨fe 0, fe (fieldPrime - 1)⟩
  let e : Point := ⟨fe 1, fe 0⟩
  let w : Point := ⟨fe (fieldPrime - 1), fe 0⟩
  (∀ q ∈ [o, h, e, w], onCurve q = true) ∧ padd h h = some o ∧ padd e e = some h ∧ padd w w = some h ∧ padd e h = some w ∧
    ∀ q ∈ [o, h, e, w], ∀ k : Nat, pscale (4 * k) q = some o

/-- R206, R209, R210: `scale` is R209's loop for every scalar and every pair, on the curve or not: it answers the accumulator after the
last turn when no addition of the loop meets a zero denominator, and nothing when one does. PSCALE writes that answer, or raises DIV_ZERO
when there is none: off the curve that may happen for a scalar of 1 too, where the loop is followed and not a sentence of R214 (log 25). A
scalar of 0 gives `(0, 1)` for every pair; on the curve PSCALE never raises, its result is on the curve, and a scalar of 1 gives the point
itself. -/
def Obligations.PscaleResult : Prop :=
  (∀ (k : Nat) (p : Point),
    (∀ (n : Nat) (acc addend : Nat → Point), ScaleRun k p n acc addend → pscale k p = some (acc n)) ∧
    ((∀ (n : Nat) (acc addend : Nat → Point), ¬ ScaleRun k p n acc addend) → pscale k p = none)) ∧
  ∀ (s : State) (rd : PReg) (ra : NReg) (rb : PReg),
    (∀ q : Point, pscale (s.readN ra).toNat (s.readP rb) = some q →
      exec (.pscale rd ra rb) s = .next (s.writeP rd q).complete) ∧
    (pscale (s.readN ra).toNat (s.readP rb) = none → exec (.pscale rd ra rb) s = .next (s.raise .divZero)) ∧
    (s.readN ra = 0 → exec (.pscale rd ra rb) s = .next (s.writeP rd neutral).complete) ∧
    (onCurve (s.readP rb) = true →
      ∃ q : Point, onCurve q = true ∧ exec (.pscale rd ra rb) s = .next (s.writeP rd q).complete ∧
        (s.readN ra = 1 → q = s.readP rb))

/-- The document's property in R214, which needs the group law: on the curve PSCALE by a sum of scalars is the PADD of the two multiples.
And `r·G = (0, 1)`, which R190 marks as derived by execution; that no smaller multiple of `G` is `(0, 1)` is not said here. -/
def Obligations.ScaleIsGroupMultiple : Prop :=
  (∀ (s : State) (ra rb rc : NReg) (rd re rf rp : PReg), onCurve (s.readP rp) = true →
    (s.readN rc).toNat = (s.readN ra).toNat + (s.readN rb).toNat → rd ≠ rp → rd ≠ re →
    ∃ (t : State) (q : Point), execAll [.pscale rd ra rp, .pscale re rb rp, .padd rf rd re] s = .next t ∧ t.err = .ok ∧
      t.readP rf = q ∧ exec (.pscale rf rc rp) s = .next (s.writeP rf q).complete) ∧
  ∀ (s : State) (rd : PReg) (ra : NReg) (rb : PReg), (s.readN ra).toNat = groupOrder → s.readP rb = basePoint →
    exec (.pscale rd ra rb) s = .next (s.writeP rd neutral).complete

/-! ### The protocol commands -/

/-- R230, R236: KEYGEN in IDLE: the scalar is 4 times the digest's magnitude, below 2^514, and the public key its multiple of `G`, on
the curve. -/
def Obligations.KeygenResult : Prop :=
  ∀ s : State, s.phase = .idle →
    ∃ (n : NWord) (v : Point), n.toNat = 4 * int (kmacxof (s.readB BK) [] 512 [0x4B]) ∧ n.toNat < 2 ^ 514 ∧
      pscale n.toNat basePoint = some v ∧ onCurve v = true ∧
      exec .keygen s = .next ((s.writeN NS n).writeP PV v).destroySponge.complete

/-- R232, R234, R238: SYMENC in IDLE, for every draw. -/
def Obligations.SymencResult : Prop :=
  ∀ s : State, s.phase = .idle →
    let z := s.nextDraw
    let keka := kmacxof (z ++ s.readB BK) [] 1024 [0x53]
    let stream := kmacxof (keka.take 64) [] (8 * (s.readB BX).length) [0x53, 0x4B, 0x45]
    let tag := kmacxof (keka.drop 64) (s.readB BX) 512 [0x53, 0x4B, 0x41]
    ∃ c : Bytes, z.length = 64 ∧ c.length = (s.readB BX).length ∧
      (∀ j, j < c.length → c.getD j 0 = stream.getD j 0 ^^^ (s.readB BX).getD j 0) ∧ tag.length = 64 ∧
      exec .symenc s = .next (((s.takeDraw.writeB BZ z).writeB BO c).writeB BT tag).destroySponge.complete

/-- R232, R234, R239, R265: SYMDEC in IDLE accepts exactly when the recomputed tag is `BT`, and withholds the plaintext otherwise. -/
def Obligations.SymdecResult : Prop :=
  ∀ s : State, s.phase = .idle →
    let keka := kmacxof (s.readB BZ ++ s.readB BK) [] 1024 [0x53]
    let stream := kmacxof (keka.take 64) [] (8 * (s.readB BO).length) [0x53, 0x4B, 0x45]
    ∃ m : Bytes, m.length = (s.readB BO).length ∧
      (∀ j, j < m.length → m.getD j 0 = stream.getD j 0 ^^^ (s.readB BO).getD j 0) ∧
      (kmacxof (keka.drop 64) m 512 [0x53, 0x4B, 0x41] = s.readB BT →
        exec .symdec s = .next (s.destroySponge.writeB BX m).accepted) ∧
      (kmacxof (keka.drop 64) m 512 [0x53, 0x4B, 0x41] ≠ s.readB BT →
        exec .symdec s = .next ((s.destroySponge.writeB BX []).raise .authFail))

/-- R206, R235, R241: ASYMENC in IDLE, for every draw, to every public key whose multiple meets no zero denominator, on the curve or not
(D20), and on the curve that multiple exists; where it meets one, DIV_ZERO, and the draw is lost. What `pscale` answers is
`PscaleResult`. -/
def Obligations.AsymencResult : Prop :=
  ∀ s : State, s.phase = .idle →
    let k := 4 * int s.nextDraw
    (onCurve (s.readP PV) = true → ∃ w : Point, onCurve w = true ∧ pscale k (s.readP PV) = some w) ∧
    (∀ w : Point, pscale k (s.readP PV) = some w →
      ∃ (z : Point) (wx : NWord) (c : Bytes), pscale k basePoint = some z ∧ onCurve z = true ∧ wx.toNat = w.x.val ∧
        (let keka := kmacxof (i2b wx) [] 1024 [0x50]
         let stream := kmacxof (keka.take 64) [] (8 * (s.readB BX).length) [0x50, 0x4B, 0x45]
         let tag := kmacxof (keka.drop 64) (s.readB BX) 512 [0x50, 0x4B, 0x41]
         c.length = (s.readB BX).length ∧
         (∀ j, j < c.length → c.getD j 0 = stream.getD j 0 ^^^ (s.readB BX).getD j 0) ∧
         exec .asymenc s = .next (((s.takeDraw.writeP PZ z).writeB BO c).writeB BT tag).destroySponge.complete)) ∧
    (pscale k (s.readP PV) = none → exec .asymenc s = .next (s.takeDraw.raise .divZero))

/-- R206, R242, R265: ASYMDEC in IDLE, from every ephemeral point whose multiple meets no zero denominator, on the curve or not (D20),
accepts exactly when the recomputed tag is `BT`, and on the curve that multiple exists; where it meets one, DIV_ZERO. What `pscale`
answers is `PscaleResult`. -/
def Obligations.AsymdecResult : Prop :=
  ∀ s : State, s.phase = .idle →
    (onCurve (s.readP PZ) = true → ∃ w : Point, onCurve w = true ∧ pscale (s.readN NS).toNat (s.readP PZ) = some w) ∧
    (∀ w : Point, pscale (s.readN NS).toNat (s.readP PZ) = some w →
      ∃ (wx : NWord) (m : Bytes), wx.toNat = w.x.val ∧
        (let keka := kmacxof (i2b wx) [] 1024 [0x50]
         let stream := kmacxof (keka.take 64) [] (8 * (s.readB BO).length) [0x50, 0x4B, 0x45]
         m.length = (s.readB BO).length ∧
         (∀ j, j < m.length → m.getD j 0 = stream.getD j 0 ^^^ (s.readB BO).getD j 0) ∧
         (kmacxof (keka.drop 64) m 512 [0x50, 0x4B, 0x41] = s.readB BT →
           exec .asymdec s = .next (s.destroySponge.writeB BX m).accepted) ∧
         (kmacxof (keka.drop 64) m 512 [0x50, 0x4B, 0x41] ≠ s.readB BT →
           exec .asymdec s = .next ((s.destroySponge.writeB BX []).raise .authFail)))) ∧
    (pscale (s.readN NS).toNat (s.readP PZ) = none → exec .asymdec s = .next (s.raise .divZero))

/-- R244: SIGN in IDLE: the digest, and the response as the residue modulo `r`. -/
def Obligations.SignResult : Prop :=
  ∀ s : State, s.phase = .idle →
    ∃ (secret ux z : NWord) (u : Point),
      secret.toNat = 4 * int (kmacxof (s.readB BK) [] 512 [0x4B]) ∧
      (let k := 4 * int (kmacxof (i2b secret) (s.readB BX) 512 [0x4E])
       let digest := kmacxof (i2b ux) (s.readB BX) 512 [0x54]
       pscale k basePoint = some u ∧ ux.toNat = u.x.val ∧ digest.length = 64 ∧ z.toNat < groupOrder ∧
       (z.toNat + int digest * secret.toNat) % groupOrder = k % groupOrder ∧
       exec .sign s = .next ((s.writeB BH digest).writeN NZ z).destroySponge.complete)

/-- R206, R245: VERIFY in IDLE: a `BH` of value 2^521 or more is rejected; otherwise, for every public key for which neither the multiple
nor the sum meets a zero denominator, on the curve or not (D20), it accepts exactly when the recomputed digest is `BH`, and on the curve
both exist; where one meets a zero denominator, DIV_ZERO. What `pscale` and `padd` answer are `PscaleResult` and `PaddResult`. -/
def Obligations.VerifyResult : Prop :=
  ∀ s : State, s.phase = .idle →
    (2 ^ 521 ≤ int (s.readB BH) → exec .verify s = .next (s.destroySponge.raise .authFail)) ∧
    (int (s.readB BH) < 2 ^ 521 →
      ∃ a : Point, onCurve a = true ∧ pscale (s.readN NZ).toNat basePoint = some a ∧
        (onCurve (s.readP PV) = true →
          ∃ b u : Point, pscale (int (s.readB BH)) (s.readP PV) = some b ∧ padd a b = some u ∧ onCurve u = true) ∧
        (∀ b u : Point, pscale (int (s.readB BH)) (s.readP PV) = some b → padd a b = some u →
          ∃ ux : NWord, ux.toNat = u.x.val ∧
            (kmacxof (i2b ux) (s.readB BX) 512 [0x54] = s.readB BH → exec .verify s = .next s.destroySponge.accepted) ∧
            (kmacxof (i2b ux) (s.readB BX) 512 [0x54] ≠ s.readB BH →
              exec .verify s = .next (s.destroySponge.raise .authFail))) ∧
        (pscale (int (s.readB BH)) (s.readP PV) = none → exec .verify s = .next (s.raise .divZero)) ∧
        ∀ b : Point, pscale (int (s.readB BH)) (s.readP PV) = some b → padd a b = none →
          exec .verify s = .next (s.raise .divZero))

/-- R247, in IDLE, the phase these commands run in: a tag or digest that is not 64 bytes long is rejected, and no other condition is
raised for it. SYMDEC needs nothing else; ASYMDEC and VERIFY first compute their point, which is to exist (else DIV_ZERO, R206, the same
for every tag and digest); for a digest of value `2^521` or more VERIFY computes none (R245). -/
def Obligations.WrongLengthRejected : Prop :=
  ∀ s : State, s.phase = .idle →
    ((s.readB BT).length ≠ 64 → exec .symdec s = .next ((s.destroySponge.writeB BX []).raise .authFail)) ∧
    (∀ w : Point, (s.readB BT).length ≠ 64 → pscale (s.readN NS).toNat (s.readP PZ) = some w →
      exec .asymdec s = .next ((s.destroySponge.writeB BX []).raise .authFail)) ∧
    (∀ u : Point, (s.readB BH).length ≠ 64 →
      2 ^ 521 ≤ int (s.readB BH) ∨ verifyPoint (s.readN NZ).toNat (int (s.readB BH)) (s.readP PV) = some u →
      exec .verify s = .next (s.destroySponge.raise .authFail)) ∧
    ∀ u : Point, verifyPoint (s.readN NZ).toNat (int (s.readB BH)) (s.readP PV) = some u ↔
      ∃ a b : Point, pscale (s.readN NZ).toNat basePoint = some a ∧ pscale (int (s.readB BH)) (s.readP PV) = some b ∧
        padd a b = some u

/-- R246 a: decryption with the same password gives the message back, for every draw. -/
def Obligations.SymmetricRoundTrip : Prop :=
  ∀ s : State, s.phase = .idle →
    ∃ t : State, execAll [.symenc, .bclr BX, .symdec] s = .next t ∧ t.readB BX = s.readB BX ∧ t.accept = true ∧ t.err = .ok

/-- R246 b: decryption with the private scalar of the same key pair gives the message back, for every draw. -/
def Obligations.AsymmetricRoundTrip : Prop :=
  ∀ s : State, s.phase = .idle →
    ∃ t : State, execAll [.keygen, .asymenc, .bclr BX, .asymdec] s = .next t ∧ t.readB BX = s.readB BX ∧ t.accept = true ∧
      t.err = .ok

/-- R246 c: a genuine signature verifies under the key pair of the same password. -/
def Obligations.SignatureVerifies : Prop :=
  ∀ s : State, s.phase = .idle →
    ∃ t : State, execAll [.keygen, .sign, .verify] s = .next t ∧ t.accept = true ∧ t.err = .ok

/-! ### The whole machine -/

/-- From R120, R262, R265 and R266: every command answers; in a phase the table does not allow it raises SEQ and changes nothing but
`STATUS`; in a phase the table allows it does not raise SEQ, and it leaves the phase the table gives when it ends with OK or AUTH_FAIL and
the phase it found when it raises. -/
def Obligations.PhaseTable : Prop :=
  ∀ (i : Instr) (s : State), i.wf = true →
    ∃ t : State, exec i s = .next t ∧
      (i.allowedIn s.phase = false → t = { s with
        err := .seq
        accept := false }) ∧
      (i.allowedIn s.phase = true → t.err ≠ .seq ∧
        t.phase = if t.err = .ok ∨ t.err = .authFail then i.phaseAfter s.phase else s.phase)

/-- From R263's list and R268's order of checks: a command raises PARAM exactly for the operand values of the list, in a phase that allows
it, and then changes nothing but `STATUS`. -/
def Obligations.ParamList : Prop :=
  ∀ (i : Instr) (s t : State), i.wf = true → exec i s = .next t →
    (t.err = .param ↔ i.allowedIn s.phase = true ∧ i.badOperand s) ∧
    (t.err = .param → t = { s with
      err := .param
      accept := false })

/-- R266: a command that raises (ILLEGAL is KROUND's as syntax, log 15) changes nothing but `STATUS`, the draw ASYMENC has taken apart; AUTH_FAIL leaves the sponge unit
destroyed, and `BX` empty for the two decryptions. -/
def Obligations.FailureLeavesState : Prop :=
  ∀ (i : Instr) (s t : State), exec i s = .next t →
    (t.err = .illegal ∨ t.err = .seq ∨ t.err = .param ∨ t.err = .invalidPoint ∨ t.err = .divZero →
      t = { s with
        err := t.err
        accept := false } ∨
      i = .asymenc ∧ t = { s.takeDraw with
        err := .divZero
        accept := false }) ∧
    (t.err = .authFail →
      i = .verify ∧ t = { s with
        sponge := ⟨Vector.replicate 200 0, 0⟩
        phase := .idle
        err := .authFail
        accept := false } ∨
      (i = .symdec ∨ i = .asymdec) ∧ t = { s.writeB BX [] with
        sponge := ⟨Vector.replicate 200 0, 0⟩
        phase := .idle
        err := .authFail
        accept := false })

/-- R34, R35: `ACCEPT` is 1 only after SYMDEC, ASYMDEC or VERIFY that ended normally, and then it is; no command reads `ERR` or
`ACCEPT`. -/
def Obligations.AcceptFlag : Prop :=
  ∀ (i : Instr) (s t : State), exec i s = .next t →
    (t.accept = true ↔ (i = .symdec ∨ i = .asymdec ∨ i = .verify) ∧ t.err = .ok) ∧
    ∀ (e : Condition) (a : Bool), exec i { s with
      err := e
      accept := a } = .next t

/-- R42, R235: the frame of every command. R42 marks its table as the spec's own inference from the command rules of files 41 to 46. -/
def Obligations.CommandFrames : Prop := ∀ (i : Instr) (s t : State), exec i s = .next t → State.Frame i s t

/-- R170: a composite command that ends without raising leaves the sponge unit destroyed, and what the unit held before has no
influence on it. -/
def Obligations.CompositeOwnsFreshUnit : Prop :=
  ∀ (i : Instr) (s t : State) (u : Sponge), i.isComposite = true → s.phase = .idle → exec i s = .next t →
    t.err = .ok ∨ t.err = .authFail →
    t.sponge = ⟨Vector.replicate 200 0, 0⟩ ∧ t.phase = .idle ∧ exec i { s with sponge := u } = .next t

/-- R23, R25, R26, R27: every step keeps the invariant. That the cursor is 0 in IDLE, one clause of it, is deduced (log 26). -/
def Obligations.StepKeepsInvariant : Prop := ∀ s t : State, s.Inv → step s = .next t → t.Inv

/-- R41: the invariant holds after reset. -/
def Obligations.ResetHasInvariant : Prop := State.reset.Inv

/-- R274: `SDONE`, `BCLR B0..B7`, `NLI N0..N7, 0`, `PNEUT P0..P3` leave the reset state, from every state. -/
def Obligations.ResetByCommands : Prop :=
  ∀ s : State,
    execAll ([.sdone] ++ (List.finRange 8).map .bclr ++ (List.finRange 8).map (.nli · 0) ++ (List.finRange 4).map .pneut) s =
      .next { State.reset with
        pending := s.pending
        replies := s.replies
        entropy := s.entropy
        draws := s.draws }

/-- R78: what the pseudo-commands do: PMOV copies a point and overwrites `N6` and `N7`, NCLR loads zero, PDBL doubles, SHAKE256 is
plain SHAKE of `BX`, and the two FINAL spellings are the two suffixes. -/
def Obligations.PseudoCommands : Prop :=
  ∀ s : State,
    (∀ rd ra : PReg, ∃ x y : NWord, x.toNat = (s.readP ra).x.val ∧ y.toNat = (s.readP ra).y.val ∧
      execAll (expandPmov rd ra) s = .next (((s.writeN 7 x).writeN 6 y).writeP rd (s.readP ra)).complete) ∧
    (∀ rd : NReg, execAll (expandNclr rd) s = .next (s.writeN rd 0).complete) ∧
    (∀ rd ra : PReg, execAll (expandPdbl rd ra) s = exec (.padd rd ra ra) s) ∧
    (s.phase = .idle → (s.readN NL).toNat % 8 = 0 → (s.readN NL).toNat / 8 ≤ bmax →
      execAll expandShake256 s =
        .next (((s.writeB BN []).writeB BS []).writeB BO
          (spongeHash (s.readB BX) 0x1F ((s.readN NL).toNat / 8))).destroySponge.complete) ∧
    execAll expandFinalShake s = exec (.final 0x1F) s ∧ execAll expandFinalCshake s = exec (.final 0x04) s

end Statements
end

