-- ==== Sys2Proof/Laws/Ops.lean ====
section
/-! SUPPORT. What the operations on numbers, byte strings, the open parameters and the sponge state's bytes do. -/

namespace Sys2Proof.Machine

/-! ### BMAX -/

theorem bmax_ge : 200 ≤ bmax := by unfold bmax; omega

theorem bmax_lt : bmax < 2 ^ 2037 := by
  unfold bmax
  have h : (200 : Nat) < 2 ^ 2037 := by decide +kernel
  omega

/-! ### Numbers and byte strings -/

theorem bitlen_zero : bitlen 0 = 0 := rfl

theorem lt_two_pow_bitlen (x : Nat) : x < 2 ^ bitlen x := by
  unfold bitlen
  split
  · omega
  · exact Nat.lt_log2_self

theorem two_pow_le_of_bitlen {x : Nat} (h : x ≠ 0) : 2 ^ (bitlen x - 1) ≤ x := by
  unfold bitlen
  simpa [h] using Nat.log2_self_le h

theorem bitlen_le_iff (x k : Nat) : bitlen x ≤ k ↔ x < 2 ^ k := by
  constructor
  · intro h
    exact Nat.lt_of_lt_of_le (lt_two_pow_bitlen x) (Nat.pow_le_pow_right (by omega) h)
  · intro h
    by_contra hk
    have hx : x ≠ 0 := by rintro rfl; simp [bitlen] at hk
    have h1 := two_pow_le_of_bitlen hx
    have h2 : 2 ^ k ≤ 2 ^ (bitlen x - 1) := Nat.pow_le_pow_right (by omega) (by omega)
    omega

theorem bitlen_div_two (x : Nat) : bitlen (x / 2) = bitlen x - 1 := by
  apply Nat.le_antisymm
  · rw [bitlen_le_iff]
    have h := lt_two_pow_bitlen x
    rcases Nat.eq_zero_or_pos (bitlen x) with h0 | h0
    · rw [h0] at h; simp at h; simp [h]
    · have : 2 ^ bitlen x = 2 ^ (bitlen x - 1) * 2 := by rw [← pow_succ]; congr 1; omega
      omega
  · have h := (bitlen_le_iff (x / 2) (bitlen (x / 2))).mp (Nat.le_refl _)
    have : bitlen x ≤ bitlen (x / 2) + 1 := by
      rw [bitlen_le_iff, pow_succ]; omega
    omega

theorem int_foldl (v : Bytes) (acc : Nat) :
    v.foldl (fun a byte => a * 256 + byte.toNat) acc = acc * 256 ^ v.length + int v := by
  induction v generalizing acc with
  | nil => simp [int]
  | cons c v ih =>
    simp only [List.foldl_cons, int, List.length_cons] at *
    rw [ih, ih (0 * 256 + c.toNat), pow_succ]
    ring

@[simp] theorem int_nil : int [] = 0 := rfl

theorem int_append (u v : Bytes) : int (u ++ v) = int u * 256 ^ v.length + int v := by
  unfold int
  rw [List.foldl_append, int_foldl]
  rfl

theorem int_lt (v : Bytes) : int v < 256 ^ v.length := by
  induction v using List.reverseRecOn with
  | nil => simp
  | append_singleton v c ih =>
    rw [int_append]
    have := c.isLt
    have h1 : int [c] = c.toNat := by simp [int]
    simp only [h1, List.length_append, List.length_cons, List.length_nil, pow_succ, pow_zero]
    omega

@[simp] theorem length_bigEndian (n x : Nat) : (bigEndian n x).length = n := by
  induction n generalizing x with
  | zero => rfl
  | succ n ih => simp [bigEndian, ih]

theorem int_bigEndian {n x : Nat} (h : x < 256 ^ n) : int (bigEndian n x) = x := by
  induction n generalizing x with
  | zero => simp at h; simp [bigEndian, h]
  | succ n ih =>
    rw [bigEndian, int_append, ih (by rw [pow_succ] at h; omega)]
    simp [int]
    omega

/-- A byte string is determined by its length and its value. -/
theorem eq_of_int_eq {u v : Bytes} (hl : u.length = v.length) (hi : int u = int v) : u = v := by
  induction u using List.reverseRecOn generalizing v with
  | nil => exact (List.length_eq_zero_iff.mp hl.symm).symm
  | append_singleton u c ih =>
    rcases List.eq_nil_or_concat v with rfl | ⟨v, d, rfl⟩
    · simp at hl
    · simp only [List.concat_eq_append] at *
      rw [int_append, int_append] at hi
      have hc := c.isLt
      have hd := d.isLt
      simp only [int, List.length_cons, List.length_nil, List.foldl_cons, List.foldl_nil] at hi
      have h1 : c.toNat = d.toNat := by omega
      have h2 : int u = int v := by unfold int; omega
      rw [ih (by simpa using hl) h2, BitVec.eq_of_toNat_eq h1]

@[simp] theorem length_xorBytes (a b : Bytes) : (xorBytes a b).length = min a.length b.length := by
  simp [xorBytes]

/-- XORing the same string twice gives the other back. -/
theorem xorBytes_cancel (a b : Bytes) (h : a.length = b.length) : xorBytes a (xorBytes a b) = b := by
  induction a generalizing b with
  | nil => exact (List.length_eq_zero_iff.mp h.symm).symm
  | cons x a ih =>
    cases b with
    | nil => simp at h
    | cons y b =>
      have := ih b (by simpa using h)
      simp only [xorBytes] at this
      simp only [xorBytes, List.zipWith_cons_cons, List.cons.injEq, this, and_true]
      rw [← BitVec.xor_assoc]; simp

/-! ### I2B -/

theorem i2bLaw_iff (v : Bytes) (n : NWord) : i2bLaw v n = true ↔ v.length ≤ 66 ∧ int v = n.toNat := by
  simp [i2bLaw]

set_option exponentiation.threshold 600 in
theorem i2bLaw_default (n : NWord) : i2bLaw (i2bDefault n) n = true := by
  rw [i2bLaw_iff]
  have hb : bitlen n.toNat ≤ 521 := (bitlen_le_iff _ _).mpr n.isLt
  refine ⟨by simp [i2bDefault]; omega, ?_⟩
  unfold i2bDefault
  apply int_bigEndian
  refine Nat.lt_of_lt_of_le (lt_two_pow_bitlen _) ?_
  rw [show (256 : Nat) = 2 ^ 8 from rfl, ← pow_mul]
  exact Nat.pow_le_pow_right (by omega) (by omega)

/-- The law of R158, which every instance of the open parameter satisfies. -/
theorem i2b_law (n : NWord) : (i2b n).length ≤ 66 ∧ int (i2b n) = n.toNat := by
  rw [← i2bLaw_iff]
  unfold i2b
  split
  · assumption
  · exact i2bLaw_default n

theorem i2b_injective {m n : NWord} (h : i2b m = i2b n) : m = n := by
  apply BitVec.eq_of_toNat_eq
  rw [← (i2b_law m).2, ← (i2b_law n).2, h]

/-! ### The sponge state's bytes -/

theorem Sponge.read_lt (u : Sponge) {a : Nat} (h : a < 200) : u.read a = u.st[a] := by
  simp [Sponge.read, h]

theorem Sponge.read_ge (u : Sponge) {a : Nat} (h : 200 ≤ a) : u.read a = 0 := by
  simp [Sponge.read, h]

@[simp] theorem Sponge.xorAt_pt (u : Sponge) (a : Nat) (c : Byte) : (u.xorAt a c).pt = u.pt := rfl

/-- What XORing a byte in does to every byte of the state: the one addressed changes, no other does. -/
theorem Sponge.read_xorAt (u : Sponge) (a j : Nat) (c : Byte) (ha : a < 200) :
    (u.xorAt a c).read j = if j = a then u.read j ^^^ c else u.read j := by
  by_cases hj : j < 200
  · simp only [Sponge.read, Sponge.xorAt, hj, Vector.getElem?_eq_getElem, Vector.getElem_setIfInBounds, Option.getD_some]
    by_cases h : j = a
    · subst h; simp [hj]
    · simp [h, Ne.symm h]
  · have h1 : ¬ j = a := by omega
    simp [Sponge.read, h1, hj]

theorem Sponge.st_eq_of_read {u v : Sponge} (h : ∀ j, j < 200 → u.read j = v.read j) : u.st = v.st := by
  ext j hj
  have := h j hj
  rw [Sponge.read_lt u hj, Sponge.read_lt v hj] at this
  rw [this]

@[simp] theorem Sponge.length_bytes (u : Sponge) : u.bytes.length = 200 := by simp [Sponge.bytes]

@[simp] theorem Sponge.load_pt (u : Sponge) (v : Bytes) : (u.load v).pt = u.pt := by
  unfold Sponge.load; rfl

theorem Sponge.read_load (u : Sponge) (v : Bytes) {j : Nat} (hj : j < 200) : (u.load v).read j = v.getD j 0 := by
  rw [Sponge.read_lt _ hj]; simp [Sponge.load]

theorem Sponge.load_bytes (u : Sponge) : u.load u.bytes = u := by
  have : (u.load u.bytes).st = u.st := by
    apply Sponge.st_eq_of_read
    intro j hj
    rw [Sponge.read_load _ _ hj, Sponge.read_lt _ hj]
    simp [Sponge.bytes, hj]
  cases u; simp [Sponge.load] at this ⊢; exact this

theorem Sponge.bytes_load (u : Sponge) (v : Bytes) (h : v.length = 200) : (u.load v).bytes = v := by
  apply List.ext_getElem
  · simp [h]
  · intro j h1 h2
    simp [Sponge.bytes, Sponge.load, h2]

@[simp] theorem Sponge.read_zero (j : Nat) : Sponge.zero.read j = 0 := by
  simp only [Sponge.read, Sponge.zero, Vector.getElem?_replicate]
  split <;> rfl

/-! ### Entropy -/

@[simp] theorem State.length_nextDraw (s : State) : s.nextDraw.length = 64 := by
  unfold State.nextDraw; split <;> simp

end Sys2Proof.Machine
end

