-- ==== Sys2Proof/Laws/Field.lean ====
section
/-! SUPPORT. Field elements are the integers modulo the prime `p` (spec/45_e521.md R190, R191): `feZ` carries them to Mathlib's `ZMod`, where
the field operations, powers and inverses are the mathematical ones. -/

namespace Sys2Proof.Machine

theorem fieldPrime_eq : fieldPrime = 2 ^ 521 - 1 := by decide +kernel

/-- `p` is prime (R190), by the Lucas-Lehmer test. -/
theorem fieldPrime_prime : fieldPrime.Prime := by
  have h : (mersenne 521).Prime := lucas_lehmer_sufficiency _ (by norm_num) (by norm_num)
  have e : fieldPrime = mersenne 521 := by decide +kernel
  rw [e]; exact h

theorem fieldPrime_pos : 0 < fieldPrime := by decide

/-- A field element as an integer modulo `p`. -/
def feZ (a : Fe) : ZMod fieldPrime := (a.val : ZMod fieldPrime)

theorem feZ_injective {a b : Fe} (h : feZ a = feZ b) : a = b := by
  have := (ZMod.natCast_eq_natCast_iff' _ _ _).mp h
  rw [Nat.mod_eq_of_lt a.isLt, Nat.mod_eq_of_lt b.isLt] at this
  exact Fin.ext this

theorem feZ_inj {a b : Fe} : feZ a = feZ b ↔ a = b := ⟨feZ_injective, fun h => h ▸ rfl⟩

@[simp] theorem feZ_fe (n : Nat) : feZ (fe n) = n := by simp [feZ, fe]

@[simp] theorem feZ_add (a b : Fe) : feZ (a + b) = feZ a + feZ b := by simp [feZ, Fin.val_add]

@[simp] theorem feZ_mul (a b : Fe) : feZ (a * b) = feZ a * feZ b := by simp [feZ, Fin.val_mul]

@[simp] theorem feZ_sub (a b : Fe) : feZ (a - b) = feZ a - feZ b := by
  have hb := b.isLt
  simp only [feZ, Fin.sub_def, ZMod.natCast_mod, Nat.cast_add, Nat.cast_sub hb.le, ZMod.natCast_self]
  ring

theorem val_eq_zero_iff (a : Fe) : a.val = 0 ↔ feZ a = 0 := by
  rw [show (0 : ZMod fieldPrime) = feZ (fe 0) by simp, feZ_inj, Fin.ext_iff]
  simp [fe]

theorem feZ_fe_sub (a : Fe) : feZ (fe (fieldPrime - a.val)) = -feZ a := by
  rw [feZ_fe, Nat.cast_sub a.isLt.le]
  simp [feZ]

theorem fe_val (a : Fe) : fe a.val = a := Fin.ext (Nat.mod_eq_of_lt a.isLt)

/-! ### Powers and inverses -/

theorem feZ_powLoop (k : Nat) (base : Fe) (e : Nat) (acc : Fe) (h : e < 2 ^ k) :
    feZ (powLoop k base e acc) = feZ acc * feZ base ^ e := by
  induction k generalizing base e acc with
  | zero => simp at h; simp [powLoop, h]
  | succ k ih =>
    rw [powLoop, ih _ _ _ (by rw [pow_succ] at h; omega), feZ_mul, ← sq, ← pow_mul]
    have he := Nat.div_add_mod e 2
    rcases Nat.mod_two_eq_zero_or_one e with h2 | h2
    · rw [if_neg (by omega)]
      congr 2
      omega
    · rw [if_pos h2, feZ_mul, mul_assoc, ← pow_succ']
      congr 2
      omega

/-- `pow` is the power (R191). -/
@[simp] theorem feZ_fpow (a : Fe) (e : Nat) : feZ (fpow a e) = feZ a ^ e := by
  rw [fpow, feZ_powLoop _ _ _ _ (lt_two_pow_bitlen e)]
  simp

/-- `finv` is the inverse (R191). -/
theorem feZ_mul_finv {b : Fe} (h : feZ b ≠ 0) : feZ b * feZ (finv b) = 1 := by
  have : Fact fieldPrime.Prime := ⟨fieldPrime_prime⟩
  have h1 := ZMod.pow_card_sub_one_eq_one h
  rw [finv, feZ_fpow, ← pow_succ', show fieldPrime - 2 + 1 = fieldPrime - 1 by decide +kernel, h1]

/-- What a quotient is: multiplied by the divisor it gives the dividend (R191). -/
theorem feZ_fdiv_mul (a : Fe) {b : Fe} (h : feZ b ≠ 0) : feZ (fdiv a b) * feZ b = feZ a := by
  rw [fdiv, feZ_mul, mul_assoc, mul_comm (feZ (finv b)), feZ_mul_finv h, mul_one]

/-- A quotient is unique (R191). -/
theorem fdiv_unique {a b q : Fe} (h : feZ b ≠ 0) (hq : feZ q * feZ b = feZ a) : fdiv a b = q := by
  have : Fact fieldPrime.Prime := ⟨fieldPrime_prime⟩
  apply feZ_injective
  have := feZ_fdiv_mul a h
  rw [← hq] at this
  exact mul_right_cancel₀ h this

theorem fdiv_one (a : Fe) : fdiv a (fe 1) = a := by
  have : Fact fieldPrime.Prime := ⟨fieldPrime_prime⟩
  exact fdiv_unique (by simp) (by simp)

/-! ### The curve constant -/

theorem two_ne_zero' : (2 : ZMod fieldPrime) ≠ 0 := by
  have : ((2 : Nat) : ZMod fieldPrime) ≠ 0 := by
    rw [Ne, ZMod.natCast_eq_zero_iff]
    decide +kernel
  simpa using this

theorem feZ_curveD : feZ curveD = -376014 := by
  rw [curveD, feZ_fe, Nat.cast_sub (by decide +kernel)]
  simp

theorem euler_curveD : fpow curveD ((fieldPrime - 1) / 2) = fe (fieldPrime - 1) := by decide +kernel

theorem one_ne_neg_one : (1 : ZMod fieldPrime) ≠ -1 := by
  intro h
  apply two_ne_zero'
  linear_combination h

/-- `d` is no square (R190): Euler's criterion, by computation. -/
theorem curveD_nonsquare (x : ZMod fieldPrime) : x ^ 2 ≠ feZ curveD := by
  have : Fact fieldPrime.Prime := ⟨fieldPrime_prime⟩
  intro h
  have he : feZ curveD ^ ((fieldPrime - 1) / 2) = -1 := by
    rw [← feZ_fpow, euler_curveD, feZ_fe, Nat.cast_sub (by decide)]
    simp
  rw [← h, ← pow_mul, show 2 * ((fieldPrime - 1) / 2) = fieldPrime - 1 by decide +kernel] at he
  rcases eq_or_ne x 0 with rfl | hx
  · rw [zero_pow (by decide +kernel)] at he
    exact one_ne_neg_one (by linear_combination 2 * he)
  · rw [ZMod.pow_card_sub_one_eq_one hx] at he
    exact one_ne_neg_one he

end Sys2Proof.Machine
end

