-- ==== Sys2Proof/Laws/Curve.lean ====
section
/-! SUPPORT. The addition law of E521 (spec/45_e521.md R193, R194, R202 to R209): what it answers, that it is complete and closed on the
curve, and what `point_from_x` and `scale` answer. -/

namespace Sys2Proof.Machine

/-! ### The curve equation -/

/-- The curve equation modulo `p` (R193). -/
theorem onCurve_iff (q : Point) :
    onCurve q = true ↔ feZ q.x ^ 2 + feZ q.y ^ 2 = 1 + feZ curveD * feZ q.x ^ 2 * feZ q.y ^ 2 := by
  rw [onCurve, beq_iff_eq, ← feZ_inj]
  simp only [feZ_add, feZ_mul, feZ_fe, Nat.cast_one]
  constructor <;> intro h <;> linear_combination h

theorem onCurve_neutral : onCurve neutral = true := by decide +kernel

theorem onCurve_basePoint : onCurve basePoint = true := by decide +kernel

theorem onCurve_negate {q : Point} (h : onCurve q = true) : onCurve (negate q) = true := by
  rw [onCurve_iff] at *
  simp only [negate, feZ_fe_sub]
  linear_combination h

@[simp] theorem feZ_neutral_x : feZ neutral.x = 0 := by simp [feZ, neutral]

@[simp] theorem feZ_neutral_y : feZ neutral.y = 1 := by simp [feZ, neutral]

theorem Point.ext_feZ {q q' : Point} (hx : feZ q.x = feZ q'.x) (hy : feZ q.y = feZ q'.y) : q = q' := by
  cases q; cases q'
  simp only [feZ_inj] at hx hy
  simp_all

/-! ### Addition -/

/-- `d·x1·x2·y1·y2`, what the denominators of the addition law are made of (R206). -/
def crossTerm (q1 q2 : Point) : ZMod fieldPrime := feZ curveD * feZ q1.x * feZ q2.x * feZ q1.y * feZ q2.y

/-- What `add` answers (R206, R207): a sum exactly when neither denominator is 0, and the sum is the quotients. -/
theorem padd_eq_some_iff (q1 q2 q : Point) :
    padd q1 q2 = some q ↔
      1 + crossTerm q1 q2 ≠ 0 ∧ 1 - crossTerm q1 q2 ≠ 0 ∧
        feZ q.x * (1 + crossTerm q1 q2) = feZ q1.x * feZ q2.y + feZ q1.y * feZ q2.x ∧
        feZ q.y * (1 - crossTerm q1 q2) = feZ q1.y * feZ q2.y - feZ q1.x * feZ q2.x := by
  have hup : feZ (fe 1 + curveD * q1.x * q2.x * q1.y * q2.y) = 1 + crossTerm q1 q2 := by simp [crossTerm]
  have hdn : feZ (fe 1 - curveD * q1.x * q2.x * q1.y * q2.y) = 1 - crossTerm q1 q2 := by simp [crossTerm]
  unfold padd
  simp only [val_eq_zero_iff, hup, hdn]
  split
  · rename_i h
    constructor
    · intro h'; cases h'
    · rintro ⟨h1, h2, -⟩; tauto
  · rename_i h
    have h1 : 1 + crossTerm q1 q2 ≠ 0 := fun h' => h (Or.inl h')
    have h2 : 1 - crossTerm q1 q2 ≠ 0 := fun h' => h (Or.inr h')
    constructor
    · intro h'
      rw [Option.some.injEq] at h'
      subst h'
      refine ⟨h1, h2, ?_, ?_⟩
      · rw [← hup, feZ_fdiv_mul _ (by rw [hup]; exact h1)]; simp
      · rw [← hdn, feZ_fdiv_mul _ (by rw [hdn]; exact h2)]; simp
    · rintro ⟨-, -, hx, hy⟩
      rw [Option.some.injEq, fdiv_unique (q := q.x) (by rw [hup]; exact h1) (by rw [hup, hx]; simp),
        fdiv_unique (q := q.y) (by rw [hdn]; exact h2) (by rw [hdn, hy]; simp)]

/-- `add` raises DIV_ZERO exactly when a denominator is 0 (R206). -/
theorem padd_eq_none_iff (q1 q2 : Point) :
    padd q1 q2 = none ↔ 1 + crossTerm q1 q2 = 0 ∨ 1 - crossTerm q1 q2 = 0 := by
  unfold padd
  simp only [val_eq_zero_iff, feZ_add, feZ_sub, feZ_mul, feZ_fe, Nat.cast_one, crossTerm]
  split <;> simp_all

theorem crossTerm_comm (q1 q2 : Point) : crossTerm q1 q2 = crossTerm q2 q1 := by unfold crossTerm; ring

theorem padd_comm (q1 q2 : Point) : padd q1 q2 = padd q2 q1 := by
  apply Option.ext
  intro q
  rw [padd_eq_some_iff, padd_eq_some_iff, crossTerm_comm q2 q1]
  constructor <;> rintro ⟨h1, h2, h3, h4⟩ <;>
    exact ⟨h1, h2, by linear_combination h3, by linear_combination h4⟩

/-- The neutral point is neutral for every pair, on the curve or not (R194). -/
theorem padd_neutral (q : Point) : padd q neutral = some q := by
  rw [padd_eq_some_iff]
  have : crossTerm q neutral = 0 := by simp [crossTerm]
  have hp : (1 : ZMod fieldPrime) ≠ 0 := by
    have : Fact fieldPrime.Prime := ⟨fieldPrime_prime⟩
    exact one_ne_zero
  simp [this, hp]

theorem neutral_padd (q : Point) : padd neutral q = some q := by rw [padd_comm, padd_neutral]

/-- The addition law is complete on the curve because `d` is no square (R193): no denominator is 0. -/
theorem crossTerm_sq_ne_one {q1 q2 : Point} (h1 : onCurve q1 = true) (h2 : onCurve q2 = true) : crossTerm q1 q2 ^ 2 ≠ 1 := by
  have : Fact fieldPrime.Prime := ⟨fieldPrime_prime⟩
  rw [onCurve_iff] at h1 h2
  unfold crossTerm
  have hd := curveD_nonsquare
  generalize feZ curveD = d at *
  generalize feZ q1.x = x1 at *
  generalize feZ q1.y = y1 at *
  generalize feZ q2.x = x2 at *
  generalize feZ q2.y = y2 at *
  intro ht
  have hx2 : x2 ≠ 0 := by rintro rfl; simp at ht
  have hw : x1 * y1 ≠ 0 := by
    intro h
    have : d * x1 * x2 * y1 * y2 = 0 := by linear_combination d * x2 * y2 * h
    rw [this] at ht
    simp at ht
  -- with t = d x1 x2 y1 y2 and t² = 1, both x1 + t y1 and x1 - t y1 have the square of d (x1 y1 (x2 ± y2))²
  have key : ∀ e : ZMod fieldPrime, e ^ 2 = 1 → x2 + e * y2 ≠ 0 → False := by
    intro e he hne
    apply hd ((x1 + e * (d * x1 * x2 * y1 * y2) * y1) / (x1 * y1 * (x2 + e * y2)))
    rw [div_pow, div_eq_iff (pow_ne_zero 2 (mul_ne_zero hw hne))]
    linear_combination h1 + (y1 ^ 2 * ((d * x1 * x2 * y1 * y2) ^ 2) - d * x1 ^ 2 * y1 ^ 2 * y2 ^ 2) * he + (y1 ^ 2 - 1) * ht - d * x1 ^ 2 * y1 ^ 2 * h2
  by_cases hp : x2 + 1 * y2 = 0
  · apply key (-1) (by ring)
    intro hm
    apply hx2
    have : (2 : ZMod fieldPrime) * x2 = 0 := by linear_combination hp + hm
    exact (mul_eq_zero.mp this).resolve_left two_ne_zero'
  · exact key 1 (by ring) hp

theorem denominators_ne_zero {q1 q2 : Point} (h1 : onCurve q1 = true) (h2 : onCurve q2 = true) :
    1 + crossTerm q1 q2 ≠ 0 ∧ 1 - crossTerm q1 q2 ≠ 0 := by
  have h := crossTerm_sq_ne_one h1 h2
  constructor
  · intro h'; apply h; linear_combination (crossTerm q1 q2 - 1) * h'
  · intro h'; apply h; linear_combination -(crossTerm q1 q2 + 1) * h'

/-- A sum of two points on the curve is on the curve (R193). -/
theorem onCurve_of_padd {q1 q2 q : Point} (h1 : onCurve q1 = true) (h2 : onCurve q2 = true) (h : padd q1 q2 = some q) :
    onCurve q = true := by
  have : Fact fieldPrime.Prime := ⟨fieldPrime_prime⟩
  obtain ⟨hu, hd, hx, hy⟩ := (padd_eq_some_iff _ _ _).mp h
  rw [onCurve_iff] at *
  unfold crossTerm at *
  generalize feZ curveD = d at *
  generalize feZ q1.x = x1 at *
  generalize feZ q1.y = y1 at *
  generalize feZ q2.x = x2 at *
  generalize feZ q2.y = y2 at *
  generalize feZ q.x = x3 at *
  generalize feZ q.y = y3 at *
  have key : (x1 * y2 + y1 * x2) ^ 2 * (1 - d * x1 * x2 * y1 * y2) ^ 2 + (y1 * y2 - x1 * x2) ^ 2 * (1 + d * x1 * x2 * y1 * y2) ^ 2
      = (1 + d * x1 * x2 * y1 * y2) ^ 2 * (1 - d * x1 * x2 * y1 * y2) ^ 2
        + d * (x1 * y2 + y1 * x2) ^ 2 * (y1 * y2 - x1 * x2) ^ 2 := by
    linear_combination
      ((x2 ^ 2 + y2 ^ 2) * (1 + (d * x1 * x2 * y1 * y2) ^ 2)
        - d * x2 ^ 2 * y2 ^ 2 * (x1 ^ 2 + y1 ^ 2 + (1 + d * x1 ^ 2 * y1 ^ 2))) * h1
      + ((1 + d * x1 ^ 2 * y1 ^ 2) * (1 + (d * x1 * x2 * y1 * y2) ^ 2)
        - d * x1 ^ 2 * y1 ^ 2 * (x2 ^ 2 + y2 ^ 2 + (1 + d * x2 ^ 2 * y2 ^ 2))) * h2
  rw [← hx, ← hy] at key
  have h0 : ((1 + d * x1 * x2 * y1 * y2) * (1 - d * x1 * x2 * y1 * y2)) ^ 2 ≠ 0 := pow_ne_zero 2 (mul_ne_zero hu hd)
  apply mul_left_cancel₀ h0
  linear_combination key

/-- On the curve `add` answers a point on the curve, never DIV_ZERO (R193). -/
theorem padd_onCurve {q1 q2 : Point} (h1 : onCurve q1 = true) (h2 : onCurve q2 = true) :
    ∃ q, padd q1 q2 = some q ∧ onCurve q = true := by
  obtain ⟨hu, hd⟩ := denominators_ne_zero h1 h2
  rcases hq : padd q1 q2 with - | q
  · rw [padd_eq_none_iff] at hq
    tauto
  · exact ⟨q, rfl, onCurve_of_padd h1 h2 hq⟩

/-- `negate` is the inverse of `add` on the curve (R204). -/
theorem padd_negate {q : Point} (h : onCurve q = true) : padd q (negate q) = some neutral := by
  have hn := onCurve_negate h
  obtain ⟨hu, hd⟩ := denominators_ne_zero h hn
  rw [padd_eq_some_iff]
  rw [onCurve_iff] at h
  refine ⟨hu, hd, ?_, ?_⟩
  · simp only [feZ_neutral_x, negate, feZ_fe_sub]; ring
  · simp only [feZ_neutral_y, negate, feZ_fe_sub, crossTerm]; linear_combination -h

/-! ### Scaling -/

theorem scaleLoop_onCurve (m k : Nat) {acc addend : Point} (ha : onCurve acc = true) (hq : onCurve addend = true) :
    ∃ q, scaleLoop m k acc addend = some q ∧ onCurve q = true := by
  induction m generalizing k acc addend with
  | zero => exact ⟨acc, rfl, ha⟩
  | succ m ih =>
    obtain ⟨acc', h1, h1'⟩ := padd_onCurve ha hq
    obtain ⟨addend', h2, h2'⟩ := padd_onCurve hq hq
    unfold scaleLoop
    simp only [h1, h2]
    by_cases hk : k % 2 = 1
    · simp only [hk, if_true]
      exact ih _ h1' h2'
    · simp only [hk, if_false]
      exact ih _ ha h2'

/-- On the curve `scale` answers a point on the curve, never DIV_ZERO (R193, R210). -/
theorem pscale_onCurve (k : Nat) {q : Point} (h : onCurve q = true) : ∃ q', pscale k q = some q' ∧ onCurve q' = true :=
  scaleLoop_onCurve _ _ onCurve_neutral h

/-- `scale(0, P) = (0, 1)` (R209). -/
theorem pscale_zero (q : Point) : pscale 0 q = some neutral := rfl

/-! ### A point from its x-coordinate -/

/-- With `v = (1 - x²)/(1 + 376014·x²)`, a pair `(x, y)` is on the curve exactly when `y² = v` (R202). -/
theorem onCurve_iff_sq (x y : Fe) :
    onCurve ⟨x, y⟩ = true ↔ feZ y ^ 2 = feZ (fdiv (fe 1 - x * x) (fe 1 + fe 376014 * x * x)) := by
  have : Fact fieldPrime.Prime := ⟨fieldPrime_prime⟩
  have hne : feZ (fe 1 + fe 376014 * x * x) ≠ 0 := by
    simp only [feZ_add, feZ_mul, feZ_fe]
    intro h
    have hx : feZ x ≠ 0 := by
      intro hx
      rw [hx] at h
      simp at h
    apply curveD_nonsquare (1 / feZ x)
    rw [feZ_curveD, div_pow, div_eq_iff (pow_ne_zero 2 hx)]
    push_cast at h
    linear_combination h
  have hv := feZ_fdiv_mul (fe 1 - x * x) hne
  rw [onCurve_iff, feZ_curveD]
  generalize feZ (fdiv (fe 1 - x * x) (fe 1 + fe 376014 * x * x)) = v at *
  simp only [feZ_add, feZ_mul, feZ_sub, feZ_fe] at hv hne
  push_cast at hv hne
  constructor
  · intro h
    apply mul_right_cancel₀ hne
    linear_combination h - hv
  · intro h
    linear_combination (1 + 376014 * feZ x * feZ x) * h + hv

/-- `v.pow(2^519)` squares to `v` when `v` is a square (R202). -/
theorem root_sq {v : Fe} {y : ZMod fieldPrime} (h : y ^ 2 = feZ v) :
    feZ (fpow v (2 ^ 519)) = y ∨ feZ (fpow v (2 ^ 519)) = -y := by
  have : Fact fieldPrime.Prime := ⟨fieldPrime_prime⟩
  apply sq_eq_sq_iff_eq_or_eq_neg.mp
  rw [feZ_fpow, ← h, ← pow_mul, ← pow_mul]
  rcases eq_or_ne y 0 with rfl | hy
  · rw [zero_pow (by decide +kernel), zero_pow (by decide)]
  · have h1 := ZMod.pow_card_sub_one_eq_one hy
    rw [show 2 * (2 ^ 519 * 2) = (fieldPrime - 1) + 2 by decide +kernel, pow_add, h1, one_mul]

theorem val_fe_sub {a : Fe} (h : a.val ≠ 0) : (fe (fieldPrime - a.val)).val = fieldPrime - a.val :=
  Nat.mod_eq_of_lt (by have := a.isLt; omega)

/-- `point_from_x` (R202, R203): it succeeds exactly when some point with that x-coordinate on the curve has that parity, and answers it. -/
theorem pointFromX_eq_some_iff (x : Fe) (lsb : BitVec 1) (q : Point) :
    pointFromX x lsb = some q ↔ q.x = x ∧ q.y.val % 2 = lsb.toNat ∧ onCurve q = true := by
  have hodd : fieldPrime % 2 = 1 := by decide +kernel
  have hl : lsb.toNat < 2 := lsb.isLt
  unfold pointFromX
  have hc := onCurve_iff_sq x
  have hr := fun y => @root_sq (fdiv (fe 1 - x * x) (fe 1 + fe 376014 * x * x)) y
  generalize fdiv (fe 1 - x * x) (fe 1 + fe 376014 * x * x) = v at *
  simp only
  generalize fpow v (2 ^ 519) = rt at *
  have hsq : ∀ y : Fe, y * y = v ↔ feZ y ^ 2 = feZ v := fun y => by rw [← feZ_inj, feZ_mul, sq]
  have hlt := rt.isLt
  constructor
  · intro h
    split at h
    · rename_i hp
      split at h
      · cases h
      · rename_i h0
        split at h
        · cases h
        · rename_i h1
          cases h
          rw [not_not, hsq] at h1
          refine ⟨rfl, ?_, (hc _).mpr h1⟩
          rw [val_fe_sub h0]
          omega
    · rename_i hp
      split at h
      · cases h
      · rename_i h1
        cases h
        rw [not_not, hsq] at h1
        exact ⟨rfl, not_not.mp hp, (hc _).mpr h1⟩
  · obtain ⟨qx, y⟩ := q
    rintro ⟨rfl, hp, hq⟩
    simp only at hp
    rw [hc] at hq
    have hy := y.isLt
    rcases hr _ hq with h | h
    · rw [feZ_inj] at h
      subst h
      rw [if_neg (by omega), if_neg (by rw [not_not, hsq]; exact hq)]
    · by_cases h0 : y.val = 0
      · have : rt = y := by
          rw [← feZ_inj, h, (val_eq_zero_iff y).mp h0, neg_zero]
        subst this
        rw [if_neg (by omega), if_neg (by rw [not_not, hsq]; exact hq)]
      · have e : rt = fe (fieldPrime - y.val) := by rw [← feZ_inj, h, feZ_fe_sub]
        have ev : rt.val = fieldPrime - y.val := by rw [e, val_fe_sub h0]
        have ef : fe (fieldPrime - rt.val) = y := by
          rw [ev, Nat.sub_sub_self hy.le, fe_val]
        rw [if_pos (by omega), if_neg (by omega), ef, if_neg (by rw [not_not, hsq]; exact hq)]

end Sys2Proof.Machine
end

