-- ==== Sys2Proof/Laws/Decode.lean ====
section
/-! SUPPORT. The fields of a command word put together from its fields, and masking one (spec/30_encoding.md R70 to R76). -/

namespace Sys2Proof

/-! ### The fields of a word -/

section
variable (op : BitVec 8) (rd ra rb : BitVec 4) (imm : BitVec 12)

@[simp] theorem opField_packWord : opField (packWord op rd ra rb imm) = op := by
  change (imm ++ rb ++ ra ++ rd ++ op : BitVec (12 + 4 + 4 + 4 + 8)).extractLsb' 0 8 = op
  ext i hi
  simp only [BitVec.getElem_extractLsb', BitVec.getLsbD_append]
  try rw [if_pos (by omega)]
  rw [BitVec.getLsbD_eq_getElem (by omega)]
  congr 1
  omega

@[simp] theorem rdField_packWord : rdField (packWord op rd ra rb imm) = rd := by
  change (imm ++ rb ++ ra ++ rd ++ op : BitVec (12 + 4 + 4 + 4 + 8)).extractLsb' 8 4 = rd
  ext i hi
  simp only [BitVec.getElem_extractLsb', BitVec.getLsbD_append]
  repeat rw [if_neg (by omega)]
  try rw [if_pos (by omega)]
  rw [BitVec.getLsbD_eq_getElem (by omega)]
  congr 1
  omega

@[simp] theorem raField_packWord : raField (packWord op rd ra rb imm) = ra := by
  change (imm ++ rb ++ ra ++ rd ++ op : BitVec (12 + 4 + 4 + 4 + 8)).extractLsb' 12 4 = ra
  ext i hi
  simp only [BitVec.getElem_extractLsb', BitVec.getLsbD_append]
  repeat rw [if_neg (by omega)]
  try rw [if_pos (by omega)]
  rw [BitVec.getLsbD_eq_getElem (by omega)]
  congr 1
  omega

@[simp] theorem rbField_packWord : rbField (packWord op rd ra rb imm) = rb := by
  change (imm ++ rb ++ ra ++ rd ++ op : BitVec (12 + 4 + 4 + 4 + 8)).extractLsb' 16 4 = rb
  ext i hi
  simp only [BitVec.getElem_extractLsb', BitVec.getLsbD_append]
  repeat rw [if_neg (by omega)]
  try rw [if_pos (by omega)]
  rw [BitVec.getLsbD_eq_getElem (by omega)]
  congr 1
  omega

@[simp] theorem immField_packWord : immField (packWord op rd ra rb imm) = imm := by
  change (imm ++ rb ++ ra ++ rd ++ op : BitVec (12 + 4 + 4 + 4 + 8)).extractLsb' 20 12 = imm
  ext i hi
  simp only [BitVec.getElem_extractLsb', BitVec.getLsbD_append]
  repeat rw [if_neg (by omega)]
  rw [BitVec.getLsbD_eq_getElem (by omega)]
  congr 1
  omega

end

/-- A word is its five fields. -/
theorem packWord_fields (w : CommandWord) : packWord (opField w) (rdField w) (raField w) (rbField w) (immField w) = w := by
  unfold packWord opField rdField raField rbField immField
  repeat rw [BitVec.extractLsb'_append_extractLsb'_eq_extractLsb' (by rfl)]
  exact BitVec.extractLsb'_eq_self

/-- Masking a word masks each field. -/
theorem packWord_and (op op' : BitVec 8) (rd rd' ra ra' rb rb' : BitVec 4) (imm imm' : BitVec 12) :
    packWord op rd ra rb imm &&& packWord op' rd' ra' rb' imm' =
      packWord (op &&& op') (rd &&& rd') (ra &&& ra') (rb &&& rb') (imm &&& imm') := by
  change (imm ++ rb ++ ra ++ rd ++ op : BitVec (12 + 4 + 4 + 4 + 8)) &&&
    (imm' ++ rb' ++ ra' ++ rd' ++ op' : BitVec (12 + 4 + 4 + 4 + 8)) = _
  simp only [BitVec.and_append, packWord]

/-! ### Operands -/

@[simp] theorem index8_indexField (i : Fin 8) : index8 (indexField i) = .ok i := by
  revert i; decide

@[simp] theorem index4_indexField (i : Fin 4) : index4 (indexField i) = .ok i := by
  revert i; decide

theorem index8_eq_ok {f : BitVec 4} {i : Fin 8} (h : index8 f = .ok i) : f = indexField i := by
  revert f i; decide

theorem index4_eq_ok {f : BitVec 4} {i : Fin 4} (h : index4 f = .ok i) : f = indexField i := by
  revert f i; decide

theorem unused_eq_ok {k : Nat} {f : BitVec k} {u : Unit} (h : unused f = .ok u) : f = 0 := by
  unfold unused at h
  split at h
  · assumption
  · cases h

@[simp] theorem unused_zero (k : Nat) : unused 0#k = .ok () := by simp [unused]

theorem immLow_eq_ok {k : Nat} {f : BitVec 12} {v : BitVec k} (hk : k ≤ 12) (h : immLow k f = .ok v) : f = v.setWidth 12 := by
  unfold immLow at h
  split at h
  · rename_i hlt
    cases h
    apply BitVec.eq_of_toNat_eq
    have h2 : 2 ^ k ≤ 2 ^ 12 := Nat.pow_le_pow_right (by omega) hk
    simp only [BitVec.toNat_setWidth]
    rw [Nat.mod_eq_of_lt hlt, Nat.mod_eq_of_lt f.isLt]
  · cases h

theorem immLow_setWidth {k : Nat} (hk : k ≤ 12) (v : BitVec k) : immLow k (v.setWidth 12) = .ok v := by
  have h2 : 2 ^ k ≤ 2 ^ 12 := Nat.pow_le_pow_right (by omega) hk
  have hv := v.isLt
  have h : (v.setWidth 12).toNat = v.toNat := by
    rw [BitVec.toNat_setWidth, Nat.mod_eq_of_lt (by omega)]
  unfold immLow
  rw [h, if_pos hv]
  congr 1
  apply BitVec.eq_of_toNat_eq
  rw [BitVec.toNat_setWidth, h, Nat.mod_eq_of_lt hv]

theorem roundIndex_setWidth {ir : BitVec 5} (h : ir.toNat ≤ 23) : roundIndex (ir.setWidth 12) = .ok ir := by
  simp [roundIndex, immLow_setWidth (k := 5) (by omega), bind, Except.bind, h]

theorem roundIndex_eq_ok {f : BitVec 12} {ir : BitVec 5} (h : roundIndex f = .ok ir) : f = ir.setWidth 12 ∧ ir.toNat ≤ 23 := by
  unfold roundIndex at h
  rcases h5 : immLow 5 f with e | v
  · simp [h5, bind, Except.bind] at h
  · simp only [h5, bind, Except.bind] at h
    split at h
    · cases h
      exact ⟨immLow_eq_ok (by omega) h5, by assumption⟩
    · cases h

end Sys2Proof
end

