-- ==== Sys2Proof/Laws/Permutation.lean ====
section
/-! SUPPORT. The lane view and the byte view are two views of the same 1600 bits (spec/10_state.md R22). -/

namespace Sys2Proof.Machine

/-- A lane is put together again from its eight bytes. -/
theorem littleEndian64_laneByte (v : Lane) :
    littleEndian64 (laneByte v 0) (laneByte v 1) (laneByte v 2) (laneByte v 3) (laneByte v 4) (laneByte v 5) (laneByte v 6)
      (laneByte v 7) = v := by
  unfold littleEndian64 laneByte
  iterate 7 rw [BitVec.extractLsb'_append_extractLsb'_eq_extractLsb' (by rfl)]
  exact BitVec.extractLsb'_eq_self

/-- Byte `k` of eight bytes put together is the `k`-th of them. -/
theorem laneByte_littleEndian64 (f : Nat → Byte) {k : Nat} (hk : k < 8) :
    laneByte (littleEndian64 (f 0) (f 1) (f 2) (f 3) (f 4) (f 5) (f 6) (f 7)) k = f k := by
  apply BitVec.eq_of_getLsbD_eq
  intro i hi
  simp only [laneByte, littleEndian64, BitVec.getLsbD_extractLsb', BitVec.getLsbD_append, hi, decide_true, Bool.true_and]
  have : k = 0 ∨ k = 1 ∨ k = 2 ∨ k = 3 ∨ k = 4 ∨ k = 5 ∨ k = 6 ∨ k = 7 := by omega
  rcases this with rfl | rfl | rfl | rfl | rfl | rfl | rfl | rfl <;>
    · repeat rw [if_neg (by omega)]
      try rw [if_pos (by omega)]
      congr 1
      omega

theorem lanesOf_bytesOf (a : Lanes) : lanesOf (bytesOf a) = a := by
  ext1 i hi
  have h : ∀ k, k < 8 → (8 * i + k) / 8 = i ∧ (8 * i + k) % 8 = k := by omega
  have h0 : 8 * i / 8 = i ∧ 8 * i % 8 = 0 := by omega
  simp only [lanesOf, bytesOf, Vector.getElem_ofFn, h0, h 1, h 2, h 3, h 4, h 5, h 6, h 7, Nat.reduceLT]
  exact littleEndian64_laneByte a[i]

theorem bytesOf_lanesOf (st : Vector Byte 200) : bytesOf (lanesOf st) = st := by
  ext1 j hj
  have h := laneByte_littleEndian64 (fun k => st[8 * (j / 8) + k]?.getD 0) (k := j % 8) (by omega)
  simp only [Nat.add_zero, show 8 * (j / 8) < 200 by omega, show 8 * (j / 8) + 1 < 200 by omega,
    show 8 * (j / 8) + 2 < 200 by omega, show 8 * (j / 8) + 3 < 200 by omega, show 8 * (j / 8) + 4 < 200 by omega,
    show 8 * (j / 8) + 5 < 200 by omega, show 8 * (j / 8) + 6 < 200 by omega, show 8 * (j / 8) + 7 < 200 by omega,
    show 8 * (j / 8) + j % 8 = j by omega, hj, Vector.getElem?_eq_getElem, Option.getD_some] at h
  simp only [lanesOf, bytesOf, Vector.getElem_ofFn]
  exact h

/-- The lanes one by one, in index order: what to rewrite with before computing with a walk over lane numbers. -/
theorem lanes_literal (a : Lanes) :
    a = #v[a[0], a[1], a[2], a[3], a[4], a[5], a[6], a[7], a[8], a[9], a[10], a[11], a[12], a[13], a[14], a[15], a[16], a[17],
      a[18], a[19], a[20], a[21], a[22], a[23], a[24]] := by
  ext1 j hj
  have h : ∀ k : Fin 25, a[k.val] = (#v[a[0], a[1], a[2], a[3], a[4], a[5], a[6], a[7], a[8], a[9], a[10], a[11], a[12], a[13],
      a[14], a[15], a[16], a[17], a[18], a[19], a[20], a[21], a[22], a[23], a[24]] : Lanes)[k.val] := by
    intro k
    fin_cases k <;> rfl
  exact h ⟨j, hj⟩

/-- The permutation in the lane view (R109). -/
@[simp] theorem lanesOf_keccakF (st : Vector Byte 200) : lanesOf (keccakF st) = keccakLanes (lanesOf st) := lanesOf_bytesOf _

/-- One round in the lane view (R112). -/
@[simp] theorem lanesOf_keccakRoundBytes (st : Vector Byte 200) (ir : Fin 24) :
    lanesOf (keccakRoundBytes st ir) = keccakRound (lanesOf st) ir := lanesOf_bytesOf _

theorem eq_of_lanesOf_eq {st st' : Vector Byte 200} (h : lanesOf st = lanesOf st') : st = st' := by
  rw [← bytesOf_lanesOf st, ← bytesOf_lanesOf st', h]

end Sys2Proof.Machine
end

