-- ==== Sys2Proof/Laws/SpongeUnit.lean ====
section
/-! SUPPORT. What the sponge functions do to the cursor and to the bytes, and the streaming laws (spec/42_sponge.md R122, R124, R127,
R130). -/

namespace Sys2Proof.Machine

@[simp] theorem permuteBlock_pt (u : Sponge) : (permuteBlock u).pt = 0 := rfl

@[simp] theorem permuteBlock_st (u : Sponge) : (permuteBlock u).st = keccakF u.st := rfl

@[simp] theorem finalize_pt (u : Sponge) (c : Byte) : (finalize u c).pt = 0 := rfl

theorem succ_toNat {x : BitVec 8} (h : x.toNat < 255) : (x + 1).toNat = x.toNat + 1 := by
  rw [BitVec.toNat_add]; simp; omega

/-! ### Absorbing -/

@[simp] theorem absorbBytes_nil (u : Sponge) : absorbBytes u [] = u := rfl

@[simp] theorem absorbBytes_cons (u : Sponge) (c : Byte) (v : Bytes) : absorbBytes u (c :: v) = absorbBytes (absorbByte u c) v := rfl

/-- Absorbing is streaming (R130). -/
theorem absorbBytes_append (u : Sponge) (v w : Bytes) : absorbBytes u (v ++ w) = absorbBytes (absorbBytes u v) w := by
  simp [absorbBytes, List.foldl_append]

/-- Where one byte leaves the cursor (R122). -/
theorem absorbByte_pt {u : Sponge} (h : u.pt.toNat < 136) (c : Byte) : (absorbByte u c).pt.toNat = (u.pt.toNat + 1) % 136 := by
  unfold absorbByte rsiz
  have h1 : (u.pt + 1).toNat = u.pt.toNat + 1 := succ_toNat (by omega)
  simp only [h1]
  split
  · simp; omega
  · simp only [h1]; omega

/-- Where absorbing leaves the cursor (R122). -/
theorem absorbBytes_pt {u : Sponge} (h : u.pt.toNat < 136) (v : Bytes) :
    (absorbBytes u v).pt.toNat = (u.pt.toNat + v.length) % 136 := by
  induction v generalizing u with
  | nil => simp; omega
  | cons c v ih =>
    rw [absorbBytes_cons, ih (by rw [absorbByte_pt h]; omega), absorbByte_pt h]
    simp only [List.length_cons]
    omega

/-- Below the block's end one byte is XORed in at the cursor and the cursor steps (R122). -/
theorem absorbByte_of_lt {u : Sponge} (h : u.pt.toNat + 1 < 136) (c : Byte) :
    absorbByte u c = { u.xorAt u.pt.toNat c with pt := u.pt + 1 } := by
  unfold absorbByte rsiz
  have h1 : (u.pt + 1).toNat = u.pt.toNat + 1 := succ_toNat (by omega)
  simp only [h1]
  rw [if_neg (by omega)]

/-- Below the block's end absorbing changes the bytes at the cursor, by XOR, and no other (R59, R65, R122). -/
theorem absorbBytes_read {u : Sponge} (v : Bytes) (h : u.pt.toNat + v.length < 136) (j : Nat) :
    (absorbBytes u v).read j =
      if u.pt.toNat ≤ j ∧ j < u.pt.toNat + v.length then u.read j ^^^ v.getD (j - u.pt.toNat) 0 else u.read j := by
  induction v generalizing u with
  | nil => simp
  | cons c v ih =>
    simp only [List.length_cons] at h
    have h1 : (u.pt + 1).toNat = u.pt.toNat + 1 := succ_toNat (by omega)
    have hr : ∀ j, ({ u.xorAt u.pt.toNat c with pt := u.pt + 1 } : Sponge).read j = (u.xorAt u.pt.toNat c).read j := fun _ => rfl
    rw [absorbBytes_cons, absorbByte_of_lt (by omega), ih (by simp only [h1]; omega)]
    simp only [h1, hr, List.length_cons, Sponge.read_xorAt u u.pt.toNat _ c (by omega)]
    by_cases hj : j = u.pt.toNat
    · subst hj
      simp
    · rw [if_neg hj]
      by_cases hin : u.pt.toNat ≤ j ∧ j < u.pt.toNat + (v.length + 1)
      · rw [if_pos (by omega), if_pos hin]
        obtain ⟨k, hk⟩ : ∃ k, j - u.pt.toNat = k + 1 := ⟨j - u.pt.toNat - 1, by omega⟩
        rw [hk, show j - (u.pt.toNat + 1) = k by omega]
        simp
      · rw [if_neg (by omega), if_neg hin]

/-! ### Squeezing -/

@[simp] theorem squeezeBytes_zero (u : Sponge) : squeezeBytes 0 u = ([], u) := rfl

@[simp] theorem length_squeezeBytes (n : Nat) (u : Sponge) : (squeezeBytes n u).1.length = n := by
  induction n generalizing u with
  | zero => rfl
  | succ n ih => simp [squeezeBytes, ih]

/-- Squeezing is streaming (R130). -/
theorem squeezeBytes_add (n m : Nat) (u : Sponge) :
    squeezeBytes (n + m) u =
      ((squeezeBytes n u).1 ++ (squeezeBytes m (squeezeBytes n u).2).1, (squeezeBytes m (squeezeBytes n u).2).2) := by
  induction n generalizing u with
  | zero => simp
  | succ n ih =>
    rw [show n + 1 + m = (n + m) + 1 by omega]
    simp only [squeezeBytes, ih, List.cons_append]

/-- Where squeezing leaves the cursor (R127): it is never brought back to 0 before one more byte is asked for. -/
theorem squeezeBytes_pt {u : Sponge} (h : u.pt.toNat ≤ 136) (n : Nat) :
    (squeezeBytes n u).2.pt.toNat = if n = 0 then u.pt.toNat else (u.pt.toNat + n - 1) % 136 + 1 := by
  induction n generalizing u with
  | zero => simp
  | succ n ih =>
    rw [if_neg (by omega)]
    simp only [squeezeBytes, rsiz]
    by_cases hp : u.pt.toNat = 136
    · simp only [hp, if_true, permuteBlock_pt]
      rw [ih (by simp)]
      simp only [show (0 + 1 : BitVec 8).toNat = 1 from rfl]
      split <;> omega
    · have h1 : (u.pt + 1).toNat = u.pt.toNat + 1 := succ_toNat (by omega)
      simp only [hp, if_false]
      rw [ih (by simp only [h1]; omega)]
      simp only [h1]
      split <;> omega

/-- Inside the rate window squeezing emits the bytes at the cursor and changes none (R59, R127). -/
theorem squeezeBytes_of_le {u : Sponge} {n : Nat} (h : u.pt.toNat + n ≤ 136) (j : Nat) (hj : j < n) :
    (squeezeBytes n u).1.getD j 0 = u.read (u.pt.toNat + j) ∧ (squeezeBytes n u).2.st = u.st := by
  induction n generalizing u j with
  | zero => omega
  | succ n ih =>
    have hp : ¬ u.pt.toNat = 136 := by omega
    have h1 : (u.pt + 1).toNat = u.pt.toNat + 1 := succ_toNat (by omega)
    simp only [squeezeBytes, rsiz, hp, if_false]
    have hr : ∀ k, ({ u with pt := u.pt + 1 } : Sponge).read k = u.read k := fun _ => rfl
    have hst : (squeezeBytes n { u with pt := u.pt + 1 }).2.st = u.st := by
      rcases Nat.eq_zero_or_pos n with rfl | hn
      · rfl
      · exact (ih (u := { u with pt := u.pt + 1 }) (by simp only [h1]; omega) 0 hn).2
    refine ⟨?_, hst⟩
    cases j with
    | zero => simp
    | succ j =>
      have := (ih (u := { u with pt := u.pt + 1 }) (by simp only [h1]; omega) j (by omega)).1
      simp only [h1, hr] at this
      simp only [List.getD_cons_succ, this]
      congr 1
      omega

/-! ### A whole operation -/

@[simp] theorem length_spongeHash (x : Bytes) (c : Byte) (n : Nat) : (spongeHash x c n).length = n := by simp [spongeHash]

/-- A shorter output is the beginning of a longer one (R174). -/
theorem spongeHash_add (x : Bytes) (c : Byte) (n m : Nat) : ∃ v, spongeHash x c (n + m) = spongeHash x c n ++ v := by
  unfold spongeHash
  exact ⟨_, congrArg Prod.fst (squeezeBytes_add n m _)⟩

end Sys2Proof.Machine
end

