-- ==== Sys2Proof/Laws/Shake.lean ====
section
/-! SUPPORT. What the encodings, cSHAKE and KMACXOF compute (spec/43_encodings.md R140 to R149, spec/44_cshake_kmac.md R173 to R176). -/

namespace Sys2Proof.Machine

/-! ### Encodings -/

theorem one_le_encodedLength (x : Nat) : 1 ≤ encodedLength x := by unfold encodedLength; omega

theorem two_fifty_six_pow (n : Nat) : 256 ^ n = 2 ^ (8 * n) := by rw [show (256 : Nat) = 2 ^ 8 from rfl, ← pow_mul]

/-- The prefix length fits the number (R140). -/
theorem lt_pow_encodedLength (x : Nat) : x < 256 ^ encodedLength x := by
  rw [two_fifty_six_pow, ← bitlen_le_iff]
  unfold encodedLength
  omega

/-- The prefix length is the smallest that fits (R140). -/
theorem encodedLength_le {x n : Nat} (h1 : 1 ≤ n) (h : x < 256 ^ n) : encodedLength x ≤ n := by
  rw [two_fifty_six_pow, ← bitlen_le_iff] at h
  unfold encodedLength
  omega

set_option exponentiation.threshold 600 in
/-- Every length prefix of an integer register's value is at most 66 (R148). -/
theorem encodedLength_le_66 (v : NWord) : encodedLength v.toNat ≤ 66 := by
  have h : bitlen v.toNat ≤ 521 := (bitlen_le_iff _ _).mpr v.isLt
  unfold encodedLength
  omega

/-- Below R148's bound the length byte is the byte count (R140, R141). -/
theorem lengthByte_eq {x : Nat} (h : encodedLength x < 256) : lengthByte x = BitVec.ofNat 8 (encodedLength x) := if_pos h

/-- R148's bound keeps the byte count a byte. -/
theorem encodedLength_lt_256 {x : Nat} (h : x < 2 ^ 2040) : encodedLength x < 256 :=
  Nat.lt_succ_of_le (encodedLength_le (by decide) (Nat.lt_of_lt_of_le h (by decide +kernel)))

@[simp] theorem length_leftEncode (x : Nat) : (leftEncode x).length = encodedLength x + 1 := by simp [leftEncode]

@[simp] theorem length_rightEncode (x : Nat) : (rightEncode x).length = encodedLength x + 1 := by simp [rightEncode]

theorem length_encodeString (v : Bytes) : (encodeString v).length = encodedLength (8 * v.length) + 1 + v.length := by
  simp [encodeString, bitLength]

theorem rightEncode_zero : rightEncode 0 = [0x00, 0x01] := by decide

/-- The padded length is a multiple of the width and holds the prefixed string, with less than one width to spare (R143). -/
theorem bytepadLength_spec (x : Bytes) {w : Nat} (hw : 0 < w) :
    w ∣ bytepadLength x w ∧ (leftEncode w).length + x.length ≤ bytepadLength x w ∧
      bytepadLength x w < (leftEncode w).length + x.length + w := by
  unfold bytepadLength
  generalize (leftEncode w).length + x.length = n
  have h1 := Nat.div_add_mod (n + w - 1) w
  have h2 := Nat.mod_lt (n + w - 1) hw
  refine ⟨Nat.dvd_mul_right _ _, ?_, ?_⟩ <;> omega

@[simp] theorem length_bytepad (x : Bytes) {w : Nat} (hw : 0 < w) : (bytepad x w).length = bytepadLength x w := by
  have h := (bytepadLength_spec x hw).2.1
  simp only [bytepad, List.length_append, List.length_replicate]
  omega

/-- The padded prefix of cSHAKE and KMACXOF is a whole number of blocks (R173). -/
theorem length_bytepad_mod (x : Bytes) : (bytepad x 136).length % 136 = 0 := by
  rw [length_bytepad x (by omega)]
  exact Nat.mod_eq_zero_of_dvd (bytepadLength_spec x (by omega)).1

/-! ### cSHAKE and KMACXOF -/

/-- With both strings empty, `cshake` is plain SHAKE (R173, R175). -/
theorem cshake_plain (x : Bytes) (l : Nat) : cshake x l [] [] = spongeHash x 0x1F (l / 8) := rfl

/-- Otherwise `cshake` is the sponge over the padded prefix and the message (R173). -/
theorem cshake_eq (x : Bytes) (l : Nat) {n s : Bytes} (h : n ≠ [] ∨ s ≠ []) :
    cshake x l n s = spongeHash (bytepad (encodeString n ++ encodeString s) 136 ++ x) 0x04 (l / 8) := by
  have h1 : ¬ (n.length = 0 ∧ s.length = 0) := by
    simp only [List.length_eq_zero_iff]
    tauto
  unfold cshake spongeHash
  simp only [h1, if_false, absorbBytes_append]

@[simp] theorem length_cshake (x : Bytes) (l : Nat) (n s : Bytes) : (cshake x l n s).length = l / 8 := by simp [cshake]

/-- KMACXOF is the sponge over the four pieces in order (R176). -/
theorem kmacxof_eq (k x : Bytes) (l : Nat) (s : Bytes) :
    kmacxof k x l s =
      spongeHash (bytepad (encodeString kmacName ++ encodeString s) 136 ++ (bytepad (encodeString k) 136 ++ x ++ [0x00, 0x01]))
        0x04 (l / 8) := by
  rw [kmacxof, cshake_eq _ _ (Or.inl (by decide)), rightEncode_zero]

@[simp] theorem length_kmacxof (k x : Bytes) (l : Nat) (s : Bytes) : (kmacxof k x l s).length = l / 8 := by simp [kmacxof]

end Sys2Proof.Machine
end

