-- ==== Sys2Proof/Laws/State.lean ====
section
/-! SUPPORT. One lemma per field per update of the state, each true by rfl, and what a register reads after a write. -/

namespace Sys2Proof.Machine

@[simp] theorem State.raise_sponge (s : State) (c : Condition) : (s.raise c).sponge = s.sponge := rfl
@[simp] theorem State.raise_phase (s : State) (c : Condition) : (s.raise c).phase = s.phase := rfl
@[simp] theorem State.raise_b (s : State) (c : Condition) : (s.raise c).b = s.b := rfl
@[simp] theorem State.raise_n (s : State) (c : Condition) : (s.raise c).n = s.n := rfl
@[simp] theorem State.raise_p (s : State) (c : Condition) : (s.raise c).p = s.p := rfl
@[simp] theorem State.raise_err (s : State) (c : Condition) : (s.raise c).err = c := rfl
@[simp] theorem State.raise_accept (s : State) (c : Condition) : (s.raise c).accept = false := rfl
@[simp] theorem State.raise_pending (s : State) (c : Condition) : (s.raise c).pending = s.pending := rfl
@[simp] theorem State.raise_replies (s : State) (c : Condition) : (s.raise c).replies = s.replies := rfl
@[simp] theorem State.raise_entropy (s : State) (c : Condition) : (s.raise c).entropy = s.entropy := rfl
@[simp] theorem State.raise_draws (s : State) (c : Condition) : (s.raise c).draws = s.draws := rfl

@[simp] theorem State.complete_sponge (s : State) : (s.complete).sponge = s.sponge := rfl
@[simp] theorem State.complete_phase (s : State) : (s.complete).phase = s.phase := rfl
@[simp] theorem State.complete_b (s : State) : (s.complete).b = s.b := rfl
@[simp] theorem State.complete_n (s : State) : (s.complete).n = s.n := rfl
@[simp] theorem State.complete_p (s : State) : (s.complete).p = s.p := rfl
@[simp] theorem State.complete_err (s : State) : (s.complete).err = Condition.ok := rfl
@[simp] theorem State.complete_accept (s : State) : (s.complete).accept = false := rfl
@[simp] theorem State.complete_pending (s : State) : (s.complete).pending = s.pending := rfl
@[simp] theorem State.complete_replies (s : State) : (s.complete).replies = s.replies := rfl
@[simp] theorem State.complete_entropy (s : State) : (s.complete).entropy = s.entropy := rfl
@[simp] theorem State.complete_draws (s : State) : (s.complete).draws = s.draws := rfl

@[simp] theorem State.accepted_sponge (s : State) : (s.accepted).sponge = s.sponge := rfl
@[simp] theorem State.accepted_phase (s : State) : (s.accepted).phase = s.phase := rfl
@[simp] theorem State.accepted_b (s : State) : (s.accepted).b = s.b := rfl
@[simp] theorem State.accepted_n (s : State) : (s.accepted).n = s.n := rfl
@[simp] theorem State.accepted_p (s : State) : (s.accepted).p = s.p := rfl
@[simp] theorem State.accepted_err (s : State) : (s.accepted).err = Condition.ok := rfl
@[simp] theorem State.accepted_accept (s : State) : (s.accepted).accept = true := rfl
@[simp] theorem State.accepted_pending (s : State) : (s.accepted).pending = s.pending := rfl
@[simp] theorem State.accepted_replies (s : State) : (s.accepted).replies = s.replies := rfl
@[simp] theorem State.accepted_entropy (s : State) : (s.accepted).entropy = s.entropy := rfl
@[simp] theorem State.accepted_draws (s : State) : (s.accepted).draws = s.draws := rfl

@[simp] theorem State.destroySponge_sponge (s : State) : (s.destroySponge).sponge = Sponge.zero := rfl
@[simp] theorem State.destroySponge_phase (s : State) : (s.destroySponge).phase = Phase.idle := rfl
@[simp] theorem State.destroySponge_b (s : State) : (s.destroySponge).b = s.b := rfl
@[simp] theorem State.destroySponge_n (s : State) : (s.destroySponge).n = s.n := rfl
@[simp] theorem State.destroySponge_p (s : State) : (s.destroySponge).p = s.p := rfl
@[simp] theorem State.destroySponge_err (s : State) : (s.destroySponge).err = s.err := rfl
@[simp] theorem State.destroySponge_accept (s : State) : (s.destroySponge).accept = s.accept := rfl
@[simp] theorem State.destroySponge_pending (s : State) : (s.destroySponge).pending = s.pending := rfl
@[simp] theorem State.destroySponge_replies (s : State) : (s.destroySponge).replies = s.replies := rfl
@[simp] theorem State.destroySponge_entropy (s : State) : (s.destroySponge).entropy = s.entropy := rfl
@[simp] theorem State.destroySponge_draws (s : State) : (s.destroySponge).draws = s.draws := rfl

@[simp] theorem State.writeB_sponge (s : State) (i : BReg) (v : Bytes) : (s.writeB i v).sponge = s.sponge := rfl
@[simp] theorem State.writeB_phase (s : State) (i : BReg) (v : Bytes) : (s.writeB i v).phase = s.phase := rfl
theorem State.writeB_b (s : State) (i : BReg) (v : Bytes) : (s.writeB i v).b = s.b.set i.val v i.isLt := rfl
@[simp] theorem State.writeB_n (s : State) (i : BReg) (v : Bytes) : (s.writeB i v).n = s.n := rfl
@[simp] theorem State.writeB_p (s : State) (i : BReg) (v : Bytes) : (s.writeB i v).p = s.p := rfl
@[simp] theorem State.writeB_err (s : State) (i : BReg) (v : Bytes) : (s.writeB i v).err = s.err := rfl
@[simp] theorem State.writeB_accept (s : State) (i : BReg) (v : Bytes) : (s.writeB i v).accept = s.accept := rfl
@[simp] theorem State.writeB_pending (s : State) (i : BReg) (v : Bytes) : (s.writeB i v).pending = s.pending := rfl
@[simp] theorem State.writeB_replies (s : State) (i : BReg) (v : Bytes) : (s.writeB i v).replies = s.replies := rfl
@[simp] theorem State.writeB_entropy (s : State) (i : BReg) (v : Bytes) : (s.writeB i v).entropy = s.entropy := rfl
@[simp] theorem State.writeB_draws (s : State) (i : BReg) (v : Bytes) : (s.writeB i v).draws = s.draws := rfl

@[simp] theorem State.writeN_sponge (s : State) (i : NReg) (v : NWord) : (s.writeN i v).sponge = s.sponge := rfl
@[simp] theorem State.writeN_phase (s : State) (i : NReg) (v : NWord) : (s.writeN i v).phase = s.phase := rfl
@[simp] theorem State.writeN_b (s : State) (i : NReg) (v : NWord) : (s.writeN i v).b = s.b := rfl
theorem State.writeN_n (s : State) (i : NReg) (v : NWord) : (s.writeN i v).n = s.n.set i.val v i.isLt := rfl
@[simp] theorem State.writeN_p (s : State) (i : NReg) (v : NWord) : (s.writeN i v).p = s.p := rfl
@[simp] theorem State.writeN_err (s : State) (i : NReg) (v : NWord) : (s.writeN i v).err = s.err := rfl
@[simp] theorem State.writeN_accept (s : State) (i : NReg) (v : NWord) : (s.writeN i v).accept = s.accept := rfl
@[simp] theorem State.writeN_pending (s : State) (i : NReg) (v : NWord) : (s.writeN i v).pending = s.pending := rfl
@[simp] theorem State.writeN_replies (s : State) (i : NReg) (v : NWord) : (s.writeN i v).replies = s.replies := rfl
@[simp] theorem State.writeN_entropy (s : State) (i : NReg) (v : NWord) : (s.writeN i v).entropy = s.entropy := rfl
@[simp] theorem State.writeN_draws (s : State) (i : NReg) (v : NWord) : (s.writeN i v).draws = s.draws := rfl

@[simp] theorem State.writeP_sponge (s : State) (i : PReg) (v : Point) : (s.writeP i v).sponge = s.sponge := rfl
@[simp] theorem State.writeP_phase (s : State) (i : PReg) (v : Point) : (s.writeP i v).phase = s.phase := rfl
@[simp] theorem State.writeP_b (s : State) (i : PReg) (v : Point) : (s.writeP i v).b = s.b := rfl
@[simp] theorem State.writeP_n (s : State) (i : PReg) (v : Point) : (s.writeP i v).n = s.n := rfl
theorem State.writeP_p (s : State) (i : PReg) (v : Point) : (s.writeP i v).p = s.p.set i.val v i.isLt := rfl
@[simp] theorem State.writeP_err (s : State) (i : PReg) (v : Point) : (s.writeP i v).err = s.err := rfl
@[simp] theorem State.writeP_accept (s : State) (i : PReg) (v : Point) : (s.writeP i v).accept = s.accept := rfl
@[simp] theorem State.writeP_pending (s : State) (i : PReg) (v : Point) : (s.writeP i v).pending = s.pending := rfl
@[simp] theorem State.writeP_replies (s : State) (i : PReg) (v : Point) : (s.writeP i v).replies = s.replies := rfl
@[simp] theorem State.writeP_entropy (s : State) (i : PReg) (v : Point) : (s.writeP i v).entropy = s.entropy := rfl
@[simp] theorem State.writeP_draws (s : State) (i : PReg) (v : Point) : (s.writeP i v).draws = s.draws := rfl

@[simp] theorem State.takeDraw_sponge (s : State) : s.takeDraw.sponge = s.sponge := by
  unfold State.takeDraw; split <;> rfl
@[simp] theorem State.takeDraw_phase (s : State) : s.takeDraw.phase = s.phase := by
  unfold State.takeDraw; split <;> rfl
@[simp] theorem State.takeDraw_b (s : State) : s.takeDraw.b = s.b := by
  unfold State.takeDraw; split <;> rfl
@[simp] theorem State.takeDraw_n (s : State) : s.takeDraw.n = s.n := by
  unfold State.takeDraw; split <;> rfl
@[simp] theorem State.takeDraw_p (s : State) : s.takeDraw.p = s.p := by
  unfold State.takeDraw; split <;> rfl
@[simp] theorem State.takeDraw_err (s : State) : s.takeDraw.err = s.err := by
  unfold State.takeDraw; split <;> rfl
@[simp] theorem State.takeDraw_accept (s : State) : s.takeDraw.accept = s.accept := by
  unfold State.takeDraw; split <;> rfl
@[simp] theorem State.takeDraw_pending (s : State) : s.takeDraw.pending = s.pending := by
  unfold State.takeDraw; split <;> rfl
@[simp] theorem State.takeDraw_replies (s : State) : s.takeDraw.replies = s.replies := by
  unfold State.takeDraw; split <;> rfl

/-! ### Registers -/

theorem State.readB_writeB (s : State) (i j : BReg) (v : Bytes) :
    (s.writeB i v).readB j = if i = j then v else s.readB j := by
  simp only [State.readB, State.writeB, Vector.get_eq_getElem, Vector.getElem_set, Fin.ext_iff]

@[simp] theorem State.readB_writeB_same (s : State) (i : BReg) (v : Bytes) : (s.writeB i v).readB i = v := by
  simp [State.readB_writeB]

theorem State.readB_writeB_other (s : State) (v : Bytes) {i j : BReg} (h : i ≠ j) : (s.writeB i v).readB j = s.readB j := by
  simp [State.readB_writeB, h]

@[simp] theorem State.readB_raise (s : State) (c : Condition) (r : BReg) : (s.raise c).readB r = s.readB r := rfl
@[simp] theorem State.readB_complete (s : State) (r : BReg) : (s.complete).readB r = s.readB r := rfl
@[simp] theorem State.readB_accepted (s : State) (r : BReg) : (s.accepted).readB r = s.readB r := rfl
@[simp] theorem State.readB_destroySponge (s : State) (r : BReg) : (s.destroySponge).readB r = s.readB r := rfl
@[simp] theorem State.readB_writeN (s : State) (i : NReg) (v : NWord) (r : BReg) : (s.writeN i v).readB r = s.readB r := rfl
@[simp] theorem State.readB_writeP (s : State) (i : PReg) (v : Point) (r : BReg) : (s.writeP i v).readB r = s.readB r := rfl
@[simp] theorem State.readB_takeDraw (s : State) (r : BReg) : s.takeDraw.readB r = s.readB r := by
  simp [State.readB]

theorem State.readN_writeN (s : State) (i j : NReg) (v : NWord) :
    (s.writeN i v).readN j = if i = j then v else s.readN j := by
  simp only [State.readN, State.writeN, Vector.get_eq_getElem, Vector.getElem_set, Fin.ext_iff]

@[simp] theorem State.readN_writeN_same (s : State) (i : NReg) (v : NWord) : (s.writeN i v).readN i = v := by
  simp [State.readN_writeN]

theorem State.readN_writeN_other (s : State) (v : NWord) {i j : NReg} (h : i ≠ j) : (s.writeN i v).readN j = s.readN j := by
  simp [State.readN_writeN, h]

@[simp] theorem State.readN_raise (s : State) (c : Condition) (r : NReg) : (s.raise c).readN r = s.readN r := rfl
@[simp] theorem State.readN_complete (s : State) (r : NReg) : (s.complete).readN r = s.readN r := rfl
@[simp] theorem State.readN_accepted (s : State) (r : NReg) : (s.accepted).readN r = s.readN r := rfl
@[simp] theorem State.readN_destroySponge (s : State) (r : NReg) : (s.destroySponge).readN r = s.readN r := rfl
@[simp] theorem State.readN_writeB (s : State) (i : BReg) (v : Bytes) (r : NReg) : (s.writeB i v).readN r = s.readN r := rfl
@[simp] theorem State.readN_writeP (s : State) (i : PReg) (v : Point) (r : NReg) : (s.writeP i v).readN r = s.readN r := rfl
@[simp] theorem State.readN_takeDraw (s : State) (r : NReg) : s.takeDraw.readN r = s.readN r := by
  simp [State.readN]

theorem State.readP_writeP (s : State) (i j : PReg) (v : Point) :
    (s.writeP i v).readP j = if i = j then v else s.readP j := by
  simp only [State.readP, State.writeP, Vector.get_eq_getElem, Vector.getElem_set, Fin.ext_iff]

@[simp] theorem State.readP_writeP_same (s : State) (i : PReg) (v : Point) : (s.writeP i v).readP i = v := by
  simp [State.readP_writeP]

theorem State.readP_writeP_other (s : State) (v : Point) {i j : PReg} (h : i ≠ j) : (s.writeP i v).readP j = s.readP j := by
  simp [State.readP_writeP, h]

@[simp] theorem State.readP_raise (s : State) (c : Condition) (r : PReg) : (s.raise c).readP r = s.readP r := rfl
@[simp] theorem State.readP_complete (s : State) (r : PReg) : (s.complete).readP r = s.readP r := rfl
@[simp] theorem State.readP_accepted (s : State) (r : PReg) : (s.accepted).readP r = s.readP r := rfl
@[simp] theorem State.readP_destroySponge (s : State) (r : PReg) : (s.destroySponge).readP r = s.readP r := rfl
@[simp] theorem State.readP_writeB (s : State) (i : BReg) (v : Bytes) (r : PReg) : (s.writeB i v).readP r = s.readP r := rfl
@[simp] theorem State.readP_writeN (s : State) (i : NReg) (v : NWord) (r : PReg) : (s.writeN i v).readP r = s.readP r := rfl
@[simp] theorem State.readP_takeDraw (s : State) (r : PReg) : s.takeDraw.readP r = s.readP r := by
  simp [State.readP]

/-- A register file taken over from a state reads as in that state, whatever stands in the other fields. -/
@[simp] theorem State.readB_mk (s : State) (u : Sponge) (ph : Phase) (n : Vector NWord 8) (p : Vector Point 4) (e : Condition) (a : Bool)
    (pe : List HostAction) (re : List HostReply) (en : List (Vector Byte 64)) (d : Nat) (r : BReg) :
    (State.mk u ph s.b n p e a pe re en d).readB r = s.readB r := rfl

@[simp] theorem State.readN_mk (s : State) (u : Sponge) (ph : Phase) (b : Vector Bytes 8) (p : Vector Point 4) (e : Condition) (a : Bool)
    (pe : List HostAction) (re : List HostReply) (en : List (Vector Byte 64)) (d : Nat) (r : NReg) :
    (State.mk u ph b s.n p e a pe re en d).readN r = s.readN r := rfl

@[simp] theorem State.readP_mk (s : State) (u : Sponge) (ph : Phase) (b : Vector Bytes 8) (n : Vector NWord 8) (e : Condition) (a : Bool)
    (pe : List HostAction) (re : List HostReply) (en : List (Vector Byte 64)) (d : Nat) (r : PReg) :
    (State.mk u ph b n s.p e a pe re en d).readP r = s.readP r := rfl

end Sys2Proof.Machine
end

