-- ==== Sys2Proof/Laws/Exec.lean ====
section
/-! SUPPORT. Everything a command can do, said once (spec/42_sponge.md R120, spec/60_exceptions.md R260 to R268, spec/10_state.md R42): `exec`
answers a next state, and that state is one of the few of `Outcome`. -/

namespace Sys2Proof.Machine

/-! ### Frames, one operation at a time -/

section Frames
variable {i : Instr} {s t : State}

theorem State.Frame.refl (i : Instr) (s : State) : State.Frame i s s :=
  ⟨fun _ _ => rfl, fun _ _ => rfl, fun _ _ => rfl, fun _ => rfl, fun _ => rfl, fun _ => rfl, fun _ => ⟨rfl, rfl⟩, rfl, rfl⟩

theorem State.Frame.writeB (h : State.Frame i s t) {r : BReg} (hr : r ∈ i.writesB) (v : Bytes) : State.Frame i s (t.writeB r v) where
  b j hj := by
    rw [State.readB_writeB_other t v (by rintro rfl; exact hj hr), h.b j hj]
  n := h.n
  p := h.p
  st := h.st
  pt := h.pt
  phase := h.phase
  entropy := h.entropy
  host := h.host

theorem State.Frame.writeN (h : State.Frame i s t) {r : NReg} (hr : r ∈ i.writesN) (v : NWord) : State.Frame i s (t.writeN r v) where
  b := h.b
  n j hj := by
    rw [State.readN_writeN_other t v (by rintro rfl; exact hj hr), h.n j hj]
  p := h.p
  st := h.st
  pt := h.pt
  phase := h.phase
  entropy := h.entropy
  host := h.host

theorem State.Frame.writeP (h : State.Frame i s t) {r : PReg} (hr : r ∈ i.writesP) (v : Point) : State.Frame i s (t.writeP r v) where
  b := h.b
  n := h.n
  p j hj := by
    rw [State.readP_writeP_other t v (by rintro rfl; exact hj hr), h.p j hj]
  st := h.st
  pt := h.pt
  phase := h.phase
  entropy := h.entropy
  host := h.host

theorem State.Frame.complete (h : State.Frame i s t) : State.Frame i s t.complete := ⟨h.b, h.n, h.p, h.st, h.pt, h.phase, h.entropy, h.host⟩

theorem State.Frame.accepted (h : State.Frame i s t) : State.Frame i s t.accepted := ⟨h.b, h.n, h.p, h.st, h.pt, h.phase, h.entropy, h.host⟩

theorem State.Frame.raise (h : State.Frame i s t) (c : Condition) : State.Frame i s (t.raise c) :=
  ⟨h.b, h.n, h.p, h.st, h.pt, h.phase, h.entropy, h.host⟩

/-- A command that writes all of the sponge unit may set it and the phase. -/
theorem State.Frame.unit (h : State.Frame i s t) (h1 : i.writesSt = true) (h2 : i.writesPt = true) (u : Sponge) (ph : Phase)
    (h3 : i.writesPhase = true ∨ ph = s.phase) : State.Frame i s { t with
      sponge := u
      phase := ph } where
  b := h.b
  n := h.n
  p := h.p
  st h' := by rw [h1] at h'; cases h'
  pt h' := by rw [h2] at h'; cases h'
  phase h' := h3.resolve_left (by simp [h'])
  entropy := h.entropy
  host := h.host

/-- A command that writes `ST` may change it where it leaves the cursor. -/
theorem State.Frame.setSt (h : State.Frame i s t) (h1 : i.writesSt = true) (u : Sponge) (hu : u.pt = t.sponge.pt) :
    State.Frame i s { t with sponge := u } where
  b := h.b
  n := h.n
  p := h.p
  st h' := by rw [h1] at h'; cases h'
  pt h' := hu.trans (h.pt h')
  phase := h.phase
  entropy := h.entropy
  host := h.host

theorem State.Frame.takeDraw (h : State.Frame i s t) (hi : i.draws = true) : State.Frame i s t.takeDraw where
  b j hj := by rw [State.readB_takeDraw, h.b j hj]
  n j hj := by rw [State.readN_takeDraw, h.n j hj]
  p j hj := by rw [State.readP_takeDraw, h.p j hj]
  st h' := by rw [State.takeDraw_sponge, h.st h']
  pt h' := by rw [State.takeDraw_sponge, h.pt h']
  phase h' := by rw [State.takeDraw_phase, h.phase h']
  entropy h' := by rw [hi] at h'; cases h'
  host := by rw [State.takeDraw_pending, State.takeDraw_replies]; exact h.host

end Frames

/-! ### What a command can do -/

/-- The commands that accept or reject (R35). -/
def accepts : Instr → Bool
  | .symdec | .asymdec | .verify => true
  | _ => false

/-- The states a well-formed command can end in. -/
inductive Outcome (i : Instr) (s : State) : State → Prop
  /-- Not allowed in this phase (R262). -/
  | seq (h : i.allowedIn s.phase = false) : Outcome i s (s.raise .seq)
  /-- An operand value outside the list (R263). -/
  | param (h : i.allowedIn s.phase = true) (hb : i.badOperand s) : Outcome i s (s.raise .param)
  /-- No point with that x-coordinate (R264). -/
  | invalidPoint (h : i.allowedIn s.phase = true) (hb : ¬ i.badOperand s) (hi : i.mayRaise .invalidPoint = true) :
    Outcome i s (s.raise .invalidPoint)
  /-- A zero denominator (R264). -/
  | divZero (h : i.allowedIn s.phase = true) (hb : ¬ i.badOperand s) (hi : i.mayRaise .divZero = true) :
    Outcome i s (s.raise .divZero)
  /-- A zero denominator after the draw (R235). -/
  | drawLost (h : i.allowedIn s.phase = true) (hi : i = .asymenc) : Outcome i s (s.takeDraw.raise .divZero)
  /-- A tag that does not match (R265). -/
  | rejected (h : i.allowedIn s.phase = true) (hi : i = .symdec ∨ i = .asymdec) :
    Outcome i s ((s.destroySponge.writeB BX []).raise .authFail)
  /-- A digest that does not match (R265). -/
  | notVerified (h : i.allowedIn s.phase = true) (hi : i = .verify) : Outcome i s (s.destroySponge.raise .authFail)
  /-- The command completes. -/
  | done (t : State) (h : i.allowedIn s.phase = true) (hb : ¬ i.badOperand s) (err : t.err = .ok) (accept : t.accept = accepts i)
    (phase : t.phase = i.phaseAfter s.phase) (frame : State.Frame i s t) (unit : i.isComposite = true → t.sponge = Sponge.zero) :
    Outcome i s t

section Lemmas
variable {s : State}

theorem badOutputLength_eq (l : Nat) : badOutputLength l = true ↔ l % 8 ≠ 0 ∨ bmax < l / 8 := by simp [badOutputLength]

/-- A command that completes and leaves the phase alone. -/
theorem outcome_free {i : Instr} {t : State} (h1 : i.allowedIn s.phase = true) (h2 : i.isComposite = false)
    (h3 : ∀ ph, i.phaseAfter ph = ph) (h4 : accepts i = false) (hp : i.writesPhase = false) (hb : ¬ i.badOperand s)
    (f : State.Frame i s t) : Outcome i s t.complete :=
  .done _ h1 hb rfl h4.symm ((f.phase hp).trans (h3 _).symm) f.complete (by simp [h2])

/-- A composite command that completes. -/
theorem outcome_composite {i : Instr} {t : State} (hs : s.phase = .idle) (h1 : i.allowedIn .idle = true) (hb : ¬ i.badOperand s)
    (h3 : i.phaseAfter .idle = .idle) (h4 : accepts i = false) (h5 : i.writesSt = true) (h6 : i.writesPt = true)
    (f : State.Frame i s t) : Outcome i s t.destroySponge.complete :=
  .done _ (hs ▸ h1) hb rfl h4.symm (by rw [hs, h3]; rfl) (f.unit h5 h6 _ _ (Or.inr hs.symm)).complete (fun _ => rfl)

/-- The bytepad command's own computation of the length is the length (R147). -/
theorem bytepad_bad (x : Bytes) (n : NWord) :
    (n = 0 ∨ bmax < (bytepad x n.toNat).length) ↔ (n.toNat = 0 ∨ bmax < bytepadLength x n.toNat) := by
  have e : n = 0 ↔ n.toNat = 0 := by
    rw [← BitVec.toNat_inj]
    simp only [BitVec.ofNat_eq_ofNat, BitVec.toNat_ofNat, Nat.zero_mod]
  rw [e]
  rcases Nat.eq_zero_or_pos n.toNat with h | h
  · exact ⟨fun _ => Or.inl h, fun _ => Or.inl h⟩
  · rw [length_bytepad x h]

theorem finishDecrypt_outcome {i : Instr} (hs : s.phase = .idle) (hi : i = .symdec ∨ i = .asymdec) (res : Option Bytes) :
    Outcome i s (s.finishDecrypt res) := by
  cases res with
  | none => exact .rejected (by rcases hi with rfl | rfl <;> simp [Instr.allowedIn, Instr.isRaw, Instr.isComposite, hs]) hi
  | some m =>
    refine .done _ ?_ ?_ rfl ?_ ?_ (State.Frame.accepted (State.Frame.writeB ?_ ?_ m)) (fun _ => rfl)
    · rcases hi with rfl | rfl <;> simp [Instr.allowedIn, Instr.isRaw, Instr.isComposite, hs]
    · rcases hi with rfl | rfl <;> exact fun h => h
    · rcases hi with rfl | rfl <;> rfl
    · rcases hi with rfl | rfl <;> rw [hs] <;> rfl
    · rcases hi with rfl | rfl <;> exact (State.Frame.refl _ s).unit rfl rfl _ _ (Or.inr hs.symm)
    · rcases hi with rfl | rfl <;> exact List.mem_singleton.mpr rfl

theorem finishVerify_outcome (hs : s.phase = .idle) (ok : Bool) : Outcome .verify s (s.finishVerify ok) := by
  have h : Instr.allowedIn .verify s.phase = true := by simp [Instr.allowedIn, Instr.isRaw, Instr.isComposite, hs]
  cases ok with
  | false => exact .notVerified h rfl
  | true =>
    exact .done _ h (fun h => h) rfl rfl (by rw [hs]; rfl) ((State.Frame.refl _ s).unit rfl rfl _ _ (Or.inr hs.symm)).accepted
      (fun _ => rfl)

end Lemmas

/-- Every well-formed command answers, and with one of the outcomes. -/
theorem exec_outcome (i : Instr) (s : State) (hwf : i.wf = true) : ∃ t, exec i s = .next t ∧ Outcome i s t := by
  have idle : ∀ {j : Instr}, j.isRaw || j.isComposite = true → (∀ ph, j.allowedIn ph = (ph == .idle)) → s.phase ≠ .idle →
      Outcome j s (s.raise .seq) := fun _ h hp => .seq (by rw [h]; simpa using hp)
  cases i with
  | kround ir =>
    refine ⟨_, rfl, ?_⟩
    have : ir.toNat < 24 := by simp [Instr.wf] at hwf; omega
    simp only [this, dite_true]
    split
    · exact idle rfl (fun _ => rfl) ‹_›
    · rename_i hs
      rw [not_not] at hs
      exact outcome_free (by rw [hs]; rfl) rfl (fun _ => rfl) rfl rfl (fun h => h) ((State.Frame.refl _ s).setSt rfl _ rfl)
  | keccakf =>
    refine ⟨_, rfl, ?_⟩
    split
    · exact idle rfl (fun _ => rfl) ‹_›
    · rename_i hs
      rw [not_not] at hs
      exact outcome_free (by rw [hs]; rfl) rfl (fun _ => rfl) rfl rfl (fun h => h) ((State.Frame.refl _ s).setSt rfl _ rfl)
  | stld ra =>
    refine ⟨_, rfl, ?_⟩
    split
    · exact idle rfl (fun _ => rfl) ‹_›
    · rename_i hs
      rw [not_not] at hs
      split
      · exact .param (by rw [hs]; rfl) ‹_›
      · exact outcome_free (by rw [hs]; rfl) rfl (fun _ => rfl) rfl rfl ‹_›
          ((State.Frame.refl _ s).setSt rfl _ (Sponge.load_pt _ _))
  | strd rd =>
    refine ⟨_, rfl, ?_⟩
    split
    · exact idle rfl (fun _ => rfl) ‹_›
    · rename_i hs
      rw [not_not] at hs
      exact .done _ (by rw [hs]; rfl) (fun h => h) rfl rfl rfl
        ((State.Frame.refl _ s).writeB (List.mem_singleton.mpr rfl) _).complete (by simp [Instr.isComposite])
  | sinit =>
    exact ⟨_, rfl, .done _ rfl (fun h => h) rfl rfl rfl ((State.Frame.refl _ s).unit rfl rfl _ _ (Or.inl rfl)).complete
      (by simp [Instr.isComposite])⟩
  | sdone =>
    exact ⟨_, rfl, .done _ rfl (fun h => h) rfl rfl rfl ((State.Frame.refl _ s).unit rfl rfl _ _ (Or.inl rfl)).complete
      (by simp [Instr.isComposite])⟩
  | absorb ra =>
    refine ⟨_, rfl, ?_⟩
    split
    · exact .seq (by simpa [Instr.allowedIn] using ‹_›)
    · exact .done _ (by simp only [Instr.allowedIn, Bool.or_eq_true, beq_iff_eq]; tauto) (fun h => h) rfl rfl rfl
        ((State.Frame.refl _ s).unit rfl rfl _ _ (Or.inl rfl)).complete (by simp [Instr.isComposite])
  | final suffix =>
    refine ⟨_, rfl, ?_⟩
    split
    · exact .seq (by simpa [Instr.allowedIn] using ‹_›)
    · exact .done _ (by simp only [Instr.allowedIn, Bool.or_eq_true, beq_iff_eq]; tauto) (fun h => h) rfl rfl rfl
        ((State.Frame.refl _ s).unit rfl rfl _ _ (Or.inl rfl)).complete (by simp [Instr.isComposite])
  | squeeze rd ra =>
    refine ⟨_, rfl, ?_⟩
    split
    · exact .seq (by simpa [Instr.allowedIn] using ‹_›)
    · rename_i hs
      rw [not_not] at hs
      split
      · exact .param (by rw [hs]; rfl) ‹_›
      · exact .done _ (by rw [hs]; rfl) ‹_› rfl rfl rfl
          (((State.Frame.refl _ s).unit rfl rfl _ s.phase (Or.inr rfl)).writeB (List.mem_singleton.mpr rfl) _).complete
          (by simp [Instr.isComposite])
  | lenc rd ra =>
    exact ⟨_, rfl, outcome_free rfl rfl (fun _ => rfl) rfl rfl (fun h => h)
      ((State.Frame.refl _ s).writeB (List.mem_singleton.mpr rfl) _)⟩
  | renc rd ra =>
    exact ⟨_, rfl, outcome_free rfl rfl (fun _ => rfl) rfl rfl (fun h => h)
      ((State.Frame.refl _ s).writeB (List.mem_singleton.mpr rfl) _)⟩
  | i2b rd ra =>
    exact ⟨_, rfl, outcome_free rfl rfl (fun _ => rfl) rfl rfl (fun h => h)
      ((State.Frame.refl _ s).writeB (List.mem_singleton.mpr rfl) _)⟩
  | bclr rd =>
    exact ⟨_, rfl, outcome_free rfl rfl (fun _ => rfl) rfl rfl (fun h => h)
      ((State.Frame.refl _ s).writeB (List.mem_singleton.mpr rfl) _)⟩
  | nli rd imm =>
    exact ⟨_, rfl, outcome_free rfl rfl (fun _ => rfl) rfl rfl (fun h => h)
      ((State.Frame.refl _ s).writeN (List.mem_singleton.mpr rfl) _)⟩
  | encstr rd ra =>
    refine ⟨_, rfl, ?_⟩
    have hb : Instr.badOperand (.encstr rd ra) s ↔ bmax < (leftEncode (bitLength (s.readB ra))).length + (s.readB ra).length := by
      simp [Instr.badOperand, encodeString]
    split
    · exact .param rfl (hb.mpr ‹_›)
    · exact outcome_free rfl rfl (fun _ => rfl) rfl rfl (by rw [hb]; assumption)
        ((State.Frame.refl _ s).writeB (List.mem_singleton.mpr rfl) _)
  | bytepad rd ra rb =>
    refine ⟨_, rfl, ?_⟩
    have hb : Instr.badOperand (.bytepad rd ra rb) s ↔ _ := bytepad_bad (s.readB ra) (s.readN rb)
    split
    · exact .param rfl (hb.mpr (Or.inl ‹_›))
    · split
      · exact .param rfl (hb.mpr (Or.inr ‹_›))
      · exact outcome_free rfl rfl (fun _ => rfl) rfl rfl (by rw [hb]; tauto)
          ((State.Frame.refl _ s).writeB (List.mem_singleton.mpr rfl) _)
  | bcat rd ra rb =>
    refine ⟨_, rfl, ?_⟩
    split
    · exact .param rfl ‹_›
    · exact outcome_free rfl rfl (fun _ => rfl) rfl rfl ‹_› ((State.Frame.refl _ s).writeB (List.mem_singleton.mpr rfl) _)
  | bxor rd ra rb =>
    refine ⟨_, rfl, ?_⟩
    split
    · exact .param rfl ‹_›
    · exact outcome_free rfl rfl (fun _ => rfl) rfl rfl ‹_› ((State.Frame.refl _ s).writeB (List.mem_singleton.mpr rfl) _)
  | b2i rd ra =>
    refine ⟨_, rfl, ?_⟩
    split
    · exact .param rfl ‹_›
    · exact outcome_free rfl rfl (fun _ => rfl) rfl rfl ‹_› ((State.Frame.refl _ s).writeN (List.mem_singleton.mpr rfl) _)
  | cshake =>
    refine ⟨_, rfl, ?_⟩
    split
    · exact idle rfl (fun _ => rfl) ‹_›
    · rename_i hs
      rw [not_not] at hs
      split
      · exact .param (by rw [hs]; rfl) ((badOutputLength_eq _).mp ‹_›)
      · exact outcome_composite hs rfl (fun h => ‹¬ _› ((badOutputLength_eq _).mpr h)) rfl rfl rfl rfl
          ((State.Frame.refl _ s).writeB (List.mem_singleton.mpr rfl) _)
  | kmacxof =>
    refine ⟨_, rfl, ?_⟩
    split
    · exact idle rfl (fun _ => rfl) ‹_›
    · rename_i hs
      rw [not_not] at hs
      split
      · exact .param (by rw [hs]; rfl) ((badOutputLength_eq _).mp ‹_›)
      · exact outcome_composite hs rfl (fun h => ‹¬ _› ((badOutputLength_eq _).mpr h)) rfl rfl rfl rfl
          ((State.Frame.refl _ s).writeB (List.mem_singleton.mpr rfl) _)
  | pneut rd =>
    exact ⟨_, rfl, outcome_free rfl rfl (fun _ => rfl) rfl rfl (fun h => h)
      ((State.Frame.refl _ s).writeP (List.mem_singleton.mpr rfl) _)⟩
  | pgen rd =>
    exact ⟨_, rfl, outcome_free rfl rfl (fun _ => rfl) rfl rfl (fun h => h)
      ((State.Frame.refl _ s).writeP (List.mem_singleton.mpr rfl) _)⟩
  | pneg rd ra =>
    exact ⟨_, rfl, outcome_free rfl rfl (fun _ => rfl) rfl rfl (fun h => h)
      ((State.Frame.refl _ s).writeP (List.mem_singleton.mpr rfl) _)⟩
  | pset rd ra rb =>
    exact ⟨_, rfl, outcome_free rfl rfl (fun _ => rfl) rfl rfl (fun h => h)
      ((State.Frame.refl _ s).writeP (List.mem_singleton.mpr rfl) _)⟩
  | pgetx rd ra =>
    exact ⟨_, rfl, outcome_free rfl rfl (fun _ => rfl) rfl rfl (fun h => h)
      ((State.Frame.refl _ s).writeN (List.mem_singleton.mpr rfl) _)⟩
  | pgety rd ra =>
    exact ⟨_, rfl, outcome_free rfl rfl (fun _ => rfl) rfl rfl (fun h => h)
      ((State.Frame.refl _ s).writeN (List.mem_singleton.mpr rfl) _)⟩
  | pfromx rd ra lsb =>
    refine ⟨_, rfl, ?_⟩
    split
    · exact .invalidPoint rfl (fun h => h) rfl
    · exact outcome_free rfl rfl (fun _ => rfl) rfl rfl (fun h => h)
        ((State.Frame.refl _ s).writeP (List.mem_singleton.mpr rfl) _)
  | padd rd ra rb =>
    refine ⟨_, rfl, ?_⟩
    split
    · exact .divZero rfl (fun h => h) rfl
    · exact outcome_free rfl rfl (fun _ => rfl) rfl rfl (fun h => h)
        ((State.Frame.refl _ s).writeP (List.mem_singleton.mpr rfl) _)
  | pscale rd ra rb =>
    refine ⟨_, rfl, ?_⟩
    split
    · exact .divZero rfl (fun h => h) rfl
    · exact outcome_free rfl rfl (fun _ => rfl) rfl rfl (fun h => h)
        ((State.Frame.refl _ s).writeP (List.mem_singleton.mpr rfl) _)
  | keygen =>
    refine ⟨_, rfl, ?_⟩
    split
    · exact idle rfl (fun _ => rfl) ‹_›
    · rename_i hs
      rw [not_not] at hs
      obtain ⟨q, hq, -⟩ := pscale_onCurve (passwordScalar (s.readB BK)) onCurve_basePoint
      simp only [hq]
      exact outcome_composite hs rfl (fun h => h) rfl rfl rfl rfl
        (((State.Frame.refl _ s).writeN (List.mem_singleton.mpr rfl) _).writeP (List.mem_singleton.mpr rfl) _)
  | symenc =>
    refine ⟨_, rfl, ?_⟩
    split
    · exact idle rfl (fun _ => rfl) ‹_›
    · rename_i hs
      rw [not_not] at hs
      exact outcome_composite hs rfl (fun h => h) rfl rfl rfl rfl
        (((((State.Frame.refl _ s).takeDraw rfl).writeB (by decide) _).writeB (by decide) _).writeB (by decide) _)
  | symdec =>
    refine ⟨_, rfl, ?_⟩
    split
    · exact idle rfl (fun _ => rfl) ‹_›
    · exact finishDecrypt_outcome (not_not.mp ‹_›) (Or.inl rfl) _
  | asymenc =>
    refine ⟨_, rfl, ?_⟩
    split
    · exact idle rfl (fun _ => rfl) ‹_›
    · rename_i hs
      rw [not_not] at hs
      dsimp only
      split
      · exact outcome_composite hs rfl (fun h => h) rfl rfl rfl rfl
          (((((State.Frame.refl _ s).takeDraw rfl).writeP (by decide) _).writeB (by decide) _).writeB (by decide) _)
      · exact .drawLost (by rw [hs]; rfl) rfl
  | asymdec =>
    refine ⟨_, rfl, ?_⟩
    split
    · exact idle rfl (fun _ => rfl) ‹_›
    · rename_i hs
      rw [not_not] at hs
      split
      · exact .divZero (by rw [hs]; rfl) (fun h => h) rfl
      · exact finishDecrypt_outcome hs (Or.inr rfl) _
  | sign =>
    refine ⟨_, rfl, ?_⟩
    split
    · exact idle rfl (fun _ => rfl) ‹_›
    · rename_i hs
      rw [not_not] at hs
      obtain ⟨q, hq, -⟩ := pscale_onCurve (signatureNonce (passwordScalar (s.readB BK)) (s.readB BX)) onCurve_basePoint
      simp only [hq]
      exact outcome_composite hs rfl (fun h => h) rfl rfl rfl rfl
        (((State.Frame.refl _ s).writeB (List.mem_singleton.mpr rfl) _).writeN (List.mem_singleton.mpr rfl) _)
  | verify =>
    refine ⟨_, rfl, ?_⟩
    split
    · exact idle rfl (fun _ => rfl) ‹_›
    · rename_i hs
      rw [not_not] at hs
      split
      · exact finishVerify_outcome hs _
      · split
        · exact .divZero (by rw [hs]; rfl) (fun h => h) rfl
        · exact finishVerify_outcome hs _

/-- A round index above 23, which no word has, raises ILLEGAL (log 15). -/
theorem exec_kround_of_ge {ir : BitVec 5} (h : 24 ≤ ir.toNat) (s : State) : exec (.kround ir) s = .next (s.raise .illegal) := by
  simp [exec, execKround, show ¬ ir.toNat < 24 by omega]

end Sys2Proof.Machine
end

