-- ==== Sys2Proof/Laws/Group.lean ====
section
/-! SUPPORT. The points on the curve are a commutative group under `add`, `scale` is its multiple, and `G` has the order `r` (spec/45_e521.md
R190, R207, R209, R214). -/

namespace Sys2Proof.Machine

/-! ### Associativity -/

/-- The two ways to add three points, the x-coordinates cross-multiplied. -/
theorem assoc_x {R : Type} [CommRing R] {d x1 y1 x2 y2 x3 y3 : R}
    (h1 : x1 ^ 2 + y1 ^ 2 = 1 + d * x1 ^ 2 * y1 ^ 2) (h2 : x2 ^ 2 + y2 ^ 2 = 1 + d * x2 ^ 2 * y2 ^ 2)
    (h3 : x3 ^ 2 + y3 ^ 2 = 1 + d * x3 ^ 2 * y3 ^ 2) :
    ((x1 * y2 + y1 * x2) * (1 - d * x1 * x2 * y1 * y2) * y3 + (y1 * y2 - x1 * x2) * (1 + d * x1 * x2 * y1 * y2) * x3) *
      ((1 + d * x2 * x3 * y2 * y3) * (1 - d * x2 * x3 * y2 * y3)
        + d * (x2 * y3 + y2 * x3) * (y2 * y3 - x2 * x3) * x1 * y1) =
    ((x2 * y3 + y2 * x3) * (1 - d * x2 * x3 * y2 * y3) * y1 + (y2 * y3 - x2 * x3) * (1 + d * x2 * x3 * y2 * y3) * x1) *
      ((1 + d * x1 * x2 * y1 * y2) * (1 - d * x1 * x2 * y1 * y2)
        + d * (x1 * y2 + y1 * x2) * (y1 * y2 - x1 * x2) * x3 * y3) := by
    linear_combination
      (d ^ 2 * x1 * x2 ^ 4 * y2 ^ 3 * x3 ^ 2 * y3 - d ^ 2 * x1 * x2 ^ 3 * y2 ^ 4 * x3 * y3 ^ 2
        + d ^ 2 * y1 * x2 ^ 4 * y2 ^ 3 * x3 * y3 ^ 2 + d ^ 2 * y1 * x2 ^ 3 * y2 ^ 4 * x3 ^ 2 * y3
        - d * x1 * x2 ^ 4 * y2 * x3 ^ 2 * y3 - d * x1 * x2 ^ 3 * y2 ^ 2 * x3 ^ 3 + d * x1 * x2 ^ 3 * y2 ^ 2 * x3
        + d * x1 * x2 ^ 2 * y2 ^ 3 * y3 ^ 3 - d * x1 * x2 ^ 2 * y2 ^ 3 * y3 + d * x1 * x2 * y2 ^ 4 * x3 * y3 ^ 2
        - d * y1 * x2 ^ 4 * y2 * x3 * y3 ^ 2 + d * y1 * x2 ^ 3 * y2 ^ 2 * y3 ^ 3 - d * y1 * x2 ^ 3 * y2 ^ 2 * y3
        + d * y1 * x2 ^ 2 * y2 ^ 3 * x3 ^ 3 - d * y1 * x2 ^ 2 * y2 ^ 3 * x3 - d * y1 * x2 * y2 ^ 4 * x3 ^ 2 * y3) * h1 +
      (d * x1 ^ 3 * x2 ^ 2 * y2 * x3 ^ 2 * y3 - d * x1 ^ 3 * x2 * y2 ^ 2 * x3 * y3 ^ 2
        - d * x1 ^ 2 * y1 * x2 ^ 2 * y2 * x3 ^ 3 + d * x1 ^ 2 * y1 * x2 ^ 2 * y2 * x3
        - d * x1 ^ 2 * y1 * x2 * y2 ^ 2 * y3 ^ 3 + d * x1 ^ 2 * y1 * x2 * y2 ^ 2 * y3
        - d * x1 * y1 ^ 2 * x2 ^ 2 * y2 * y3 ^ 3 + d * x1 * y1 ^ 2 * x2 ^ 2 * y2 * y3
        + d * x1 * y1 ^ 2 * x2 * y2 ^ 2 * x3 ^ 3 - d * x1 * y1 ^ 2 * x2 * y2 ^ 2 * x3
        - d * x1 * x2 ^ 2 * y2 * x3 ^ 2 * y3 + d * x1 * x2 * y2 ^ 2 * x3 * y3 ^ 2
        + d * y1 ^ 3 * x2 ^ 2 * y2 * x3 * y3 ^ 2 + d * y1 ^ 3 * x2 * y2 ^ 2 * x3 ^ 2 * y3
        - d * y1 * x2 ^ 2 * y2 * x3 * y3 ^ 2 - d * y1 * x2 * y2 ^ 2 * x3 ^ 2 * y3) * h2 +
      (-d ^ 2 * x1 ^ 2 * y1 * x2 ^ 4 * y2 ^ 3 * x3 - d ^ 2 * x1 ^ 2 * y1 * x2 ^ 3 * y2 ^ 4 * y3
        - d ^ 2 * x1 * y1 ^ 2 * x2 ^ 4 * y2 ^ 3 * y3 + d ^ 2 * x1 * y1 ^ 2 * x2 ^ 3 * y2 ^ 4 * x3
        + d * x1 ^ 3 * x2 ^ 3 * y2 ^ 2 * x3 - d * x1 ^ 3 * x2 ^ 2 * y2 ^ 3 * y3 + d * x1 ^ 2 * y1 * x2 ^ 4 * y2 * x3
        + d * x1 ^ 2 * y1 * x2 * y2 ^ 4 * y3 + d * x1 * y1 ^ 2 * x2 ^ 4 * y2 * y3 - d * x1 * y1 ^ 2 * x2 * y2 ^ 4 * x3
        - d * x1 * x2 ^ 3 * y2 ^ 2 * x3 + d * x1 * x2 ^ 2 * y2 ^ 3 * y3 - d * y1 ^ 3 * x2 ^ 3 * y2 ^ 2 * y3
        - d * y1 ^ 3 * x2 ^ 2 * y2 ^ 3 * x3 + d * y1 * x2 ^ 3 * y2 ^ 2 * y3 + d * y1 * x2 ^ 2 * y2 ^ 3 * x3) * h3

/-- The two ways to add three points, the y-coordinates cross-multiplied. -/
theorem assoc_y {R : Type} [CommRing R] {d x1 y1 x2 y2 x3 y3 : R}
    (h1 : x1 ^ 2 + y1 ^ 2 = 1 + d * x1 ^ 2 * y1 ^ 2) (h2 : x2 ^ 2 + y2 ^ 2 = 1 + d * x2 ^ 2 * y2 ^ 2)
    (h3 : x3 ^ 2 + y3 ^ 2 = 1 + d * x3 ^ 2 * y3 ^ 2) :
    ((y1 * y2 - x1 * x2) * (1 + d * x1 * x2 * y1 * y2) * y3 - (x1 * y2 + y1 * x2) * (1 - d * x1 * x2 * y1 * y2) * x3) *
      ((1 + d * x2 * x3 * y2 * y3) * (1 - d * x2 * x3 * y2 * y3)
        - d * (x2 * y3 + y2 * x3) * (y2 * y3 - x2 * x3) * x1 * y1) =
    ((y2 * y3 - x2 * x3) * (1 + d * x2 * x3 * y2 * y3) * y1 - (x2 * y3 + y2 * x3) * (1 - d * x2 * x3 * y2 * y3) * x1) *
      ((1 + d * x1 * x2 * y1 * y2) * (1 - d * x1 * x2 * y1 * y2)
        - d * (x1 * y2 + y1 * x2) * (y1 * y2 - x1 * x2) * x3 * y3) := by
    linear_combination
      (-d ^ 2 * x1 * x2 ^ 4 * y2 ^ 3 * x3 * y3 ^ 2 - d ^ 2 * x1 * x2 ^ 3 * y2 ^ 4 * x3 ^ 2 * y3
        + d ^ 2 * y1 * x2 ^ 4 * y2 ^ 3 * x3 ^ 2 * y3 - d ^ 2 * y1 * x2 ^ 3 * y2 ^ 4 * x3 * y3 ^ 2
        + d * x1 * x2 ^ 4 * y2 * x3 * y3 ^ 2 - d * x1 * x2 ^ 3 * y2 ^ 2 * y3 ^ 3 + d * x1 * x2 ^ 3 * y2 ^ 2 * y3
        - d * x1 * x2 ^ 2 * y2 ^ 3 * x3 ^ 3 + d * x1 * x2 ^ 2 * y2 ^ 3 * x3 + d * x1 * x2 * y2 ^ 4 * x3 ^ 2 * y3
        - d * y1 * x2 ^ 4 * y2 * x3 ^ 2 * y3 - d * y1 * x2 ^ 3 * y2 ^ 2 * x3 ^ 3 + d * y1 * x2 ^ 3 * y2 ^ 2 * x3
        + d * y1 * x2 ^ 2 * y2 ^ 3 * y3 ^ 3 - d * y1 * x2 ^ 2 * y2 ^ 3 * y3 + d * y1 * x2 * y2 ^ 4 * x3 * y3 ^ 2) * h1 +
      (-d * x1 ^ 3 * x2 ^ 2 * y2 * x3 * y3 ^ 2 - d * x1 ^ 3 * x2 * y2 ^ 2 * x3 ^ 2 * y3
        - d * x1 ^ 2 * y1 * x2 ^ 2 * y2 * y3 ^ 3 + d * x1 ^ 2 * y1 * x2 ^ 2 * y2 * y3
        + d * x1 ^ 2 * y1 * x2 * y2 ^ 2 * x3 ^ 3 - d * x1 ^ 2 * y1 * x2 * y2 ^ 2 * x3
        + d * x1 * y1 ^ 2 * x2 ^ 2 * y2 * x3 ^ 3 - d * x1 * y1 ^ 2 * x2 ^ 2 * y2 * x3
        + d * x1 * y1 ^ 2 * x2 * y2 ^ 2 * y3 ^ 3 - d * x1 * y1 ^ 2 * x2 * y2 ^ 2 * y3
        + d * x1 * x2 ^ 2 * y2 * x3 * y3 ^ 2 + d * x1 * x2 * y2 ^ 2 * x3 ^ 2 * y3
        + d * y1 ^ 3 * x2 ^ 2 * y2 * x3 ^ 2 * y3 - d * y1 ^ 3 * x2 * y2 ^ 2 * x3 * y3 ^ 2
        - d * y1 * x2 ^ 2 * y2 * x3 ^ 2 * y3 + d * y1 * x2 * y2 ^ 2 * x3 * y3 ^ 2) * h2 +
      (-d ^ 2 * x1 ^ 2 * y1 * x2 ^ 4 * y2 ^ 3 * y3 + d ^ 2 * x1 ^ 2 * y1 * x2 ^ 3 * y2 ^ 4 * x3
        + d ^ 2 * x1 * y1 ^ 2 * x2 ^ 4 * y2 ^ 3 * x3 + d ^ 2 * x1 * y1 ^ 2 * x2 ^ 3 * y2 ^ 4 * y3
        + d * x1 ^ 3 * x2 ^ 3 * y2 ^ 2 * y3 + d * x1 ^ 3 * x2 ^ 2 * y2 ^ 3 * x3 + d * x1 ^ 2 * y1 * x2 ^ 4 * y2 * y3
        - d * x1 ^ 2 * y1 * x2 * y2 ^ 4 * x3 - d * x1 * y1 ^ 2 * x2 ^ 4 * y2 * x3 - d * x1 * y1 ^ 2 * x2 * y2 ^ 4 * y3
        - d * x1 * x2 ^ 3 * y2 ^ 2 * y3 - d * x1 * x2 ^ 2 * y2 ^ 3 * x3 + d * y1 ^ 3 * x2 ^ 3 * y2 ^ 2 * x3
        - d * y1 ^ 3 * x2 ^ 2 * y2 ^ 3 * y3 - d * y1 * x2 ^ 3 * y2 ^ 2 * x3 + d * y1 * x2 ^ 2 * y2 ^ 3 * y3) * h3

/-- `add` is associative on the curve (R207). -/
theorem padd_assoc {q1 q2 q3 q12 q23 : Point} (h1 : onCurve q1 = true) (h2 : onCurve q2 = true) (h3 : onCurve q3 = true)
    (h12 : padd q1 q2 = some q12) (h23 : padd q2 q3 = some q23) : padd q12 q3 = padd q1 q23 := by
  have : Fact fieldPrime.Prime := ⟨fieldPrime_prime⟩
  obtain ⟨s, hs, -⟩ := padd_onCurve (onCurve_of_padd h1 h2 h12) h3
  obtain ⟨s', hs', -⟩ := padd_onCurve h1 (onCurve_of_padd h2 h3 h23)
  rw [hs, hs', Option.some.injEq]
  obtain ⟨u1, d1, x12, y12⟩ := (padd_eq_some_iff _ _ _).mp h12
  obtain ⟨u2, d2, x23, y23⟩ := (padd_eq_some_iff _ _ _).mp h23
  obtain ⟨u3, d3, xs, ys⟩ := (padd_eq_some_iff _ _ _).mp hs
  obtain ⟨u4, d4, xs', ys'⟩ := (padd_eq_some_iff _ _ _).mp hs'
  rw [onCurve_iff] at h1 h2 h3
  have ax := assoc_x h1 h2 h3
  have ay := assoc_y h1 h2 h3
  unfold crossTerm at *
  generalize feZ curveD = d at *
  generalize feZ q1.x = a1 at *
  generalize feZ q1.y = b1 at *
  generalize feZ q2.x = a2 at *
  generalize feZ q2.y = b2 at *
  generalize feZ q3.x = a3 at *
  generalize feZ q3.y = b3 at *
  rw [← x12, ← y12, ← x23, ← y23] at ax ay
  have m1 := mul_ne_zero u1 d1
  have m2 := mul_ne_zero u2 d2
  apply Point.ext_feZ
  · apply mul_right_cancel₀ (mul_ne_zero (mul_ne_zero m1 u3) (mul_ne_zero m2 u4))
    linear_combination
      ((1 + d * a2 * a3 * b2 * b3) * (1 - d * a2 * a3 * b2 * b3) * (1 + d * a1 * feZ q23.x * b1 * feZ q23.y)
        * (1 + d * a1 * a2 * b1 * b2) * (1 - d * a1 * a2 * b1 * b2)) * xs
      - ((1 + d * a1 * a2 * b1 * b2) * (1 - d * a1 * a2 * b1 * b2) * (1 + d * feZ q12.x * a3 * feZ q12.y * b3)
        * (1 + d * a2 * a3 * b2 * b3) * (1 - d * a2 * a3 * b2 * b3)) * xs' + ax
  · apply mul_right_cancel₀ (mul_ne_zero (mul_ne_zero m1 d3) (mul_ne_zero m2 d4))
    linear_combination
      ((1 + d * a2 * a3 * b2 * b3) * (1 - d * a2 * a3 * b2 * b3) * (1 - d * a1 * feZ q23.x * b1 * feZ q23.y)
        * (1 + d * a1 * a2 * b1 * b2) * (1 - d * a1 * a2 * b1 * b2)) * ys
      - ((1 + d * a1 * a2 * b1 * b2) * (1 - d * a1 * a2 * b1 * b2) * (1 - d * feZ q12.x * a3 * feZ q12.y * b3)
        * (1 + d * a2 * a3 * b2 * b3) * (1 - d * a2 * a3 * b2 * b3)) * ys' + ay

/-! ### The group -/

/-- A point on the curve. -/
abbrev CurvePoint := {q : Point // onCurve q = true}

/-- The sum of two points on the curve. -/
noncomputable def curveAdd (q1 q2 : CurvePoint) : CurvePoint :=
  ⟨(padd_onCurve q1.2 q2.2).choose, (padd_onCurve q1.2 q2.2).choose_spec.2⟩

theorem padd_curveAdd (q1 q2 : CurvePoint) : padd q1.1 q2.1 = some (curveAdd q1 q2).1 :=
  (padd_onCurve q1.2 q2.2).choose_spec.1

/-- The group of the points on the curve (R207). -/
@[reducible] noncomputable def curveGroup : AddCommGroup CurvePoint where
  add := curveAdd
  add_assoc a b c := Subtype.ext (Option.some.inj (by
    change some (curveAdd (curveAdd a b) c).1 = some (curveAdd a (curveAdd b c)).1
    rw [← padd_curveAdd, ← padd_curveAdd]
    exact padd_assoc a.2 b.2 c.2 (padd_curveAdd a b) (padd_curveAdd b c)))
  zero := ⟨neutral, onCurve_neutral⟩
  zero_add a := Subtype.ext (Option.some.inj ((padd_curveAdd _ _).symm.trans (neutral_padd _)))
  add_zero a := Subtype.ext (Option.some.inj ((padd_curveAdd _ _).symm.trans (padd_neutral _)))
  nsmul := @nsmulRec CurvePoint ⟨⟨neutral, onCurve_neutral⟩⟩ ⟨curveAdd⟩
  neg a := ⟨negate a.1, onCurve_negate a.2⟩
  zsmul := @zsmulRec CurvePoint ⟨⟨neutral, onCurve_neutral⟩⟩ ⟨curveAdd⟩ ⟨fun a => ⟨negate a.1, onCurve_negate a.2⟩⟩
    (@nsmulRec CurvePoint ⟨⟨neutral, onCurve_neutral⟩⟩ ⟨curveAdd⟩)
  neg_add_cancel a := Subtype.ext (Option.some.inj (by
    refine (padd_curveAdd _ _).symm.trans ?_
    rw [padd_comm]
    exact padd_negate a.2))
  add_comm a b := Subtype.ext (Option.some.inj (by
    refine (padd_curveAdd _ _).symm.trans ?_
    rw [padd_comm]
    exact padd_curveAdd _ _))

/-! ### Scaling is the multiple -/

theorem scaleLoop_eq (m k : Nat) (acc addend : CurvePoint) :
    letI := curveGroup
    scaleLoop m k acc.1 addend.1 = some (acc + (k % 2 ^ m) • addend).1 := by
  let := curveGroup
  induction m generalizing k acc addend with
  | zero => simp [scaleLoop, Nat.mod_one]
  | succ m ih =>
    have hadd : ∀ a b : CurvePoint, padd a.1 b.1 = some (a + b).1 := padd_curveAdd
    have hk : k % 2 ^ (m + 1) = k % 2 + 2 * (k / 2 % 2 ^ m) := by rw [pow_succ', Nat.mod_mul]
    unfold scaleLoop
    by_cases h : k % 2 = 1
    · simp only [h, if_true, hadd, ih]
      rw [hk, h, add_smul, one_smul, mul_comm, mul_smul, two_smul, add_assoc]
    · simp only [h, if_false, hadd, ih]
      rw [hk, show k % 2 = 0 by omega, zero_add, mul_comm, mul_smul, two_smul]

/-- `scale` is the multiple (R209). -/
theorem pscale_eq_smul (k : Nat) (q : CurvePoint) :
    letI := curveGroup
    pscale k q.1 = some (k • q).1 := by
  let := curveGroup
  have h : neutral = (0 : CurvePoint).1 := rfl
  rw [pscale, h, scaleLoop_eq, Nat.mod_eq_of_lt (lt_two_pow_bitlen k), zero_add]

/-- `scale(1, P) = P` for every pair whose double exists (R209, R214). -/
theorem pscale_one {q : Point} (h : onCurve q = true) : pscale 1 q = some q := by
  let := curveGroup
  rw [pscale_eq_smul 1 ⟨q, h⟩, one_smul]

/-- `scale(a + b, P) = add(scale(a, P), scale(b, P))` on the curve (R214). -/
theorem pscale_add (a b : Nat) {q qa qb : Point} (h : onCurve q = true) (ha : pscale a q = some qa) (hb : pscale b q = some qb) :
    pscale (a + b) q = padd qa qb := by
  let := curveGroup
  rw [pscale_eq_smul _ ⟨q, h⟩, Option.some.injEq] at ha hb
  subst ha hb
  rw [pscale_eq_smul (a + b) ⟨q, h⟩, add_smul]
  exact (padd_curveAdd _ _).symm

/-- `scale(a, scale(b, P)) = scale(a·b, P)` on the curve (R242). -/
theorem pscale_mul (a b : Nat) {q qb : Point} (h : onCurve q = true) (hb : pscale b q = some qb) :
    pscale a qb = pscale (a * b) q := by
  let := curveGroup
  rw [pscale_eq_smul _ ⟨q, h⟩, Option.some.injEq] at hb
  subst hb
  rw [pscale_eq_smul a, pscale_eq_smul (a * b) ⟨q, h⟩, mul_smul]

/-! ### The order of the base point -/

/-- Projective coordinates: the point is `(X/Z, Y/Z)`. -/
structure Proj where
  x : Fe
  y : Fe
  z : Fe

/-- The addition law without a division. -/
def Proj.add (a b : Proj) : Proj :=
  let c := a.x * b.x
  let e := a.y * b.y
  let g := a.z * b.z
  let gg := g * g
  let t := curveD * c * e
  { x := g * (gg - t) * (a.x * b.y + a.y * b.x)
    y := g * (gg + t) * (e - c)
    z := (gg - t) * (gg + t) }

/-- The coordinates stand for the point. -/
structure Proj.Rep (a : Proj) (q : CurvePoint) : Prop where
  ne : feZ a.z ≠ 0
  x : feZ q.1.x * feZ a.z = feZ a.x
  y : feZ q.1.y * feZ a.z = feZ a.y

theorem Proj.Rep.add {a b : Proj} {q1 q2 : CurvePoint} (ha : a.Rep q1) (hb : b.Rep q2) :
    letI := curveGroup
    (a.add b).Rep (q1 + q2) := by
  have : Fact fieldPrime.Prime := ⟨fieldPrime_prime⟩
  let := curveGroup
  obtain ⟨hu, hd, hx, hy⟩ := (padd_eq_some_iff _ _ _).mp (padd_curveAdd q1 q2)
  change feZ (q1 + q2).1.x * _ = _ at hx
  change feZ (q1 + q2).1.y * _ = _ at hy
  have hax := ha.x
  have hay := ha.y
  have hbx := hb.x
  have hby := hb.y
  have hg := mul_ne_zero ha.ne hb.ne
  unfold crossTerm at *
  have e1 : feZ ((a.z * b.z) * (a.z * b.z) + curveD * (a.x * b.x) * (a.y * b.y)) =
      (feZ a.z * feZ b.z) ^ 2 * (1 + feZ curveD * feZ q1.1.x * feZ q2.1.x * feZ q1.1.y * feZ q2.1.y) := by
    simp only [feZ_add, feZ_mul, ← hax, ← hay, ← hbx, ← hby]; ring
  have e2 : feZ ((a.z * b.z) * (a.z * b.z) - curveD * (a.x * b.x) * (a.y * b.y)) =
      (feZ a.z * feZ b.z) ^ 2 * (1 - feZ curveD * feZ q1.1.x * feZ q2.1.x * feZ q1.1.y * feZ q2.1.y) := by
    simp only [feZ_sub, feZ_mul, ← hax, ← hay, ← hbx, ← hby]; ring
  refine ⟨?_, ?_, ?_⟩
  · simp only [Proj.add]
    rw [feZ_mul, e1, e2]
    exact mul_ne_zero (mul_ne_zero (pow_ne_zero 2 hg) hd) (mul_ne_zero (pow_ne_zero 2 hg) hu)
  · simp only [Proj.add]
    rw [feZ_mul, feZ_mul, feZ_mul, e1, e2]
    simp only [feZ_add, feZ_mul, ← hax, ← hay, ← hbx, ← hby]
    linear_combination (feZ a.z * feZ b.z) ^ 4 *
      (1 - feZ curveD * feZ q1.1.x * feZ q2.1.x * feZ q1.1.y * feZ q2.1.y) * hx
  · simp only [Proj.add]
    rw [feZ_mul, feZ_mul, feZ_mul, e1, e2]
    simp only [feZ_sub, feZ_mul, ← hax, ← hay, ← hbx, ← hby]
    linear_combination (feZ a.z * feZ b.z) ^ 4 *
      (1 + feZ curveD * feZ q1.1.x * feZ q2.1.x * feZ q1.1.y * feZ q2.1.y) * hy

/-- Double and add without a division. -/
def Proj.loop : Nat → Nat → Proj → Proj → Proj
  | 0, _, acc, _ => acc
  | m + 1, k, acc, addend => Proj.loop m (k / 2) (if k % 2 = 1 then acc.add addend else acc) (addend.add addend)

theorem Proj.Rep.loop (m k : Nat) {acc addend : Proj} {q1 q2 : CurvePoint} (ha : acc.Rep q1) (hb : addend.Rep q2) :
    letI := curveGroup
    (Proj.loop m k acc addend).Rep (q1 + (k % 2 ^ m) • q2) := by
  let := curveGroup
  induction m generalizing k acc addend q1 q2 with
  | zero => simpa [Proj.loop, Nat.mod_one] using ha
  | succ m ih =>
    have hk : k % 2 ^ (m + 1) = k % 2 + 2 * (k / 2 % 2 ^ m) := by rw [pow_succ', Nat.mod_mul]
    unfold Proj.loop
    by_cases h : k % 2 = 1
    · rw [if_pos h, hk, h, add_smul, one_smul, mul_comm, mul_smul, two_smul, ← add_assoc]
      exact ih _ (ha.add hb) (hb.add hb)
    · rw [if_neg h, hk, show k % 2 = 0 by omega, zero_add, mul_comm, mul_smul, two_smul]
      exact ih _ ha (hb.add hb)

/-- The computation that shows the order: the result has `X = 0` and `Y = Z ≠ 0`. -/
theorem loop_groupOrder :
    (fun a : Proj => (a.x.val, a.y == a.z, a.z.val != 0))
      (Proj.loop 521 groupOrder ⟨fe 0, fe 1, fe 1⟩ ⟨basePoint.x, basePoint.y, fe 1⟩) = (0, true, true) := by decide +kernel

/-- The base point as a point on the curve. -/
def curveBase : CurvePoint := ⟨basePoint, onCurve_basePoint⟩

/-- `r·G = (0, 1)` (R190). -/
theorem groupOrder_smul :
    letI := curveGroup
    groupOrder • curveBase = 0 := by
  have : Fact fieldPrime.Prime := ⟨fieldPrime_prime⟩
  let := curveGroup
  have hrep := Proj.Rep.loop 521 groupOrder (acc := ⟨fe 0, fe 1, fe 1⟩) (addend := ⟨basePoint.x, basePoint.y, fe 1⟩) (q1 := 0)
    (q2 := curveBase) ⟨by simp, by change feZ neutral.x * _ = _; simp, by change feZ neutral.y * _ = _; simp⟩
    ⟨by simp, by simp [curveBase], by simp [curveBase]⟩
  rw [Nat.mod_eq_of_lt (by decide +kernel), zero_add] at hrep
  have h := loop_groupOrder
  generalize Proj.loop 521 groupOrder ⟨fe 0, fe 1, fe 1⟩ ⟨basePoint.x, basePoint.y, fe 1⟩ = a at *
  simp only [Prod.mk.injEq, beq_iff_eq, val_eq_zero_iff] at h
  obtain ⟨hx, hy, -⟩ := h
  have h0 := hrep.ne
  apply Subtype.ext
  apply Point.ext_feZ
  · change _ = feZ neutral.x
    rw [feZ_neutral_x]
    exact (mul_eq_zero.mp (hrep.x.trans hx)).resolve_right h0
  · change _ = feZ neutral.y
    rw [feZ_neutral_y]
    apply mul_right_cancel₀ h0
    rw [hrep.y, hy, one_mul]

/-- `scale(r, G) = (0, 1)` (R190). -/
theorem pscale_groupOrder : pscale groupOrder basePoint = some neutral := by
  let := curveGroup
  rw [show basePoint = curveBase.1 from rfl, pscale_eq_smul, groupOrder_smul]
  rfl

/-- A multiple of `G` depends on the scalar modulo `r` only (R245). -/
theorem smul_curveBase_eq (a b : Nat) (h : a % groupOrder = b % groupOrder) :
    letI := curveGroup
    a • curveBase = b • curveBase := by
  let := curveGroup
  have key : ∀ c : Nat, c • curveBase = (c % groupOrder) • curveBase := fun c => by
    conv_lhs => rw [← Nat.mod_add_div c groupOrder, add_smul, mul_comm, mul_smul, groupOrder_smul, smul_zero, add_zero]
  rw [key a, key b, h]

end Sys2Proof.Machine
end

