-- ==== Sys2Proof/Laws/PerInstr.lean ====
section
/-! SUPPORT. The statements made per command: about the command as syntax, one lemma a constructor. -/

namespace Sys2Proof.Laws

/-- Masking an index field with the bits an eight-register file leaves unused gives 0 (R72). -/
theorem index8_mask (i : Fin 8) : indexField i &&& 8 = 0 := by revert i; decide

/-- Masking an index field with the bits a four-register file leaves unused gives 0 (R72). -/
theorem index4_mask (i : Fin 4) : indexField i &&& 12 = 0 := by revert i; decide

theorem ir_mask (ir : BitVec 5) : ir.setWidth 12 &&& 0xFE0 = 0 := by revert ir; decide

theorem suffix_mask (suffix : Byte) : suffix.setWidth 12 &&& 0xF00 = 0 := by revert suffix; decide

theorem imm_mask (imm : BitVec 12) : imm &&& 0 = 0 := BitVec.and_zero

theorem lsb_mask (lsb : BitVec 1) : lsb.setWidth 12 &&& 0xFFE = 0 := by revert lsb; decide

/-- The family: the word of a command fits the row of the opcode map that has its mnemonic, and no other row (R74). -/
def EncodesRow.Statement (i : Instr) : Prop :=
  ∀ row ∈ opcodeTable, (encode i &&& row.mask = row.pattern ↔ row.mnemonic = i.mnemonic)

theorem opField_and (v w : CommandWord) : opField (v &&& w) = opField v &&& opField w := BitVec.extractLsb'_and

/-- Every mask keeps the whole opcode field (R74). -/
theorem opField_mask : ∀ row ∈ opcodeTable, opField row.mask = 0xFF := by decide

/-- No two rows have one opcode (R74). -/
theorem row_eq_of_opField : ∀ r ∈ opcodeTable, ∀ r' ∈ opcodeTable, opField r.pattern = opField r'.pattern → r = r' := by
  decide +kernel

/-- No two rows have one mnemonic (R74). -/
theorem row_eq_of_mnemonic : ∀ r ∈ opcodeTable, ∀ r' ∈ opcodeTable, r.mnemonic = r'.mnemonic → r = r' := by decide +kernel

/-- The row a word fits is the row of its opcode. -/
theorem opField_of_fits {w : CommandWord} {row : OpcodeRow} (hr : row ∈ opcodeTable) (h : w &&& row.mask = row.pattern) :
    opField w = opField row.pattern := by
  rw [← h, opField_and, opField_mask row hr]
  exact BitVec.and_allOnes.symm

/-- It is enough to name the one row the command's word fits. -/
theorem EncodesRow.of_row {i : Instr} (row : OpcodeRow) (hr : row ∈ opcodeTable) (hm : row.mnemonic = i.mnemonic)
    (h : encode i &&& row.mask = row.pattern) : EncodesRow.Statement i := by
  intro r hr'
  constructor
  · intro h'
    have := (opField_of_fits hr' h').symm.trans (opField_of_fits hr h)
    rw [row_eq_of_opField r hr' row hr this, hm]
  · intro h'
    rw [row_eq_of_mnemonic r hr' row hr (h'.trans hm.symm), h]

theorem EncodesRow.kround (ir : BitVec 5) : EncodesRow.Statement (.kround ir) := by
  refine EncodesRow.of_row ⟨"KROUND", 0x00000010, 0xFE0FFFFF⟩ (by decide) rfl ?_
  rw [show (0xFE0FFFFF : CommandWord) = packWord 0xFF 15 15 15 0xFE0 by decide]
  simp only [encode, packWord_and, ir_mask]
  rfl

theorem EncodesRow.keccakf : EncodesRow.Statement .keccakf := by
  refine EncodesRow.of_row ⟨"KECCAKF", 0x00000011, 0xFFFFFFFF⟩ (by decide) rfl ?_
  decide

theorem EncodesRow.stld (ra : BReg) : EncodesRow.Statement (.stld ra) := by
  refine EncodesRow.of_row ⟨"STLD", 0x00000012, 0xFFFF8FFF⟩ (by decide) rfl ?_
  rw [show (0xFFFF8FFF : CommandWord) = packWord 0xFF 15 8 15 0xFFF by decide]
  simp only [encode, packWord_and, index8_mask]
  rfl

theorem EncodesRow.strd (rd : BReg) : EncodesRow.Statement (.strd rd) := by
  refine EncodesRow.of_row ⟨"STRD", 0x00000013, 0xFFFFF8FF⟩ (by decide) rfl ?_
  rw [show (0xFFFFF8FF : CommandWord) = packWord 0xFF 8 15 15 0xFFF by decide]
  simp only [encode, packWord_and, index8_mask]
  rfl

theorem EncodesRow.sinit : EncodesRow.Statement .sinit := by
  refine EncodesRow.of_row ⟨"SINIT", 0x00000020, 0xFFFFFFFF⟩ (by decide) rfl ?_
  decide

theorem EncodesRow.absorb (ra : BReg) : EncodesRow.Statement (.absorb ra) := by
  refine EncodesRow.of_row ⟨"ABSORB", 0x00000021, 0xFFFF8FFF⟩ (by decide) rfl ?_
  rw [show (0xFFFF8FFF : CommandWord) = packWord 0xFF 15 8 15 0xFFF by decide]
  simp only [encode, packWord_and, index8_mask]
  rfl

theorem EncodesRow.final (suffix : Byte) : EncodesRow.Statement (.final suffix) := by
  refine EncodesRow.of_row ⟨"FINAL", 0x00000022, 0xF00FFFFF⟩ (by decide) rfl ?_
  rw [show (0xF00FFFFF : CommandWord) = packWord 0xFF 15 15 15 0xF00 by decide]
  simp only [encode, packWord_and, suffix_mask]
  rfl

theorem EncodesRow.squeeze (rd : BReg) (ra : NReg) : EncodesRow.Statement (.squeeze rd ra) := by
  refine EncodesRow.of_row ⟨"SQUEEZE", 0x00000023, 0xFFFF88FF⟩ (by decide) rfl ?_
  rw [show (0xFFFF88FF : CommandWord) = packWord 0xFF 8 8 15 0xFFF by decide]
  simp only [encode, packWord_and, index8_mask]
  rfl

theorem EncodesRow.sdone : EncodesRow.Statement .sdone := by
  refine EncodesRow.of_row ⟨"SDONE", 0x00000024, 0xFFFFFFFF⟩ (by decide) rfl ?_
  decide

theorem EncodesRow.lenc (rd : BReg) (ra : NReg) : EncodesRow.Statement (.lenc rd ra) := by
  refine EncodesRow.of_row ⟨"LENC", 0x00000030, 0xFFFF88FF⟩ (by decide) rfl ?_
  rw [show (0xFFFF88FF : CommandWord) = packWord 0xFF 8 8 15 0xFFF by decide]
  simp only [encode, packWord_and, index8_mask]
  rfl

theorem EncodesRow.renc (rd : BReg) (ra : NReg) : EncodesRow.Statement (.renc rd ra) := by
  refine EncodesRow.of_row ⟨"RENC", 0x00000031, 0xFFFF88FF⟩ (by decide) rfl ?_
  rw [show (0xFFFF88FF : CommandWord) = packWord 0xFF 8 8 15 0xFFF by decide]
  simp only [encode, packWord_and, index8_mask]
  rfl

theorem EncodesRow.encstr (rd : BReg) (ra : BReg) : EncodesRow.Statement (.encstr rd ra) := by
  refine EncodesRow.of_row ⟨"ENCSTR", 0x00000032, 0xFFFF88FF⟩ (by decide) rfl ?_
  rw [show (0xFFFF88FF : CommandWord) = packWord 0xFF 8 8 15 0xFFF by decide]
  simp only [encode, packWord_and, index8_mask]
  rfl

theorem EncodesRow.bytepad (rd : BReg) (ra : BReg) (rb : NReg) : EncodesRow.Statement (.bytepad rd ra rb) := by
  refine EncodesRow.of_row ⟨"BYTEPAD", 0x00000033, 0xFFF888FF⟩ (by decide) rfl ?_
  rw [show (0xFFF888FF : CommandWord) = packWord 0xFF 8 8 8 0xFFF by decide]
  simp only [encode, packWord_and, index8_mask]
  rfl

theorem EncodesRow.bcat (rd : BReg) (ra : BReg) (rb : BReg) : EncodesRow.Statement (.bcat rd ra rb) := by
  refine EncodesRow.of_row ⟨"BCAT", 0x00000034, 0xFFF888FF⟩ (by decide) rfl ?_
  rw [show (0xFFF888FF : CommandWord) = packWord 0xFF 8 8 8 0xFFF by decide]
  simp only [encode, packWord_and, index8_mask]
  rfl

theorem EncodesRow.bxor (rd : BReg) (ra : BReg) (rb : BReg) : EncodesRow.Statement (.bxor rd ra rb) := by
  refine EncodesRow.of_row ⟨"BXOR", 0x00000035, 0xFFF888FF⟩ (by decide) rfl ?_
  rw [show (0xFFF888FF : CommandWord) = packWord 0xFF 8 8 8 0xFFF by decide]
  simp only [encode, packWord_and, index8_mask]
  rfl

theorem EncodesRow.b2i (rd : NReg) (ra : BReg) : EncodesRow.Statement (.b2i rd ra) := by
  refine EncodesRow.of_row ⟨"B2I", 0x00000036, 0xFFFF88FF⟩ (by decide) rfl ?_
  rw [show (0xFFFF88FF : CommandWord) = packWord 0xFF 8 8 15 0xFFF by decide]
  simp only [encode, packWord_and, index8_mask]
  rfl

theorem EncodesRow.i2b (rd : BReg) (ra : NReg) : EncodesRow.Statement (.i2b rd ra) := by
  refine EncodesRow.of_row ⟨"I2B", 0x00000037, 0xFFFF88FF⟩ (by decide) rfl ?_
  rw [show (0xFFFF88FF : CommandWord) = packWord 0xFF 8 8 15 0xFFF by decide]
  simp only [encode, packWord_and, index8_mask]
  rfl

theorem EncodesRow.nli (rd : NReg) (imm : BitVec 12) : EncodesRow.Statement (.nli rd imm) := by
  refine EncodesRow.of_row ⟨"NLI", 0x00000038, 0x000FF8FF⟩ (by decide) rfl ?_
  rw [show (0x000FF8FF : CommandWord) = packWord 0xFF 8 15 15 0x000 by decide]
  simp only [encode, packWord_and, index8_mask, imm_mask]
  rfl

theorem EncodesRow.bclr (rd : BReg) : EncodesRow.Statement (.bclr rd) := by
  refine EncodesRow.of_row ⟨"BCLR", 0x00000039, 0xFFFFF8FF⟩ (by decide) rfl ?_
  rw [show (0xFFFFF8FF : CommandWord) = packWord 0xFF 8 15 15 0xFFF by decide]
  simp only [encode, packWord_and, index8_mask]
  rfl

theorem EncodesRow.cshake : EncodesRow.Statement .cshake := by
  refine EncodesRow.of_row ⟨"CSHAKE", 0x00000040, 0xFFFFFFFF⟩ (by decide) rfl ?_
  decide

theorem EncodesRow.kmacxof : EncodesRow.Statement .kmacxof := by
  refine EncodesRow.of_row ⟨"KMACXOF", 0x00000041, 0xFFFFFFFF⟩ (by decide) rfl ?_
  decide

theorem EncodesRow.pneut (rd : PReg) : EncodesRow.Statement (.pneut rd) := by
  refine EncodesRow.of_row ⟨"PNEUT", 0x00000050, 0xFFFFFCFF⟩ (by decide) rfl ?_
  rw [show (0xFFFFFCFF : CommandWord) = packWord 0xFF 12 15 15 0xFFF by decide]
  simp only [encode, packWord_and, index4_mask]
  rfl

theorem EncodesRow.pgen (rd : PReg) : EncodesRow.Statement (.pgen rd) := by
  refine EncodesRow.of_row ⟨"PGEN", 0x00000051, 0xFFFFFCFF⟩ (by decide) rfl ?_
  rw [show (0xFFFFFCFF : CommandWord) = packWord 0xFF 12 15 15 0xFFF by decide]
  simp only [encode, packWord_and, index4_mask]
  rfl

theorem EncodesRow.pfromx (rd : PReg) (ra : NReg) (lsb : BitVec 1) : EncodesRow.Statement (.pfromx rd ra lsb) := by
  refine EncodesRow.of_row ⟨"PFROMX", 0x00000052, 0xFFEF8CFF⟩ (by decide) rfl ?_
  rw [show (0xFFEF8CFF : CommandWord) = packWord 0xFF 12 8 15 0xFFE by decide]
  simp only [encode, packWord_and, index4_mask, index8_mask, lsb_mask]
  rfl

theorem EncodesRow.pneg (rd : PReg) (ra : PReg) : EncodesRow.Statement (.pneg rd ra) := by
  refine EncodesRow.of_row ⟨"PNEG", 0x00000053, 0xFFFFCCFF⟩ (by decide) rfl ?_
  rw [show (0xFFFFCCFF : CommandWord) = packWord 0xFF 12 12 15 0xFFF by decide]
  simp only [encode, packWord_and, index4_mask]
  rfl

theorem EncodesRow.padd (rd : PReg) (ra : PReg) (rb : PReg) : EncodesRow.Statement (.padd rd ra rb) := by
  refine EncodesRow.of_row ⟨"PADD", 0x00000054, 0xFFFCCCFF⟩ (by decide) rfl ?_
  rw [show (0xFFFCCCFF : CommandWord) = packWord 0xFF 12 12 12 0xFFF by decide]
  simp only [encode, packWord_and, index4_mask]
  rfl

theorem EncodesRow.pscale (rd : PReg) (ra : NReg) (rb : PReg) : EncodesRow.Statement (.pscale rd ra rb) := by
  refine EncodesRow.of_row ⟨"PSCALE", 0x00000055, 0xFFFC8CFF⟩ (by decide) rfl ?_
  rw [show (0xFFFC8CFF : CommandWord) = packWord 0xFF 12 8 12 0xFFF by decide]
  simp only [encode, packWord_and, index4_mask, index8_mask]
  rfl

theorem EncodesRow.pgetx (rd : NReg) (ra : PReg) : EncodesRow.Statement (.pgetx rd ra) := by
  refine EncodesRow.of_row ⟨"PGETX", 0x00000056, 0xFFFFC8FF⟩ (by decide) rfl ?_
  rw [show (0xFFFFC8FF : CommandWord) = packWord 0xFF 8 12 15 0xFFF by decide]
  simp only [encode, packWord_and, index8_mask, index4_mask]
  rfl

theorem EncodesRow.pgety (rd : NReg) (ra : PReg) : EncodesRow.Statement (.pgety rd ra) := by
  refine EncodesRow.of_row ⟨"PGETY", 0x00000057, 0xFFFFC8FF⟩ (by decide) rfl ?_
  rw [show (0xFFFFC8FF : CommandWord) = packWord 0xFF 8 12 15 0xFFF by decide]
  simp only [encode, packWord_and, index8_mask, index4_mask]
  rfl

theorem EncodesRow.pset (rd : PReg) (ra : NReg) (rb : NReg) : EncodesRow.Statement (.pset rd ra rb) := by
  refine EncodesRow.of_row ⟨"PSET", 0x00000058, 0xFFF88CFF⟩ (by decide) rfl ?_
  rw [show (0xFFF88CFF : CommandWord) = packWord 0xFF 12 8 8 0xFFF by decide]
  simp only [encode, packWord_and, index4_mask, index8_mask]
  rfl

theorem EncodesRow.keygen : EncodesRow.Statement .keygen := by
  refine EncodesRow.of_row ⟨"KEYGEN", 0x00000060, 0xFFFFFFFF⟩ (by decide) rfl ?_
  decide

theorem EncodesRow.symenc : EncodesRow.Statement .symenc := by
  refine EncodesRow.of_row ⟨"SYMENC", 0x00000061, 0xFFFFFFFF⟩ (by decide) rfl ?_
  decide

theorem EncodesRow.symdec : EncodesRow.Statement .symdec := by
  refine EncodesRow.of_row ⟨"SYMDEC", 0x00000062, 0xFFFFFFFF⟩ (by decide) rfl ?_
  decide

theorem EncodesRow.asymenc : EncodesRow.Statement .asymenc := by
  refine EncodesRow.of_row ⟨"ASYMENC", 0x00000063, 0xFFFFFFFF⟩ (by decide) rfl ?_
  decide

theorem EncodesRow.asymdec : EncodesRow.Statement .asymdec := by
  refine EncodesRow.of_row ⟨"ASYMDEC", 0x00000064, 0xFFFFFFFF⟩ (by decide) rfl ?_
  decide

theorem EncodesRow.sign : EncodesRow.Statement .sign := by
  refine EncodesRow.of_row ⟨"SIGN", 0x00000065, 0xFFFFFFFF⟩ (by decide) rfl ?_
  decide

theorem EncodesRow.verify : EncodesRow.Statement .verify := by
  refine EncodesRow.of_row ⟨"VERIFY", 0x00000066, 0xFFFFFFFF⟩ (by decide) rfl ?_
  decide

end Sys2Proof.Laws
end

