-- ==== Sys2Proof/Laws/Protocol.lean ====
section
/-! SUPPORT. What the shared functions of the protocol compute (spec/46_protocol.md R230 to R245), and the two ways between a coordinate
and an integer register (spec/45_e521.md R192, R211). -/

namespace Sys2Proof.Machine

/-- A coordinate fits an integer register (R211). -/
@[simp] theorem toNat_ofField (a : Fe) : (ofField a).toNat = a.val := by
  have ha := a.isLt
  have h : fieldPrime < 2 ^ 521 := by decide +kernel
  simp only [ofField, toNWord, BitVec.toNat_ofNat]
  exact Nat.mod_eq_of_lt (by omega)

@[simp] theorem toField_ofField (a : Fe) : toField (ofField a) = a := by rw [toField, toNat_ofField, fe_val]

/-- What `open` gives for what `seal` gave under the same keys and labels (R234). -/
theorem openMessage_sealMessage (keys : Bytes × Bytes) (m labelE labelA : Bytes) :
    openMessage keys (sealMessage keys m labelE labelA).1 (sealMessage keys m labelE labelA).2 labelE labelA = some m := by
  have h1 : (kmacxof keys.1 [] (bitLength m) labelE).length = m.length := by simp [bitLength]
  have h2 : bitLength (xorBytes (kmacxof keys.1 [] (bitLength m) labelE) m) = bitLength m := by
    simp only [bitLength, length_xorBytes, length_kmacxof]
    omega
  simp only [sealMessage, openMessage, h2, xorBytes_cancel _ _ h1, if_true]

/-- Byte by byte, `seal` and `open` XOR with the keystream (R234). -/
theorem getD_xorBytes (a b : Bytes) (h : a.length = b.length) (j : Nat) (hj : j < a.length) :
    (xorBytes a b).getD j 0 = a.getD j 0 ^^^ b.getD j 0 := by
  have hb : j < b.length := by omega
  simp [xorBytes, List.getD_eq_getElem?_getD, hj, hb]

/-- What `open` does, said once (R234): the ciphertext XORed with the keystream, accepted exactly when its tag is the given one. -/
theorem openMessage_spec (keys : Bytes × Bytes) (c tag labelE labelA : Bytes) :
    ∃ m : Bytes, m.length = c.length ∧
      (∀ j, j < m.length → m.getD j 0 = (kmacxof keys.1 [] (8 * c.length) labelE).getD j 0 ^^^ c.getD j 0) ∧
      openMessage keys c tag labelE labelA = if kmacxof keys.2 m 512 labelA = tag then some m else none := by
  have h1 : (kmacxof keys.1 [] (bitLength c) labelE).length = c.length := by simp [bitLength]
  refine ⟨xorBytes (kmacxof keys.1 [] (bitLength c) labelE) c, by simp [bitLength], fun j hj => ?_, rfl⟩
  exact getD_xorBytes _ _ h1 j (by simpa [h1] using hj)

/-- Four times a 64-byte magnitude is below `2^514` (R230). -/
theorem four_mul_int_lt {v : Bytes} (h : v.length = 64) : 4 * int v < 2 ^ 514 := by
  have h1 := int_lt v
  rw [h] at h1
  have h2 : (256 : Nat) ^ 64 * 4 = 2 ^ 514 := by decide +kernel
  omega

theorem passwordScalar_lt (password : Bytes) : passwordScalar password < 2 ^ 514 := four_mul_int_lt (by simp)

set_option exponentiation.threshold 600 in
theorem toNat_toNWord {v : Nat} (h : v < 2 ^ 521) : (toNWord v).toNat = v := by
  simp only [toNWord, BitVec.toNat_ofNat]
  exact Nat.mod_eq_of_lt h

/-- The private scalar fits `NS` (R230). -/
@[simp] theorem toNat_toNWord_passwordScalar (password : Bytes) : (toNWord (passwordScalar password)).toNat = passwordScalar password :=
  toNat_toNWord (Nat.lt_trans (passwordScalar_lt password) (by decide +kernel))

/-- The response is the nonnegative residue of `k - h·s` modulo `r` (R244). -/
theorem signatureResponse_spec (k h secret : Nat) :
    signatureResponse k h secret < groupOrder ∧ (signatureResponse k h secret + h * secret) % groupOrder = k % groupOrder := by
  have hr : (0 : Int) < groupOrder := by decide +kernel
  unfold signatureResponse
  have h0 := Int.emod_nonneg ((k : Int) - h * secret) (ne_of_gt hr)
  have h1 := Int.emod_lt_of_pos ((k : Int) - h * secret) hr
  constructor
  · omega
  · apply Int.natCast_inj.mp
    push_cast
    rw [Int.toNat_of_nonneg h0, Int.emod_add_emod]
    congr 1
    ring

theorem groupOrder_lt : groupOrder < 2 ^ 521 := by decide +kernel

/-- A signature's digest is 64 bytes, a value below `2^521` (R245). -/
@[simp] theorem length_signatureDigest (u : Point) (m : Bytes) : (signatureDigest u m).length = 64 := by simp [signatureDigest]

theorem int_signatureDigest_lt (u : Point) (m : Bytes) : int (signatureDigest u m) < 2 ^ 521 := by
  have h := int_lt (signatureDigest u m)
  rw [length_signatureDigest] at h
  exact Nat.lt_trans h (by decide +kernel)

end Sys2Proof.Machine
end

