-- ==== Sys2Proof/Tests/Slice0.lean ====
section
/-! SUPPORT. Tests on fixed values, and for every obligation with hypotheses a concrete state and operands that meet them. Every expected
value stands in spec/: spec/30_encoding.md for words, spec/95_test_vectors.md for results, and the rule a docstring names. -/

namespace Sys2Proof.Tests

set_option Elab.async false

open Sys2Proof.Machine

/-! ### Helpers -/

/-- The answer is a next state of which `p` holds. -/
def ends (r : Result) (p : State → Bool) : Bool :=
  match r with
  | .next t => p t
  | _ => false

/-- The reset state with a phase and a cursor. -/
def unitAt (ph : Phase) (pt : BitVec 8) : State :=
  { State.reset with
    sponge := ⟨Vector.replicate 200 0, pt⟩
    phase := ph }

/-- The 200 bytes `00 01 .. C7` (95 section 2.4). -/
def x200 : Bytes := (List.range 200).map (BitVec.ofNat 8)

/-- The sponge state `ST[j] = j` (95 section 2.4). -/
def ramp : Vector Byte 200 := Vector.ofFn fun j => BitVec.ofNat 8 j.val

/-- A byte string as long as a register can hold, whatever `BMAX` is. -/
def full : Bytes := List.replicate bmax 0

theorem length_full : full.length = bmax := by simp [full]

/-- A length up to 200 fits, whatever `BMAX` is (R9). -/
theorem fits {n : Nat} (h : n ≤ 200) : ¬ bmax < n := by
  have := bmax_ge
  omega

theorem good_length {l : Nat} (h : l % 8 = 0 ∧ l / 8 ≤ 200) : ¬ badOutputLength l = true := by
  have := bmax_ge
  rw [badOutputLength_eq]
  omega

/-- The base point's y-coordinate (R197). -/
def gy : Nat :=
  0x11DD4B4952F9B741BDB15C806D24013B3EBF3BE43295904D1E4050B3C80F5920A145616EBB481557D7BFA955CBFB1CFD4E064B0DE40F93E22F8BCDFB41D0093B10C

/-- A pair off the curve (R206). -/
def offCurve : Point := ⟨fe 1, fe 1⟩

/-- `finv(376014)` (95 section 6.5). -/
def u : Nat :=
  0x18521A257C7BC8F648DCA9EDBC1C5C4826B41DD4C0506F7B2B0DD6A58A99E42082C319A2C489BD3CFCAC698CBDDCFC8AF2C79C2455951FBD1D9D5399EFA15686B11

/-- A pair off the curve whose doubling divides by zero (95 section 6.5). -/
def bad : Point where
  x := fe 1
  y := fe
    0x9007D520EE49B39821C27B6EDB1B1A1147BF1966DDEBE03CCD49F579EAE3A34AAF78111A3BA6D6CF2EA33F1FDC597EB583CC5437320B241FEC80325F6073954339

/-- Two registers of each file set to what a test needs. -/
def withN (i : NReg) (v : Nat) (s : State) : State := s.writeN i (BitVec.ofNat 521 v)

/-! ### Well-formedness: the one check and the terms it refuses (R73) -/

theorem test_wf_refuses_round_24 : Instr.wf (.kround 24) = false := by decide

theorem test_wf_refuses_round_31 : Instr.wf (.kround 31) = false := by decide

theorem test_wf_accepts_round_23 : Instr.wf (.kround 23) = true := by decide

/-! ### Decoding: one word of every command, written out field by field from R70 to R74 as `imm rb ra rd op` -/

theorem test_decode_kround : decode 0b00000001011100000000000000010000#32 = .ok (.kround 23) := by decide

theorem test_decode_keccakf : decode 0b00000000000000000000000000010001#32 = .ok .keccakf := by decide

theorem test_decode_stld : decode 0b00000000000000000111000000010010#32 = .ok (.stld 7) := by decide

theorem test_decode_strd : decode 0b00000000000000000000010100010011#32 = .ok (.strd 5) := by decide

theorem test_decode_sinit : decode 0b00000000000000000000000000100000#32 = .ok .sinit := by decide

theorem test_decode_absorb : decode 0b00000000000000000110000000100001#32 = .ok (.absorb 6) := by decide

theorem test_decode_final : decode 0b00001010010100000000000000100010#32 = .ok (.final 0xA5) := by decide

theorem test_decode_squeeze : decode 0b00000000000000000011010000100011#32 = .ok (.squeeze 4 3) := by decide

theorem test_decode_sdone : decode 0b00000000000000000000000000100100#32 = .ok .sdone := by decide

theorem test_decode_lenc : decode 0b00000000000000000011010100110000#32 = .ok (.lenc 5 3) := by decide

theorem test_decode_renc : decode 0b00000000000000000001011000110001#32 = .ok (.renc 6 1) := by decide

theorem test_decode_encstr : decode 0b00000000000000000010010100110010#32 = .ok (.encstr 5 2) := by decide

theorem test_decode_bytepad : decode 0b00000000000000110100010100110011#32 = .ok (.bytepad 5 4 3) := by decide

theorem test_decode_bcat : decode 0b00000000000000010000001000110100#32 = .ok (.bcat 2 0 1) := by decide

theorem test_decode_bxor : decode 0b00000000000001000110011100110101#32 = .ok (.bxor 7 6 4) := by decide

theorem test_decode_b2i : decode 0b00000000000000000111001100110110#32 = .ok (.b2i 3 7) := by decide

theorem test_decode_i2b : decode 0b00000000000000000100010100110111#32 = .ok (.i2b 5 4) := by decide

theorem test_decode_nli : decode 0b10100101110000000000011100111000#32 = .ok (.nli 7 0xA5C) := by decide

theorem test_decode_bclr : decode 0b00000000000000000000011000111001#32 = .ok (.bclr 6) := by decide

theorem test_decode_cshake : decode 0b00000000000000000000000001000000#32 = .ok .cshake := by decide

theorem test_decode_kmacxof : decode 0b00000000000000000000000001000001#32 = .ok .kmacxof := by decide

theorem test_decode_pneut : decode 0b00000000000000000000001101010000#32 = .ok (.pneut 3) := by decide

theorem test_decode_pgen : decode 0b00000000000000000000001001010001#32 = .ok (.pgen 2) := by decide

theorem test_decode_pfromx : decode 0b00000000000100000011001001010010#32 = .ok (.pfromx 2 3 1) := by decide

theorem test_decode_pneg : decode 0b00000000000000000011000101010011#32 = .ok (.pneg 1 3) := by decide

theorem test_decode_padd : decode 0b00000000000000010000001001010100#32 = .ok (.padd 2 0 1) := by decide

theorem test_decode_pscale : decode 0b00000000000000100111001101010101#32 = .ok (.pscale 3 7 2) := by decide

theorem test_decode_pgetx : decode 0b00000000000000000010011001010110#32 = .ok (.pgetx 6 2) := by decide

theorem test_decode_pgety : decode 0b00000000000000000011011101010111#32 = .ok (.pgety 7 3) := by decide

theorem test_decode_pset : decode 0b00000000000001010110001101011000#32 = .ok (.pset 3 6 5) := by decide

theorem test_decode_keygen : decode 0b00000000000000000000000001100000#32 = .ok .keygen := by decide

theorem test_decode_symenc : decode 0b00000000000000000000000001100001#32 = .ok .symenc := by decide

theorem test_decode_symdec : decode 0b00000000000000000000000001100010#32 = .ok .symdec := by decide

theorem test_decode_asymenc : decode 0b00000000000000000000000001100011#32 = .ok .asymenc := by decide

theorem test_decode_asymdec : decode 0b00000000000000000000000001100100#32 = .ok .asymdec := by decide

theorem test_decode_sign : decode 0b00000000000000000000000001100101#32 = .ok .sign := by decide

theorem test_decode_verify : decode 0b00000000000000000000000001100110#32 = .ok .verify := by decide


/-! ### Words that are no command, with the ground of R75 (95 section 8.1) -/

theorem test_illegal_op : decode 0x00000000 = .error .unknownOpcode := by decide

theorem test_illegal_op_3A : decode 0x0000003A = .error .unknownOpcode := by decide

theorem test_illegal_unused_rd : decode 0x00000110 = .error .unusedField := by decide

theorem test_illegal_unused_imm : decode 0x00100011 = .error .unusedField := by decide

theorem test_illegal_unused_rb : decode 0x00017723 = .error .unusedField := by decide

theorem test_illegal_unused_ra : decode 0x00001038 = .error .unusedField := by decide

theorem test_illegal_b8 : decode 0x00008012 = .error .registerRange := by decide

theorem test_illegal_n8 : decode 0x00038355 = .error .registerRange := by decide

theorem test_illegal_p4 : decode 0x00000450 = .error .registerRange := by decide

theorem test_illegal_p4_in_rb : decode 0x00043354 = .error .registerRange := by decide

theorem test_illegal_round_24 : decode 0x01800010 = .error .immediateRange := by decide

theorem test_illegal_final_imm : decode 0x10000022 = .error .immediateRange := by decide

theorem test_illegal_lsb_2 : decode 0x00203252 = .error .immediateRange := by decide

/-- The opcode map has a row for each of the 37 commands, and no word fits two rows. -/
theorem test_table_rows : opcodeTable.length = 37 ∧
    opcodeTable.Pairwise (fun a b => a.pattern &&& b.mask ≠ b.pattern &&& a.mask) := by decide +kernel

/-! ### The step and the host -/

/-- The word of SINIT placed next runs as the first command after reset (R58, R121). -/
theorem test_step_runs_word : ends (step (State.reset.withFetchWord 32 0x20)) (fun t => t.status == 0x00880020#32) = true := by
  decide +kernel

/-- An illegal word after reset (95 section 8.1). -/
theorem test_step_illegal : ends (step (State.reset.withFetchWord 32 0x67)) (fun t => t.status == 0x00880004#32) = true := by
  decide +kernel

/-- `HostWriteN(3, 2^521)` is refused, and `ERR` is not sticky (95 section 8.4). -/
theorem test_host_write_refused :
    ends (hostAct (.writeN 3 (Int.ofNat (2 ^ 521))) State.reset) (fun t => t.status == 0x00880003#32 && t.readN 3 == 0) = true := by
  decide +kernel

/-- Reading `STATUS` after reset (R41). -/
theorem test_host_read_status :
    ends (hostAct .readStatus State.reset) (fun t => t.replies == [.status 0x00880000#32]) = true := by decide +kernel

/-! ### The permutation -/

/-- `theta` of 95 section 2.5. -/
theorem test_theta : theta ((Vector.replicate 25 0).set 0 1) =
    #v[1, 1, 0, 0, 2, 0, 1, 0, 0, 2, 0, 1, 0, 0, 2, 0, 1, 0, 0, 2, 0, 1, 0, 0, 2] := by decide +kernel

/-- `rho_pi` of `A[i] = i + 1` (95 section 2.5). -/
theorem test_rho_pi : rhoPi (Vector.ofFn fun i => BitVec.ofNat 64 (i.val + 1)) =
    #v[0x0000000000000001, 0x0000700000000000, 0x0000680000000000, 0x0000000002600000, 0x0000000000064000,
       0x0000000040000000, 0x0000000000A00000, 0x0000000000000058, 0x0002200000000000, 0xE000000000000002,
       0x0000000000000004, 0x0000000000000200, 0x000000001C000000, 0x0000000000001400, 0x0000000000540000,
       0x0000000028000000, 0x0000006000000000, 0x0000000000003000, 0x0000000000090000, 0x1800000000000000,
       0xC000000000000000, 0x0480000000000000, 0x0000078000000000, 0x0000200000000000, 0x0000000000000058] := by decide +kernel

/-- `chi` of 95 section 2.5, row 0. -/
theorem test_chi :
    let a := chi (((((Vector.replicate 25 0).set 0 0xFFFFFFFFFFFFFFFF).set 1 0x00000000FFFFFFFF).set 2 0x0F0F0F0F0F0F0F0F).set 4
      0xAAAAAAAAAAAAAAAA)
    a[0] = 0xF0F0F0F0FFFFFFFF ∧ a[1] = 0x00000000FFFFFFFF ∧ a[2] = 0xA5A5A5A5A5A5A5A5 ∧ a[3] = 0x5555555555555555 ∧
      a[4] = 0xAAAAAAAAAAAAAAAA ∧ a[5] = 0 := by decide +kernel

/-- `ROTC` is the triangular numbers modulo 64 (R104). -/
theorem test_rotc : ∀ k : Fin 24, rotc.get k = (k.val + 1) * (k.val + 2) / 2 % 64 := by decide +kernel

/-- Entries 2, 7, 12 and 19 of R108's table, and the XOR of its 24 entries, worked out from the printed table. -/
theorem test_round_constants :
    roundConstants.get 2 = 0x800000000000808A ∧ roundConstants.get 7 = 0x8000000000008009 ∧
      roundConstants.get 12 = 0x000000008000808B ∧ roundConstants.get 19 = 0x800000008000000A ∧
      roundConstants.toList.foldl (· ^^^ ·) 0 = 0x800000000000800A := by decide +kernel

/-- KROUND 0 on `ST[j] = j` (95 section 2.4). -/
theorem test_kround :
    ends (exec (.kround 0) { State.reset with sponge := ⟨ramp, 0⟩ })
      (fun t => (lanesOf t.sponge.st)[0] == 0x7E0C1AC8F6C4D241 && (lanesOf t.sponge.st)[24] == 0xDBD5CDC6FFF3EBE2) = true := by
  decide +kernel

/-- KECCAKF on the zero state (95 section 2.2). -/
theorem test_keccakf :
    ends (exec .keccakf State.reset)
      (fun t => (lanesOf t.sponge.st)[0] == 0xF1258F7940E1DDE7 && (lanesOf t.sponge.st)[24] == 0xEAF1FF7B5CECA249) = true := by
  decide +kernel

/-- Raw access outside IDLE (95 section 8.2). -/
theorem test_keccakf_seq : ends (exec .keccakf (unitAt .ready 0)) (fun t => t.status == 0x00880025#32) = true := by decide +kernel

/-- STLD puts byte `j` at `ST[j]`: lane 0 is little-endian (95 section 2.4). -/
theorem test_stld :
    ends (exec (.stld 0) (State.reset.writeB 0 x200)) (fun t => (lanesOf t.sponge.st)[0] == 0x0706050403020100) = true := by
  decide +kernel

/-- STLD of 199 bytes (95 section 8.3). -/
theorem test_stld_param :
    ends (exec (.stld 0) (State.reset.writeB 0 (x200.take 199))) (fun t => t.status == 0x00880006#32) = true := by decide +kernel

/-- STRD (R115). -/
theorem test_strd : ends (exec (.strd 4) { State.reset with sponge := ⟨ramp, 0⟩ }) (fun t => t.readB 4 == x200) = true := by
  decide +kernel

/-! ### The sponge -/

/-- ABSORB of "abc" (95 section 9, program 1). -/
theorem test_absorb :
    ends (exec (.absorb 1) ((unitAt .ready 0).writeB 1 [0x61, 0x62, 0x63]))
      (fun t => t.status == 0x00880340#32 && t.sponge.bytes.take 4 == [0x61, 0x62, 0x63, 0]) = true := by decide +kernel

/-- ABSORB of a whole block leaves the cursor at 0 (95 section 3.3). -/
theorem test_absorb_block :
    ends (exec (.absorb 1) ((unitAt .ready 0).writeB 1 (List.replicate 136 0xA3))) (fun t => t.status == 0x00880040#32) = true := by
  decide +kernel

/-- FINAL at cursor 135: both pad bytes fall on byte 135, 1F XOR 80 (95 section 3.3). -/
theorem test_final_pads_one_byte (st : Vector Byte 200) :
    finalize ⟨st, 135⟩ 0x1F = ⟨keccakF (((⟨st, 135⟩ : Sponge).xorAt 135 0x1F).xorAt 135 0x80).st, 0⟩ := rfl

/-- FINAL in SQUEEZING (95 section 8.2). -/
theorem test_final_seq : ends (exec (.final 0x1F) (unitAt .squeezing 0)) (fun t => t.status == 0x00880065#32) = true := by
  decide +kernel

/-- SQUEEZE of no byte from a used-up window runs no permutation (95 section 3.4). -/
theorem test_squeeze_none :
    ends (exec (.squeeze 4 3) (unitAt .squeezing 136))
      (fun t => t.status == 0x00888860#32 && t.readB 4 == [] && t.sponge == (unitAt .squeezing 136).sponge) = true := by
  rw [show exec (.squeeze 4 3) (unitAt .squeezing 136) = execSqueeze 4 3 (unitAt .squeezing 136) from rfl, execSqueeze,
    if_neg (by decide), if_neg (fits (by decide +kernel))]
  decide +kernel

/-- SQUEEZE of one byte moves the cursor (95 section 8.2, last cell). -/
theorem test_squeeze_one :
    ends (exec (.squeeze 4 3) (withN 3 1 (unitAt .squeezing 0))) (fun t => t.status == 0x00880160#32 && t.readB 4 == [0]) = true := by
  rw [show exec (.squeeze 4 3) (withN 3 1 (unitAt .squeezing 0)) = execSqueeze 4 3 (withN 3 1 (unitAt .squeezing 0)) from rfl,
    execSqueeze, if_neg (by decide), if_neg (fits (by decide +kernel))]
  decide +kernel

/-- SINIT clears the unit (R121). -/
theorem test_sinit :
    ends (exec .sinit { State.reset with sponge := ⟨ramp, 7⟩ }) (fun t => t.sponge == Sponge.zero && t.phase == .ready) = true := by
  decide +kernel

/-- SDONE in SQUEEZING (95 section 8.2). -/
theorem test_sdone : ends (exec .sdone (unitAt .squeezing 40)) (fun t => t.status == 0x00880000#32) = true := by decide +kernel

/-! ### Encodings and byte strings (95 section 4) -/

theorem test_lenc_zero : ends (exec (.lenc 5 3) State.reset) (fun t => t.readB 5 == [0x01, 0x00]) = true := by decide +kernel

theorem test_lenc_65536 :
    ends (exec (.lenc 5 3) (withN 3 65536 State.reset)) (fun t => t.readB 5 == [0x03, 0x01, 0x00, 0x00]) = true := by decide +kernel

theorem test_renc_zero : ends (exec (.renc 5 3) State.reset) (fun t => t.readB 5 == [0x00, 0x01]) = true := by decide +kernel

theorem test_renc_1024 :
    ends (exec (.renc 5 3) (withN 3 1024 State.reset)) (fun t => t.readB 5 == [0x04, 0x00, 0x02]) = true := by decide +kernel

theorem test_encstr :
    ends (exec (.encstr 5 2) (State.reset.writeB 2 kmacName)) (fun t => t.readB 5 == [0x01, 0x20, 0x4B, 0x4D, 0x41, 0x43]) = true := by
  show ends (.next _) _ = true
  rw [if_neg (fits (by decide +kernel))]
  decide +kernel

theorem test_bytepad :
    ends (exec (.bytepad 5 4 3) (withN 3 4 (State.reset.writeB 4 [0xAA, 0xBB, 0xCC])))
      (fun t => t.readB 5 == [0x01, 0x04, 0xAA, 0xBB, 0xCC, 0x00, 0x00, 0x00]) = true := by
  show ends (.next _) _ = true
  rw [if_neg (by decide +kernel), if_neg (fits (by decide +kernel))]
  decide +kernel

theorem test_bytepad_width_zero : ends (exec (.bytepad 5 4 3) State.reset) (fun t => t.status == 0x00880006#32) = true := by
  decide +kernel

theorem test_bcat_same_register :
    ends (exec (.bcat 0 0 0) (State.reset.writeB 0 [1, 2, 3])) (fun t => t.readB 0 == [1, 2, 3, 1, 2, 3]) = true := by
  show ends (.next _) _ = true
  rw [if_neg (fits (by decide +kernel))]
  decide +kernel

theorem test_bcat_order :
    ends (exec (.bcat 2 1 0) ((State.reset.writeB 0 [1, 2, 3]).writeB 1 [0xFF, 0, 0xFF]))
      (fun t => t.readB 2 == [0xFF, 0, 0xFF, 1, 2, 3]) = true := by
  show ends (.next _) _ = true
  rw [if_neg (fits (by decide +kernel))]
  decide +kernel

theorem test_bxor :
    ends (exec (.bxor 3 1 1) (State.reset.writeB 1 [0xFF, 0, 0xFF])) (fun t => t.readB 3 == [0, 0, 0]) = true := by decide +kernel

theorem test_bxor_param :
    ends (exec (.bxor 3 0 1) (State.reset.writeB 1 [0xFF])) (fun t => t.status == 0x00880006#32) = true := by decide +kernel

theorem test_b2i_leading_zeros :
    ends (exec (.b2i 3 7) (State.reset.writeB 7 [0, 0, 1, 0])) (fun t => t.readN 3 == 256) = true := by decide +kernel

theorem test_b2i_param :
    ends (exec (.b2i 3 7) (State.reset.writeB 7 (0x02 :: List.replicate 65 0))) (fun t => t.status == 0x00880006#32) = true := by
  decide +kernel

/-- The default instance of I2B, which the open parameter may be (R158). -/
theorem test_i2b_default : i2bDefault 0 = [0x00] ∧ i2bDefault 128 = [0x00, 0x80] ∧ i2bDefault 256 = [0x01, 0x00] ∧
    i2bDefault 32768 = [0x00, 0x80, 0x00] := by decide +kernel

theorem test_i2b_default_top : i2bDefault (BitVec.ofNat 521 (2 ^ 521 - 1)) = 0x01 :: List.replicate 65 0xFF := by decide +kernel

theorem test_nli : ends (exec (.nli 7 0xFFF) State.reset) (fun t => t.readN 7 == 4095) = true := by decide +kernel

theorem test_bclr : ends (exec (.bclr 1) (State.reset.writeB 1 [1])) (fun t => t.readB 1 == []) = true := by decide +kernel

/-! ### cSHAKE and KMACXOF (95 section 5) -/

/-- SHAKE256 of "abc", the first 4 bytes (95 section 3.2). -/
theorem test_cshake_shake256 :
    ends (exec .cshake (withN 0 32 (State.reset.writeB 1 [0x61, 0x62, 0x63]))) (fun t => t.readB 4 == [0x48, 0x33, 0x66, 0x60]) = true := by
  show ends (.next _) _ = true
  rw [if_neg (by decide), if_neg (good_length (by decide +kernel))]
  decide +kernel

theorem test_cshake_param : ends (exec .cshake (withN 0 7 State.reset)) (fun t => t.status == 0x00880006#32) = true := by
  decide +kernel

theorem test_kmacxof_param : ends (exec .kmacxof (withN 0 513 State.reset)) (fun t => t.status == 0x00880006#32) = true := by
  decide +kernel

/-- The first block KMACXOF absorbs for "My Tagged Application" (95 section 5). -/
theorem test_kmacxof_prefix :
    (bytepad (encodeString kmacName ++ encodeString [0x4D, 0x79, 0x20, 0x54, 0x61, 0x67, 0x67, 0x65, 0x64, 0x20, 0x41, 0x70, 0x70, 0x6C,
      0x69, 0x63, 0x61, 0x74, 0x69, 0x6F, 0x6E]) 136).take 12 =
      [0x01, 0x88, 0x01, 0x20, 0x4B, 0x4D, 0x41, 0x43, 0x01, 0xA8, 0x4D, 0x79] := by decide +kernel

/-! ### E521 (95 section 6) -/

theorem test_pneut : ends (exec (.pneut 3) State.reset) (fun t => (t.readP 3).x.val == 0 && (t.readP 3).y.val == 1) = true := by
  decide +kernel

theorem test_pgen : ends (exec (.pgen 2) State.reset) (fun t => (t.readP 2).x.val == 4 && (t.readP 2).y.val == gy) = true := by
  decide +kernel

theorem test_pfromx_base :
    ends (exec (.pfromx 2 3 1) (withN 3 4 State.reset))
      (fun t => (t.readP 2).x.val == 4 && (t.readP 2).y.val == fieldPrime - gy) = true := by decide +kernel

theorem test_pfromx_zero_root :
    ends (exec (.pfromx 2 3 1) (withN 3 1 State.reset)) (fun t => t.status == 0x00880001#32) = true := by decide +kernel

theorem test_pneg :
    ends (exec (.pneg 2 0) (State.reset.writeP 0 ⟨fe 1, fe 0⟩))
      (fun t => (t.readP 2).x.val == fieldPrime - 1 && (t.readP 2).y.val == 0) = true := by decide +kernel

/-- `add(G, (1, 0)) = (G.y, p - 4)` (95 section 6.2). -/
theorem test_padd :
    ends (exec (.padd 2 0 1) ((State.reset.writeP 0 basePoint).writeP 1 ⟨fe 1, fe 0⟩))
      (fun t => (t.readP 2).x.val == gy && (t.readP 2).y.val == fieldPrime - 4) = true := by decide +kernel

/-- The pairs of 95 section 6.5 whose sum divides by zero. -/
theorem test_padd_div_zero :
    ends (exec (.padd 2 0 1) ((State.reset.writeP 0 ⟨fe 1, fe 1⟩).writeP 1 ⟨fe u, fe 1⟩)) (fun t => t.status == 0x00880007#32) = true := by
  decide +kernel

/-- `2·G` tells the bit orders of the scalar apart (95 section 6.3). -/
theorem test_pscale_two :
    ends (exec (.pscale 1 3 0) (withN 3 2 (State.reset.writeP 0 basePoint)))
      (fun t => (t.readP 1).x.val == 0x6EEB7B013F129EA438E3C20718D31970649E584406B3D8CB65FDB712CE93FAB60FC5BE0C62987D287174A21E555FBE43AC0084480A3EFC77BE676A69618D42B608) =
      true := by decide +kernel

/-- The doubling after the last bit is part of the procedure (95 section 6.5). -/
theorem test_pscale_last_doubling :
    ends (exec (.pscale 2 5 0) (withN 5 1 (State.reset.writeP 0 bad))) (fun t => t.status == 0x00880007#32) = true := by decide +kernel

theorem test_pgetx :
    ends (exec (.pgetx 6 0) (State.reset.writeP 0 basePoint)) (fun t => (t.readN 6).toNat == 4) = true := by decide +kernel

theorem test_pgety :
    ends (exec (.pgety 7 0) (State.reset.writeP 0 basePoint)) (fun t => (t.readN 7).toNat == gy) = true := by decide +kernel

/-- PSET takes its coordinates modulo `p` (95 section 6.5). -/
theorem test_pset :
    ends (exec (.pset 1 3 4) (withN 4 1 (withN 3 fieldPrime State.reset)))
      (fun t => (t.readP 1).x.val == 0 && (t.readP 1).y.val == 1) = true := by decide +kernel

/-! ### The protocol commands -/

/-- KEYGEN outside IDLE (95 section 8.2). -/
theorem test_keygen_seq : ends (exec .keygen (unitAt .absorbing 1)) (fun t => t.status == 0x00880145#32) = true := by decide +kernel

/-- SYMENC puts the draw into `BZ` (R238). -/
theorem test_symenc_nonce :
    ends (exec .symenc { State.reset with entropy := [Vector.replicate 64 0x5A] })
      (fun t => t.readB BZ == List.replicate 64 0x5A && t.entropy == []) = true := by decide +kernel

/-- SYMENC of the empty message gives an empty ciphertext (95 section 7.1). -/
theorem test_symenc_empty :
    ends (exec .symenc { State.reset with entropy := [Vector.replicate 64 0x5A] })
      (fun t => t.readB BO == [] && (t.readB BT).length == 64) = true := by decide +kernel

/-- SYMDEC with an empty tag rejects, empties `BX`, and leaves the unit destroyed (R247, R265). -/
theorem test_symdec_rejects : exec .symdec (State.reset.writeB BX [1]) = .next (State.reset.raise .authFail) := by
  have h : openMessage (symKeys (State.reset.readB BZ) (State.reset.readB BK)) [] [] labelSKE labelSKA = none := by
    unfold openMessage
    rw [if_neg]
    intro h
    have := congrArg List.length h
    simp at this
  show Host.Outcome.next _ = _
  rw [if_neg (by decide)]
  exact congrArg (fun r => Host.Outcome.next (State.finishDecrypt (State.reset.writeB BX [1]) r)) h

/-- ASYMENC to a point off the curve: DIV_ZERO, and the draw is lost (R235). -/
theorem test_asymenc_draw_lost :
    ends (exec .asymenc { State.reset.writeP PV bad with entropy := [(Vector.replicate 64 0).set 63 1] })
      (fun t => t.status == 0x00880007#32 && t.entropy == [] && t.readP PZ == neutral) = true := by decide +kernel

/-- ASYMDEC from a point off the curve: DIV_ZERO, `BX` keeps its content (95 section 7.2). -/
theorem test_asymdec_div_zero :
    ends (exec .asymdec (withN 1 1 ((State.reset.writeP PZ bad).writeB BX [0x6F, 0x6C, 0x64])))
      (fun t => t.status == 0x00880007#32 && t.readB BX == [0x6F, 0x6C, 0x64]) = true := by decide +kernel

/-- SIGN outside IDLE (R262). -/
theorem test_sign_seq : ends (exec .sign (unitAt .squeezing 136)) (fun t => t.status == 0x00888865#32) = true := by decide +kernel

/-- VERIFY of a digest of 66 bytes `FF` (95 section 7.3). -/
theorem test_verify_too_large :
    ends (exec .verify (State.reset.writeB BH (List.replicate 66 0xFF))) (fun t => t.status == 0x00880002#32) = true := by decide +kernel

/-- VERIFY under a public key off the curve (95 section 7.3). -/
theorem test_verify_div_zero :
    ends (exec .verify ((State.reset.writeB BH [1]).writeP PV bad)) (fun t => t.status == 0x00880007#32) = true := by decide +kernel

/-! ### Witnesses: for every obligation with hypotheses, a state and operands that meet them, one per clause, at the ends of the ranges

`State.reset` is in IDLE and has every integer 0, so it is the witness wherever nothing else is asked for. -/

theorem witness_ResetAction :
    ({ State.reset with pending := [.reset, .readStatus] } : State).pending = .reset :: [.readStatus] ∧ State.reset.pending = [] :=
  ⟨rfl, rfl⟩

theorem witness_ConditionTable :
    (∃ t, Instr.wf (.kround 23) = true ∧ exec (.kround 23) State.reset = .next t) ∧
      (∃ t, hostCommand 0x20 State.reset = .next t) ∧ (∃ t, hostCommand 0x67 State.reset = .next t) :=
  ⟨⟨_, by decide, rfl⟩, ⟨_, rfl⟩, ⟨_, rfl⟩⟩

/-- A register number one too large, a string one byte too long, -1, and 2^521; with register 7, `BMAX` bytes and 2^521 - 1 no write is
refused. -/
theorem witness_HostWriteRefused :
    ¬ (8 < 8 ∧ ([] : Bytes).length ≤ bmax) ∧ ¬ (7 < 8 ∧ ((0 : Byte) :: full).length ≤ bmax) ∧ ¬ ¬ (7 < 8 ∧ full.length ≤ bmax) ∧
      ¬ (8 < 8 ∧ 0 ≤ (0 : Int) ∧ (0 : Int).toNat < 2 ^ 521) ∧ ¬ (7 < 8 ∧ 0 ≤ (-1 : Int) ∧ (-1 : Int).toNat < 2 ^ 521) ∧
      ¬ (7 < 8 ∧ 0 ≤ Int.ofNat (2 ^ 521) ∧ (Int.ofNat (2 ^ 521)).toNat < 2 ^ 521) ∧
      ¬ ¬ (7 < 8 ∧ 0 ≤ Int.ofNat (2 ^ 521 - 1) ∧ (Int.ofNat (2 ^ 521 - 1)).toNat < 2 ^ 521) := by
  refine ⟨by decide, ?_, ?_, by decide, by decide, by decide +kernel, by decide +kernel⟩
  · rw [List.length_cons, length_full]; omega
  · rw [length_full]; omega

theorem witness_HostAccess : full.length ≤ bmax ∧ 8 ≤ 8 := ⟨by rw [length_full], by decide⟩

theorem witness_DecodeOfEncode : Instr.wf (.kround 23) = true ∧ Instr.wf (.nli 7 0xFFF) = true := by decide

theorem witness_EncodeOfDecode : decode 0x01700010 = .ok (.kround 23) ∧ decode 0xFFF00738 = .ok (.nli 7 0xFFF) := by decide

/-- Round 23 is in KROUND's row; round 24 fits the mask but is no command. -/
theorem witness_DecodeFollowsTable :
    ⟨"KROUND", 0x00000010, 0xFE0FFFFF⟩ ∈ opcodeTable ∧ decode 0x01700010 = .ok (.kround 23) ∧
      (0x01700010#32 &&& 0xFE0FFFFF#32) = 0x00000010#32 ∧ (0x01800010#32 &&& 0xFE0FFFFF#32) = 0x00000010#32 ∧
      decode 0x01800010 = .error .immediateRange := by decide

theorem witness_IllegalWord : decode 0x01800010 = .error .immediateRange ∧ decode 0 = .error .unknownOpcode := by decide

theorem witness_StepRunsDecodedCommand :
    ({ State.reset with pending := [.command 0x20] } : State).pending = .command 0x20 :: [] ∧ decode 0x20 = .ok .sinit ∧
      decode (BitVec.ofNat 32 0x01700010) = .ok (.kround 23) := by decide

theorem witness_PermutationCommands : State.reset.phase = .idle ∧ (23 : BitVec 5).toNat < 24 ∧ (0 : BitVec 5).toNat < 24 := by decide

theorem witness_RawTransfer :
    (State.reset.writeB 0 x200).phase = .idle ∧ ((State.reset.writeB 0 x200).readB 0).length = 200 := by decide +kernel

/-- READY at cursor 0, and ABSORBING at cursor 135 with one byte, which fills the block, or none. -/
theorem witness_AbsorbResult :
    (unitAt .ready 0).phase = .ready ∧ (unitAt .ready 0).sponge.pt.toNat < 136 ∧ (unitAt .absorbing 135).phase = .absorbing ∧
      (unitAt .absorbing 135).sponge.pt.toNat < 136 ∧
      (unitAt .absorbing 135).sponge.pt.toNat + ((unitAt .absorbing 135).readB 0).length < 136 ∧
      ¬ ((unitAt .absorbing 135).writeB 0 [1]).sponge.pt.toNat + (((unitAt .absorbing 135).writeB 0 [1]).readB 0).length < 136 := by
  decide +kernel

/-- The last byte of a block, and a whole block. -/
theorem witness_AbsorbBlock :
    ([1] : Bytes) ≠ [] ∧ (unitAt .absorbing 135).sponge.pt.toNat + ([1] : Bytes).length = 136 ∧
      (List.replicate 136 1 : Bytes) ≠ [] ∧ (unitAt .ready 0).sponge.pt.toNat + (List.replicate 136 1 : Bytes).length = 136 := by
  decide +kernel

theorem witness_FinalResult :
    (unitAt .ready 0).phase = .ready ∧ (unitAt .ready 0).sponge.pt.toNat < 136 ∧ (unitAt .absorbing 135).phase = .absorbing ∧
      (unitAt .absorbing 135).sponge.pt.toNat < 136 := by decide +kernel

/-- No byte at cursor 136, 136 bytes at cursor 0, one byte and 136 bytes at cursor 136. -/
theorem witness_SqueezeResult :
    (unitAt .squeezing 136).phase = .squeezing ∧ (unitAt .squeezing 136).sponge.pt.toNat ≤ 136 ∧
      ((unitAt .squeezing 136).readN 3).toNat ≤ bmax ∧ ((unitAt .squeezing 136).readN 3).toNat = 0 ∧
      ((withN 3 136 (unitAt .squeezing 0)).readN 3).toNat ≤ bmax ∧
      (withN 3 136 (unitAt .squeezing 0)).sponge.pt.toNat + ((withN 3 136 (unitAt .squeezing 0)).readN 3).toNat ≤ 136 ∧
      (withN 3 1 (unitAt .squeezing 136)).sponge.pt.toNat = 136 ∧ 0 < ((withN 3 1 (unitAt .squeezing 136)).readN 3).toNat ∧
      ((withN 3 136 (unitAt .squeezing 136)).readN 3).toNat ≤ 136 := by
  refine ⟨by decide, by decide, ?_, by decide +kernel, ?_, by decide +kernel, by decide +kernel, by decide +kernel, by decide +kernel⟩ <;>
    exact Nat.le_of_not_lt (fits (by decide +kernel))

theorem witness_SpongeStreams :
    (let s := ((unitAt .ready 0).writeB 0 [1]).writeB 2 [1]
     s.phase = .ready ∧ s.readB 2 = s.readB 0 ++ s.readB 1) ∧
      (let s := withN 3 136 (withN 4 1 (withN 5 137 (unitAt .squeezing 0)))
       s.phase = .squeezing ∧ (s.readN 5).toNat = (s.readN 3).toNat + (s.readN 4).toNat ∧ (s.readN 5).toNat ≤ bmax ∧
         (4 : BReg) ≠ 5) := by
  refine ⟨by decide +kernel, by decide +kernel, by decide +kernel, ?_, by decide⟩
  exact Nat.le_of_not_lt (fits (by decide +kernel))

theorem witness_EncodingsUnambiguous :
    2 ^ 2040 - 1 < 2 ^ 2040 ∧ leftEncode (2 ^ 2040 - 1) ++ [1] = leftEncode (2 ^ 2040 - 1) ++ [1] ∧
      [1] ++ rightEncode (2 ^ 2040 - 1) = [1] ++ rightEncode (2 ^ 2040 - 1) ∧ 0 < 1 :=
  ⟨by decide +kernel, rfl, rfl, by decide⟩

/-- A string that fits and one that does not; width 0, width 1 with a string that fits, width 1 with one that does not. -/
theorem witness_StringEncodings :
    (leftEncode (8 * (State.reset.readB 2).length) ++ State.reset.readB 2).length ≤ bmax ∧
      bmax < (leftEncode (8 * ((State.reset.writeB 2 full).readB 2).length) ++ (State.reset.writeB 2 full).readB 2).length ∧
      (State.reset.readN 3).toNat = 0 ∧ 0 < ((withN 3 1 State.reset).readN 3).toNat ∧
      (leftEncode 1 ++ State.reset.readB 4).length + 0 ≤ bmax ∧
      bmax < (leftEncode 1 ++ (State.reset.writeB 4 full).readB 4).length + 0 := by
  refine ⟨Nat.le_of_not_lt (fits (by decide +kernel)), ?_, by decide +kernel, by decide +kernel,
    Nat.le_of_not_lt (fits (by decide +kernel)), ?_⟩ <;>
    · simp only [State.readB_writeB_same, List.length_append, length_leftEncode, length_full]
      omega

theorem witness_ByteStringUtilities :
    (let s := State.reset.writeB 0 full
     (s.readB 0).length + (s.readB 1).length ≤ bmax) ∧
      (let s := (State.reset.writeB 0 [1, 2]).writeB 1 [3, 4]
       (s.readB 0).length = (s.readB 1).length) := by
  refine ⟨?_, by decide +kernel⟩
  show full.length + 0 ≤ bmax
  rw [length_full]
  omega

/-- The largest value that fits and the smallest that does not, both 66 bytes long. -/
theorem witness_B2iResult :
    int ((State.reset.writeB 7 (0x01 :: List.replicate 65 0xFF)).readB 7) < 2 ^ 521 ∧
      2 ^ 521 ≤ int ((State.reset.writeB 7 (0x02 :: List.replicate 65 0x00)).readB 7) := by decide +kernel

/-- Both strings empty and one not; output lengths 0 and 1600 bits. -/
theorem witness_CshakeResult :
    (let s := State.reset
     s.phase = .idle ∧ (s.readN NL).toNat % 8 = 0 ∧ (s.readN NL).toNat / 8 ≤ bmax ∧ s.readB BN = [] ∧ s.readB BS = []) ∧
      (let s := withN NL 1600 (State.reset.writeB BS [0x54])
       s.phase = .idle ∧ (s.readN NL).toNat % 8 = 0 ∧ (s.readN NL).toNat / 8 ≤ bmax ∧ ¬ (s.readB BN = [] ∧ s.readB BS = [])) := by
  refine ⟨⟨by decide, by decide +kernel, ?_, by decide, by decide⟩, by decide, by decide +kernel, ?_, by decide +kernel⟩ <;>
    exact Nat.le_of_not_lt (fits (by decide +kernel))

theorem witness_KmacxofResult :
    (withN NL 1600 State.reset).phase = .idle ∧ ((withN NL 1600 State.reset).readN NL).toNat % 8 = 0 ∧
      ((withN NL 1600 State.reset).readN NL).toNat / 8 ≤ bmax :=
  ⟨by decide, by decide +kernel, Nat.le_of_not_lt (fits (by decide +kernel))⟩

theorem witness_LongerOutputExtends :
    State.reset.phase = .idle ∧ (State.reset.readN NL).toNat % 8 = 0 ∧ (BitVec.ofNat 521 1600).toNat % 8 = 0 ∧
      (State.reset.readN NL).toNat ≤ (BitVec.ofNat 521 1600).toNat ∧ (BitVec.ofNat 521 1600).toNat / 8 ≤ bmax :=
  ⟨by decide, by decide +kernel, by decide +kernel, by decide +kernel, Nat.le_of_not_lt (fits (by decide +kernel))⟩

theorem witness_CompositesFromPrimitives :
    let s := withN 3 136 (withN 4 200 (withN NL 1600 (State.reset.writeB BN kmacName)))
    s.phase = .idle ∧ (s.readN NL).toNat % 8 = 0 ∧ (s.readN NL).toNat / 8 ≤ bmax ∧ (s.readN 3).toNat = 136 ∧
      (s.readN 4).toNat = (s.readN NL).toNat / 8 ∧ s.readB BN ≠ [] ∧ s.readB BN = kmacName ∧ (s.readN 5).toNat = 0 ∧
      (bytepad (encodeString (s.readB BN) ++ encodeString (s.readB BS)) 136).length ≤ bmax ∧
      (bytepad (encodeString (s.readB BK)) 136).length ≤ bmax := by
  refine ⟨by decide, by decide +kernel, ?_, by decide +kernel, by decide +kernel, by decide +kernel, by decide +kernel,
    by decide +kernel, ?_, ?_⟩ <;>
    exact Nat.le_of_not_lt (fits (by decide +kernel))

theorem witness_PointMoves : (withN 3 4 State.reset).readN 3 = 4 := by decide +kernel

/-- The base point has even y; with x = 1 the one point has y = 0, so odd y is refused; with x = 2 there is no point. -/
theorem witness_PfromxResult :
    ((fe 4).val = ((withN 3 4 State.reset).readN 3).toNat % fieldPrime ∧ onCurve ⟨fe 4, basePoint.y⟩ = true ∧
        basePoint.y.val % 2 = (0 : BitVec 1).toNat) ∧
      ((fe 1).val = ((withN 3 1 State.reset).readN 3).toNat % fieldPrime ∧
        ∀ y : Fe, onCurve ⟨fe 1, y⟩ = true → y.val % 2 ≠ (1 : BitVec 1).toNat) ∧
      ((fe 2).val = ((withN 3 2 State.reset).readN 3).toNat % fieldPrime ∧
        ∀ y : Fe, onCurve ⟨fe 2, y⟩ = true → y.val % 2 ≠ (0 : BitVec 1).toNat) := by
  have none_of {x : Fe} {lsb : BitVec 1} (h : pointFromX x lsb = none) (y : Fe) (hc : onCurve ⟨x, y⟩ = true) : y.val % 2 ≠ lsb.toNat := by
    intro hl
    rw [(pointFromX_eq_some_iff x lsb ⟨x, y⟩).mpr ⟨rfl, hl, hc⟩] at h
    cases h
  exact ⟨by decide +kernel, ⟨by decide +kernel, none_of (by decide +kernel)⟩, by decide +kernel, none_of (by decide +kernel)⟩

/-- Both denominators nonzero; the first zero; the second zero. -/
theorem witness_PaddResult :
    (let t := curveD * neutral.x * neutral.x * neutral.y * neutral.y
     (fe 1 + t).val ≠ 0 ∧ (fe 1 - t).val ≠ 0) ∧
      (let t := curveD * fe 1 * fe u * fe 1 * fe 1
       (fe 1 + t).val = 0) ∧
      (let t := curveD * fe 1 * fe (fieldPrime - u) * fe 1 * fe 1
       (fe 1 - t).val = 0) := by decide +kernel

/-- Four registers hold points of the curve, so those of every choice of operands do. -/
theorem witness_onCurve : ∀ r : PReg, onCurve (((State.reset.writeP 2 basePoint).writeP 3 (negate basePoint)).readP r) = true := by
  decide +kernel

theorem witness_AdditionIsComplete :
    let s := State.reset.writeP 2 basePoint
    onCurve (s.readP 0) = true ∧ onCurve (s.readP 2) = true := by decide +kernel

theorem witness_GroupLaws :
    let s := (State.reset.writeP 2 basePoint).writeP 3 (negate basePoint)
    s.readP 1 = neutral ∧ onCurve (s.readP 2) = true ∧ onCurve (s.readP 3) = true ∧ onCurve (s.readP 1) = true ∧ (0 : PReg) ≠ 2 ∧
      (0 : PReg) ≠ 1 := by decide +kernel

/-- A scalar of 1 on the pair `(1, 1)`, off the curve: the loop's one turn adds the pair and doubles it. -/
theorem witness_PscaleResult_run :
    ∃ q : Point, onCurve offCurve = false ∧
      ScaleRun 1 offCurve 1 (fun i => if i = 0 then neutral else offCurve) (fun i => if i = 0 then offCurve else q) := by
  refine ⟨(padd offCurve offCurve).get (by decide +kernel), by decide +kernel, by decide, ?_, by decide +kernel, ?_, ?_, ?_⟩
  · intro m hm
    rcases m with - | m
    · omega
    · omega
  · intro i hi _
    obtain rfl : i = 0 := by omega
    simp [neutral_padd]
  · intro i hi h
    obtain rfl : i = 0 := by omega
    cases h
  · intro i hi
    obtain rfl : i = 0 := by omega
    simp

/-- A scalar of 1 on a pair whose doubling divides by zero: the loop has no run. -/
theorem witness_PscaleResult_no_run (n : Nat) (acc addend : Nat → Point) : ¬ ScaleRun 1 bad n acc addend := by
  intro h
  have hn : 0 < n := by
    rcases n with - | n
    · exact absurd h.fits (by decide)
    · omega
  have h0 := h.double 0 hn
  rw [h.start.2.2, show padd bad bad = none by decide +kernel] at h0
  cases h0

/-- A pair off the curve whose multiple exists and one whose multiple does not; a scalar of 0; a point of the curve, scalar 1. -/
theorem witness_PscaleResult :
    (let s := withN 3 5 (State.reset.writeP 2 offCurve)
     onCurve (s.readP 2) = false ∧ ∃ q, pscale (s.readN 3).toNat (s.readP 2) = some q) ∧
      (let s := withN 3 1 (State.reset.writeP 2 bad)
       pscale (s.readN 3).toNat (s.readP 2) = none) ∧
      (let s := withN 3 1 (State.reset.writeP 2 basePoint)
       s.readN 4 = 0 ∧ onCurve (s.readP 2) = true ∧ s.readN 3 = 1) :=
  ⟨⟨by decide +kernel, Option.isSome_iff_exists.mp (by decide +kernel)⟩, by decide +kernel, by decide +kernel⟩

theorem witness_ScaleIsGroupMultiple :
    (let s := withN 3 1 (withN 4 (2 ^ 521 - 2) (withN 5 (2 ^ 521 - 1) (State.reset.writeP 2 basePoint)))
     onCurve (s.readP 2) = true ∧ (s.readN 5).toNat = (s.readN 3).toNat + (s.readN 4).toNat ∧ (0 : PReg) ≠ 2 ∧ (0 : PReg) ≠ 1) ∧
      (let s := withN 3 groupOrder (State.reset.writeP 2 basePoint)
       (s.readN 3).toNat = groupOrder ∧ s.readP 2 = basePoint) := by decide +kernel

theorem witness_idle : State.reset.phase = .idle := rfl

theorem witness_KeygenResult : State.reset.phase = .idle := rfl

theorem witness_SymencResult : State.reset.phase = .idle := rfl

/-- A tag that is the recomputed one, and one that is not. -/
theorem witness_SymdecResult :
    (let s := State.reset.writeB BT (kmacxof ((kmacxof [] [] 1024 [0x53]).drop 64) [] 512 [0x53, 0x4B, 0x41])
     s.phase = .idle ∧
       kmacxof ((kmacxof (s.readB BZ ++ s.readB BK) [] 1024 [0x53]).drop 64) [] 512 [0x53, 0x4B, 0x41] = s.readB BT) ∧
      (let s := State.reset
       s.phase = .idle ∧
         kmacxof ((kmacxof (s.readB BZ ++ s.readB BK) [] 1024 [0x53]).drop 64) [] 512 [0x53, 0x4B, 0x41] ≠ s.readB BT) := by
  refine ⟨⟨rfl, ?_⟩, rfl, ?_⟩
  · rw [State.readB_writeB_same, State.readB_writeB_other _ _ (show BT ≠ BZ by decide), State.readB_writeB_other _ _ (show BT ≠ BK by decide)]
    congr 1
  · intro h
    have := congrArg List.length h
    rw [length_kmacxof, show State.reset.readB BT = [] by decide] at this
    exact absurd this (by decide)

/-- A public key on the curve; for a draw of value 1, one off it whose multiple exists and one whose multiple does not. -/
theorem witness_AsymencResult :
    (State.reset.phase = .idle ∧ onCurve (State.reset.readP PV) = true) ∧
      (let s := { State.reset.writeP PV offCurve with entropy := [(Vector.replicate 64 0).set 63 1] }
       s.phase = .idle ∧ onCurve (s.readP PV) = false ∧ ∃ w, pscale (4 * int s.nextDraw) (s.readP PV) = some w) ∧
      (let s := { State.reset.writeP PV bad with entropy := [(Vector.replicate 64 0).set 63 1] }
       s.phase = .idle ∧ pscale (4 * int s.nextDraw) (s.readP PV) = none) :=
  ⟨by decide +kernel, ⟨rfl, by decide +kernel, Option.isSome_iff_exists.mp (by decide +kernel)⟩, by decide +kernel⟩

/-- An ephemeral point on the curve with a wrong tag and with the right one; one off the curve with the right tag, and one off it whose
multiple does not exist. -/
theorem witness_AsymdecResult :
    (State.reset.phase = .idle ∧ onCurve (State.reset.readP PZ) = true ∧ ∀ k m : Bytes, kmacxof k m 512 [0x50, 0x4B, 0x41] ≠ State.reset.readB BT) ∧
      (let tag := kmacxof ((kmacxof (i2b (ofField neutral.x)) [] 1024 [0x50]).drop 64) [] 512 [0x50, 0x4B, 0x41]
       (State.reset.writeB BT tag).readB BT = tag ∧ pscale (State.reset.readN NS).toNat (State.reset.readP PZ) = some neutral) ∧
      (let tag := kmacxof ((kmacxof (i2b (ofField offCurve.x)) [] 1024 [0x50]).drop 64) [] 512 [0x50, 0x4B, 0x41]
       let s := (withN NS 1 (State.reset.writeP PZ offCurve)).writeB BT tag
       s.readB BT = tag ∧ onCurve offCurve = false ∧ pscale 1 offCurve = some offCurve) ∧
      (let s := withN NS 1 (State.reset.writeP PZ bad)
       s.phase = .idle ∧ pscale (s.readN NS).toNat (s.readP PZ) = none) := by
  refine ⟨⟨rfl, by decide +kernel, ?_⟩, ⟨State.readB_writeB_same _ _ _, by decide +kernel⟩,
    ⟨State.readB_writeB_same _ _ _, by decide +kernel, by decide +kernel⟩, rfl, by decide +kernel⟩
  intro k m h
  have := congrArg List.length h
  rw [length_kmacxof, show State.reset.readB BT = [] by decide] at this
  exact absurd this (by decide)

theorem witness_SignResult : State.reset.phase = .idle := rfl

/-- A multiple of `(0, 1)` is `(0, 1)`. -/
theorem pscale_neutral (k : Nat) : pscale k neutral = some neutral := by
  have : ∀ m k : Nat, scaleLoop m k neutral neutral = some neutral := by
    intro m
    induction m with
    | zero => exact fun _ => rfl
    | succ m ih =>
      intro k
      simp only [scaleLoop, padd_neutral, ite_self, ih]
  exact this _ _

/-- The signature `(BH, 0)` under the public key `(0, 1)` with the digest of `(0, 1)`: it verifies. -/
def neutralSignature : State := State.reset.writeB BH (kmacxof (i2b (ofField neutral.x)) [] 512 [0x54])

/-- A `BH` too large; a public key on the curve with the right digest and with a wrong one; a public key off the curve whose multiple does
not exist. One off the curve that VERIFY completes with stands in `witness_VerifyResult_offCurve`. -/
theorem witness_VerifyResult :
    (let s := State.reset.writeB BH (0x02 :: List.replicate 65 0x00)
     s.phase = .idle ∧ 2 ^ 521 ≤ int (s.readB BH)) ∧
      (let s := neutralSignature
       s.phase = .idle ∧ int (s.readB BH) < 2 ^ 521 ∧ onCurve (s.readP PV) = true ∧
         pscale (s.readN NZ).toNat basePoint = some neutral ∧ pscale (int (s.readB BH)) (s.readP PV) = some neutral ∧
         padd neutral neutral = some neutral ∧ kmacxof (i2b (ofField neutral.x)) (s.readB BX) 512 [0x54] = s.readB BH) ∧
      (let s := State.reset
       s.phase = .idle ∧ int (s.readB BH) < 2 ^ 521 ∧ onCurve (s.readP PV) = true ∧
         ∀ k m : Bytes, kmacxof k m 512 [0x54] ≠ s.readB BH) ∧
      (let s := (State.reset.writeB BH [1]).writeP PV bad
       s.phase = .idle ∧ int (s.readB BH) < 2 ^ 521 ∧ pscale (int (s.readB BH)) (s.readP PV) = none) := by
  refine ⟨by decide +kernel, ⟨rfl, ?_, by decide +kernel, by decide +kernel, ?_, padd_neutral _, ?_⟩, ⟨rfl, by decide +kernel, by decide +kernel, ?_⟩,
    by decide +kernel⟩
  · have h := int_lt (neutralSignature.readB BH)
    rw [neutralSignature, State.readB_writeB_same, length_kmacxof] at h
    rw [neutralSignature, State.readB_writeB_same]
    exact Nat.lt_trans h (by decide +kernel)
  · exact pscale_neutral _
  · rw [neutralSignature, State.readB_writeB_same, State.readB_writeB_other _ _ (show BH ≠ BX by decide)]
    congr 1
  · intro k m h
    have := congrArg List.length h
    rw [length_kmacxof, show State.reset.readB BH = [] by decide] at this
    exact absurd this (by decide)

/-- The point VERIFY adds to `G` for the last clause: off the curve, and its sum with `G` divides by zero. -/
def clash : Point := ⟨fe 1, fdiv (fe 1) (fe 376014 * basePoint.x * basePoint.y)⟩

/-- Each multiple exists and their sum does not. -/
theorem witness_VerifyResult_sum :
    let s := withN NZ 1 ((State.reset.writeB BH [1]).writeP PV clash)
    s.phase = .idle ∧ int (s.readB BH) < 2 ^ 521 ∧ pscale (s.readN NZ).toNat basePoint = some basePoint ∧
      pscale (int (s.readB BH)) (s.readP PV) = some clash ∧ padd basePoint clash = none := by decide +kernel

/-- A public key off the curve for which the multiple and the sum exist: for this `BH` VERIFY rejects. -/
theorem witness_VerifyResult_offCurve :
    let s := withN NZ 1 ((State.reset.writeB BH [1]).writeP PV offCurve)
    s.phase = .idle ∧ int (s.readB BH) < 2 ^ 521 ∧ onCurve (s.readP PV) = false ∧
      pscale (s.readN NZ).toNat basePoint = some basePoint ∧ pscale (int (s.readB BH)) (s.readP PV) = some offCurve ∧
      (∃ u, padd basePoint offCurve = some u) ∧ ∀ k m : Bytes, kmacxof k m 512 [0x54] ≠ s.readB BH := by
  refine ⟨rfl, by decide +kernel, by decide +kernel, by decide +kernel, by decide +kernel,
    Option.isSome_iff_exists.mp (by decide +kernel), ?_⟩
  intro k m h
  have := congrArg List.length h
  rw [length_kmacxof] at this
  exact absurd this (by decide +kernel)

/-- An empty tag and digest, and ones a byte too short and a byte too long, one of them too large; points on the curve and off it. -/
theorem witness_WrongLengthRejected :
    (State.reset.phase = .idle ∧ (State.reset.readB BT).length ≠ 64 ∧ (State.reset.readB BH).length ≠ 64 ∧
        pscale (State.reset.readN NS).toNat (State.reset.readP PZ) = some neutral ∧
        verifyPoint (State.reset.readN NZ).toNat (int (State.reset.readB BH)) (State.reset.readP PV) = some neutral) ∧
      (let s := withN NS 1 ((State.reset.writeB BT (List.replicate 63 0)).writeP PZ offCurve)
       s.phase = .idle ∧ (s.readB BT).length ≠ 64 ∧ pscale (s.readN NS).toNat (s.readP PZ) = some offCurve) ∧
      (let s := (State.reset.writeB BH (List.replicate 64 0 ++ [1])).writeP PV offCurve
       s.phase = .idle ∧ (s.readB BH).length ≠ 64 ∧
         verifyPoint (s.readN NZ).toNat (int (s.readB BH)) (s.readP PV) = some offCurve) ∧
      (let s := State.reset.writeB BH (0x02 :: List.replicate 65 0x00)
       s.phase = .idle ∧ (s.readB BH).length ≠ 64 ∧ 2 ^ 521 ≤ int (s.readB BH)) := by decide +kernel

theorem witness_SymmetricRoundTrip : State.reset.phase = .idle := rfl

theorem witness_AsymmetricRoundTrip : State.reset.phase = .idle := rfl

theorem witness_SignatureVerifies : State.reset.phase = .idle := rfl

/-- A command in a phase that forbids it and in one that allows it. -/
theorem witness_PhaseTable :
    Instr.wf (.squeeze 4 3) = true ∧ Instr.allowedIn (.squeeze 4 3) State.reset.phase = false ∧ Instr.wf .sinit = true ∧
      Instr.allowedIn .sinit State.reset.phase = true := by decide

theorem witness_ParamList :
    ∃ t, Instr.wf (.stld 0) = true ∧ exec (.stld 0) State.reset = .next t ∧ t.err = .param ∧
      Instr.allowedIn (.stld 0) State.reset.phase = true ∧ Instr.badOperand (.stld 0) State.reset :=
  ⟨State.reset.raise .param, by decide, by rfl, rfl, by decide, by show ¬ _ = _; decide⟩

/-- Each condition of the two clauses is the answer of some command. -/
theorem witness_FailureLeavesState :
    ends (exec (.kround 24) State.reset) (fun t => t.err == .illegal) = true ∧
      ends (exec (.final 0) State.reset) (fun t => t.err == .seq) = true ∧
      ends (exec (.stld 0) State.reset) (fun t => t.err == .param) = true ∧
      ends (exec (.pfromx 0 3 0) (withN 3 2 State.reset)) (fun t => t.err == .invalidPoint) = true ∧
      ends (exec (.pscale 1 3 0) (withN 3 1 (State.reset.writeP 0 bad))) (fun t => t.err == .divZero) = true ∧
      ends (exec .verify (State.reset.writeB BH (List.replicate 66 0xFF))) (fun t => t.err == .authFail) = true ∧
      exec .symdec (State.reset.writeB BX [1]) = .next (State.reset.raise .authFail) :=
  ⟨by decide +kernel, by decide +kernel, by decide +kernel, by decide +kernel, by decide +kernel, by decide +kernel,
    test_symdec_rejects⟩

theorem witness_AcceptFlag : ∃ t, exec .sinit State.reset = .next t := ⟨_, rfl⟩

theorem witness_CommandFrames : ∃ t, exec (.nli 7 5) State.reset = .next t := ⟨_, rfl⟩

theorem witness_CompositeOwnsFreshUnit :
    ∃ t, Instr.isComposite .symdec = true ∧ (State.reset.writeB BX [1]).phase = .idle ∧
      exec .symdec (State.reset.writeB BX [1]) = .next t ∧ (t.err = .ok ∨ t.err = .authFail) :=
  ⟨_, rfl, rfl, test_symdec_rejects, Or.inr rfl⟩

/-- SQUEEZING with a used-up rate window, and a command to come. -/
theorem witness_StepKeepsInvariant :
    ∃ s t : State, s.Inv ∧ s.sponge.pt = 136 ∧ s.pending = [.command 0x24] ∧ step s = .next t := by
  refine ⟨{ unitAt .squeezing 136 with pending := [.command 0x24] }, _, ⟨by decide, ?_, ?_⟩, rfl, rfl, rfl⟩
  · intro i
    have h : (State.reset.readB i).length = 0 := by revert i; decide
    exact Nat.le_trans (Nat.le_of_eq h) (Nat.zero_le _)
  · intro h
    cases h

theorem witness_PseudoCommands :
    State.reset.phase = .idle ∧ (State.reset.readN NL).toNat % 8 = 0 ∧ (State.reset.readN NL).toNat / 8 ≤ bmax :=
  ⟨rfl, by decide +kernel, Nat.le_of_not_lt (fits (by decide +kernel))⟩

end Sys2Proof.Tests
end

section
/-! The state (10_state.md): its values after reset, the fields of the status word, the frame of every command, and the acceptance flag. -/

namespace Sys2Proof.Machine

/-! ### Reset and the status word -/

/-- Settles O1, field by field: every value stands in `State.reset` (R41). -/
theorem resetValues : Obligations.ResetValues := by
  unfold Obligations.ResetValues
  refine ⟨fun j => ?_, rfl, rfl, rfl, fun i => ?_, fun i => ?_, fun i => ?_, rfl, rfl, by decide⟩
  · simp [State.reset, Sponge.zero]
  · simp [State.reset, State.readB]
  · simp [State.reset, State.readN]
  · simp [State.reset, State.readP, neutral]

/-- A bit at or above the width of the right part of a word is a bit of the left part. -/
theorem getLsbD_append_above {v w i : Nat} {x : BitVec v} {y : BitVec w} {c : Bool} (hx : x.getLsbD (i - w) = c)
    (h : w ≤ i := by decide) : (x ++ y).getLsbD i = c := by
  rw [BitVec.getLsbD_append, if_neg (Nat.not_lt.mpr h), hx]

/-- A field at or above the width of the right part of a word is a field of the left part. -/
theorem extractLsb'_append_above {v w start len : Nat} {x : BitVec v} {y : BitVec w} {f : BitVec len}
    (hx : x.extractLsb' (start - w) len = f) (h : w ≤ start := by decide) : (x ++ y).extractLsb' start len = f :=
  (BitVec.extractLsb'_append_eq_of_le h).trans hx

/-- The lowest bit of a word that ends in one bit. -/
theorem getLsbD_append_ofBool {v : Nat} (x : BitVec v) (c : Bool) : (x ++ BitVec.ofBool c).getLsbD 0 = c := by
  rw [BitVec.getLsbD_append, if_pos Nat.one_pos]
  simp

/-- Settles O3: `STATUS` is its fields side by side (R33), so a field is reached by passing the fields below it. -/
theorem statusFields : Obligations.StatusFields := by
  unfold Obligations.StatusFields
  intro s
  refine ⟨?err, ?accept, ?phase, ?zero, ?pt, ?rsiz, ?top⟩
  case err => exact BitVec.extractLsb'_append_eq_right
  case accept => exact getLsbD_append_above (getLsbD_append_ofBool _ _)
  case phase => exact extractLsb'_append_above <| extractLsb'_append_above BitVec.extractLsb'_append_eq_right
  case zero =>
    exact getLsbD_append_above <| getLsbD_append_above <| getLsbD_append_above (getLsbD_append_ofBool _ false)
  case pt =>
    exact extractLsb'_append_above <| extractLsb'_append_above <| extractLsb'_append_above <| extractLsb'_append_above
      BitVec.extractLsb'_append_eq_right
  case rsiz =>
    exact extractLsb'_append_above <| extractLsb'_append_above <| extractLsb'_append_above <| extractLsb'_append_above <|
      extractLsb'_append_above BitVec.extractLsb'_append_eq_right
  case top =>
    exact extractLsb'_append_above <| extractLsb'_append_above <| extractLsb'_append_above <| extractLsb'_append_above <|
      extractLsb'_append_above BitVec.extractLsb'_append_eq_left

/-! ### Frames -/

/-- Every outcome of a command keeps the command's frame: a raise changes `STATUS` alone, a lost draw takes the draw of ASYMENC, a
rejection destroys the unit of a composite command, and SYMDEC and ASYMDEC then empty `BX` (R42, R235, R265). -/
theorem Outcome.frame {i : Instr} {s t : State} (h : Outcome i s t) : State.Frame i s t := by
  have hs := State.Frame.refl i s
  cases h with
  | seq => exact hs.raise _
  | param => exact hs.raise _
  | invalidPoint => exact hs.raise _
  | divZero => exact hs.raise _
  | drawLost _ hi => subst hi; exact (hs.takeDraw rfl).raise _
  | rejected h hi =>
    rcases hi with rfl | rfl <;>
      exact ((hs.unit rfl rfl _ _ (.inr (eq_of_beq h).symm)).writeB (List.mem_singleton.mpr rfl) _).raise _
  | notVerified h hi => subst hi; exact (hs.unit rfl rfl _ _ (.inr (eq_of_beq h).symm)).raise _
  | done _ _ _ _ _ _ frame _ => exact frame

/-- A command that is not well formed is KROUND with a round index no word has (R73). -/
theorem eq_kround_of_not_wf {i : Instr} (h : i.wf ≠ true) : ∃ ir : BitVec 5, i = .kround ir ∧ 24 ≤ ir.toNat := by
  cases i with
  | kround ir => exact ⟨ir, rfl, by simpa [Instr.wf, Nat.lt_iff_add_one_le] using h⟩
  | _ => exact absurd rfl h

/-- Every answer of every command: an outcome, or ILLEGAL for a round index no word has (log 15). -/
theorem outcome_or_illegal {i : Instr} {s t : State} (h : exec i s = .next t) :
    Outcome i s t ∨ (∃ ir, i = .kround ir) ∧ t = s.raise .illegal := by
  by_cases hwf : i.wf = true
  · obtain ⟨t', ht', ho⟩ := exec_outcome i s hwf
    cases ht'.symm.trans h
    exact .inl ho
  · obtain ⟨ir, rfl, hir⟩ := eq_kround_of_not_wf hwf
    cases (exec_kround_of_ge hir s).symm.trans h
    exact .inr ⟨⟨ir, rfl⟩, rfl⟩

/-- Settles O55: the outcomes keep the frame, and so does raising ILLEGAL. -/
theorem commandFrames : Obligations.CommandFrames := by
  unfold Obligations.CommandFrames
  intro i s t h
  rcases outcome_or_illegal h with ho | ⟨-, rfl⟩
  · exact ho.frame
  · exact (State.Frame.refl i s).raise _

/-! ### The acceptance flag -/

theorem accepts_iff (i : Instr) : accepts i = true ↔ i = .symdec ∨ i = .asymdec ∨ i = .verify := by
  cases i <;> simp [accepts]

/-- Every answer of every command accepts exactly when the command is one that can and it ended with OK (R35). -/
theorem exec_accept_iff {i : Instr} {s t : State} (h : exec i s = .next t) :
    t.accept = true ↔ accepts i = true ∧ t.err = .ok := by
  rcases outcome_or_illegal h with ho | ⟨-, rfl⟩
  · cases ho with
    | done _ _ _ err accept => simp [err, accept]
    | _ => simp
  · simp

/-- The state with the two status fields replaced. -/
def State.withStatus (s : State) (e : Condition) (a : Bool) : State := { s with err := e, accept := a }

section WithStatus
variable (s : State) (e : Condition) (a : Bool)

theorem State.readB_withStatus (r : BReg) : (s.withStatus e a).readB r = s.readB r := rfl

theorem State.readN_withStatus (r : NReg) : (s.withStatus e a).readN r = s.readN r := rfl

theorem State.readP_withStatus (r : PReg) : (s.withStatus e a).readP r = s.readP r := rfl

theorem State.takeDraw_withStatus : (s.withStatus e a).takeDraw = s.takeDraw.withStatus e a := by
  unfold State.takeDraw State.withStatus
  dsimp only
  split <;> rfl

/-- No command reads `ERR` or `ACCEPT` (R34, R35): each reads other fields only and ends by writing both. Where a command branches on a
point computation, its operands are rewritten first, so that nothing has to run the computation to compare the two sides. -/
theorem exec_withStatus (i : Instr) : exec i (s.withStatus e a) = exec i s := by
  cases i with
  | pfromx rd ra lsb =>
    simp only [exec, execPfromx, State.readN_withStatus]
    cases pointFromX (toField (s.readN ra)) lsb <;> rfl
  | padd rd ra rb =>
    simp only [exec, execPadd, State.readP_withStatus]
    cases padd (s.readP ra) (s.readP rb) <;> rfl
  | pscale rd ra rb =>
    simp only [exec, execPscale, State.readN_withStatus, State.readP_withStatus]
    cases pscale (s.readN ra).toNat (s.readP rb) <;> rfl
  | keygen =>
    unfold exec execKeygen
    rw [State.readB_withStatus]
    obtain ⟨q, hq, -⟩ := pscale_onCurve (passwordScalar (s.readB BK)) onCurve_basePoint
    simp only [hq]
    rfl
  | sign =>
    unfold exec execSign
    rw [State.readB_withStatus, State.readB_withStatus]
    obtain ⟨q, hq, -⟩ := pscale_onCurve (signatureNonce (passwordScalar (s.readB BK)) (s.readB BX)) onCurve_basePoint
    simp only [hq]
    rfl
  | symenc => simp only [exec, execSymenc, State.takeDraw_withStatus]; rfl
  | asymenc => simp only [exec, execAsymenc, State.readP_withStatus, State.takeDraw_withStatus]; rfl
  | asymdec =>
    simp only [exec, execAsymdec, State.readN_withStatus, State.readP_withStatus]
    cases pscale (s.readN NS).toNat (s.readP PZ) <;> rfl
  | verify =>
    simp only [exec, execVerify, State.readB_withStatus, State.readN_withStatus, State.readP_withStatus]
    cases verifyPoint (s.readN NZ).toNat (int (s.readB BH)) (s.readP PV) <;> rfl
  | _ => rfl

end WithStatus

/-- Settles O54: when `ACCEPT` is 1, and that replacing the status before a command changes nothing after it. -/
theorem acceptFlag : Obligations.AcceptFlag := by
  unfold Obligations.AcceptFlag
  intro i s t h
  refine ⟨?_, fun e a => (exec_withStatus s e a i).trans h⟩
  rw [exec_accept_iff h, accepts_iff]

end Sys2Proof.Machine
end

section
/-! The invariant of 10_state.md R23, R25, R26, R27: the operations that keep it, then every command, every host action and the step. -/

namespace Sys2Proof.Machine

/-! ### Lengths of what the commands write -/

theorem length_leftEncode_le (v : NWord) : (leftEncode v.toNat).length ≤ bmax := by
  have h1 := encodedLength_le_66 v
  have h2 := bmax_ge
  rw [length_leftEncode]
  omega

theorem length_rightEncode_le (v : NWord) : (rightEncode v.toNat).length ≤ bmax := by
  have h1 := encodedLength_le_66 v
  have h2 := bmax_ge
  rw [length_rightEncode]
  omega

theorem div_eight_le_of_not_bad {l : Nat} (h : ¬ badOutputLength l = true) : l / 8 ≤ bmax := by
  rw [badOutputLength_eq, not_or] at h
  exact Nat.le_of_not_lt h.2

/-- The ciphertext is as long as the message (R234). -/
@[simp] theorem length_sealMessage_ciphertext (keys : Bytes × Bytes) (m labelE labelA : Bytes) :
    (sealMessage keys m labelE labelA).1.length = m.length := by
  simp [sealMessage, bitLength]

/-- The tag is 64 bytes (R234). -/
@[simp] theorem length_sealMessage_tag (keys : Bytes × Bytes) (m labelE labelA : Bytes) :
    (sealMessage keys m labelE labelA).2.length = 64 := by
  simp [sealMessage]

/-- The plaintext is as long as the ciphertext (R234). -/
theorem length_of_openMessage_eq_some {keys : Bytes × Bytes} {c tag labelE labelA m : Bytes}
    (h : openMessage keys c tag labelE labelA = some m) : m.length = c.length := by
  obtain ⟨m', hlen, -, hopen⟩ := openMessage_spec keys c tag labelE labelA
  rw [hopen, Option.ite_none_right_eq_some] at h
  obtain ⟨-, hm⟩ := h
  rw [← Option.some.inj hm, hlen]

/-! ### The cursor in each phase -/

section Cursor
variable {s : State}

/-- Whether the cursor is right is a matter of the phase and the cursor alone (R26). -/
theorem State.cursorOk_congr {t : State} (hphase : t.phase = s.phase) (hpt : t.sponge.pt = s.sponge.pt) :
    t.cursorOk = s.cursorOk := by
  rw [State.cursorOk, State.cursorOk, hphase, hpt]

theorem State.cursorOk_squeezing (hs : s.phase = .squeezing) : s.cursorOk = true ↔ s.sponge.pt.toNat ≤ 136 := by
  simp [State.cursorOk, hs]

/-- Where ABSORB and FINAL are allowed, the cursor is below the rate (R26). -/
theorem State.Inv.pt_lt (h : s.Inv) (hs : ¬ (s.phase ≠ .ready ∧ s.phase ≠ .absorbing)) : s.sponge.pt.toNat < 136 := by
  have hc := h.cursor
  obtain hs | hs : s.phase = .ready ∨ s.phase = .absorbing := by tauto
  · simp only [State.cursorOk, hs, beq_iff_eq] at hc
    omega
  · simpa only [State.cursorOk, hs, decide_eq_true_eq] using hc

end Cursor

/-- Absorbing keeps the cursor below the rate (R122). -/
theorem absorbBytes_pt_lt {u : Sponge} (h : u.pt.toNat < 136) (v : Bytes) : (absorbBytes u v).pt.toNat < 136 := by
  rw [absorbBytes_pt h]
  exact Nat.mod_lt _ (by omega)

/-- Squeezing keeps the cursor at most at the rate (R127). -/
theorem squeezeBytes_pt_le {u : Sponge} (h : u.pt.toNat ≤ 136) (n : Nat) : (squeezeBytes n u).2.pt.toNat ≤ 136 := by
  rw [squeezeBytes_pt h]
  split <;> omega

/-! ### The invariant, one operation at a time -/

section Operations
variable {s t : State}

theorem State.Inv.raise (h : s.Inv) (c : Condition) : (s.raise c).Inv := ⟨h.cursor, h.lengths, h.ready⟩

theorem State.Inv.complete (h : s.Inv) : s.complete.Inv := ⟨h.cursor, h.lengths, h.ready⟩

theorem State.Inv.accepted (h : s.Inv) : s.accepted.Inv := ⟨h.cursor, h.lengths, h.ready⟩

theorem State.Inv.writeN (h : s.Inv) (r : NReg) (v : NWord) : (s.writeN r v).Inv := ⟨h.cursor, h.lengths, h.ready⟩

theorem State.Inv.writeP (h : s.Inv) (r : PReg) (v : Point) : (s.writeP r v).Inv := ⟨h.cursor, h.lengths, h.ready⟩

theorem State.Inv.reply (h : s.Inv) (r : HostReply) : (s.reply r).Inv := ⟨h.cursor, h.lengths, h.ready⟩

theorem State.Inv.setPending (h : s.Inv) (l : List HostAction) : { s with pending := l }.Inv := ⟨h.cursor, h.lengths, h.ready⟩

/-- A write of a string that fits (R27). -/
theorem State.Inv.writeB (h : s.Inv) (r : BReg) {v : Bytes} (hv : v.length ≤ bmax) : (s.writeB r v).Inv where
  cursor := h.cursor
  lengths j := by
    rw [State.readB_writeB]
    split
    · exact hv
    · exact h.lengths j
  ready := h.ready

theorem State.Inv.takeDraw (h : s.Inv) : s.takeDraw.Inv where
  cursor := (State.cursorOk_congr (by simp) (by simp)).trans h.cursor
  lengths j := by simpa using h.lengths j
  ready hs := by simpa using h.ready (by simpa using hs)

/-- A unit whose cursor is where the new phase allows it, and which is zero where the new phase is READY. -/
theorem State.Inv.setUnit (h : s.Inv) (u : Sponge) (ph : Phase) (hc : { s with sponge := u, phase := ph }.cursorOk = true)
    (hr : ph = .ready → u = Sponge.zero) : { s with sponge := u, phase := ph }.Inv := ⟨hc, h.lengths, hr⟩

theorem State.Inv.destroySponge (h : s.Inv) : s.destroySponge.Inv := h.setUnit Sponge.zero .idle rfl nofun

/-- In IDLE the state bytes may change while the cursor stays. -/
theorem State.Inv.setSt (h : s.Inv) (hs : s.phase = .idle) (u : Sponge) (hu : u.pt = s.sponge.pt) :
    { s with sponge := u }.Inv where
  cursor := (State.cursorOk_congr (s := s) (t := { s with sponge := u }) rfl hu).trans h.cursor
  lengths := h.lengths
  ready hr := by cases hs.symm.trans hr

/-- In SQUEEZING the unit may change while the cursor stays at most at the rate. -/
theorem State.Inv.setSqueezing (h : s.Inv) (hs : s.phase = .squeezing) {u : Sponge} (hu : u.pt.toNat ≤ 136) :
    { s with sponge := u }.Inv where
  cursor := (State.cursorOk_squeezing (s := { s with sponge := u }) hs).mpr hu
  lengths := h.lengths
  ready hr := by cases hs.symm.trans hr

/-- A command that raises where a check fails has only its other branch left to show. -/
theorem State.Inv.guard (h : s.Inv) {p : Prop} [Decidable p] (c : Condition) (ht : ¬ p → t.Inv) :
    (if p then s.raise c else t).Inv := by
  split
  · exact h.raise c
  · exact ht ‹_›

/-- A command that raises outside IDLE has only its work in IDLE left to show. -/
theorem State.Inv.guardIdle (h : s.Inv) (ht : s.phase = .idle → t.Inv) : (if s.phase ≠ .idle then s.raise .seq else t).Inv :=
  h.guard .seq fun hs => ht (not_not.mp hs)

theorem State.Inv.finishDecrypt (h : s.Inv) {res : Option Bytes} (hres : ∀ m, res = some m → m.length ≤ bmax) :
    (s.finishDecrypt res).Inv := by
  cases res with
  | none => exact (h.destroySponge.writeB BX (Nat.zero_le _)).raise _
  | some m => exact (h.destroySponge.writeB BX (hres m rfl)).accepted

theorem State.Inv.finishVerify (h : s.Inv) (ok : Bool) : (s.finishVerify ok).Inv := by
  cases ok with
  | false => exact h.destroySponge.raise _
  | true => exact h.destroySponge.accepted

end Operations

/-! ### The commands and the step -/

theorem State.Inv.openMessage_fits {s : State} (h : s.Inv) (keys : Bytes × Bytes) (r : BReg) (tag labelE labelA : Bytes) (m : Bytes)
    (hm : openMessage keys (s.readB r) tag labelE labelA = some m) : m.length ≤ bmax :=
  length_of_openMessage_eq_some hm ▸ h.lengths r

/-- Every command keeps the invariant, whatever it answers. -/
theorem exec_keeps_inv {s : State} (h : s.Inv) (i : Instr) : ∃ t, exec i s = .next t ∧ t.Inv := by
  have fits200 := bmax_ge
  have fits64 : ∀ {v : Bytes}, v.length = 64 → v.length ≤ bmax := by omega
  cases i with
  | kround ir =>
    refine ⟨_, rfl, ?_⟩
    split
    · exact h.guardIdle fun hs => .complete (h.setSt hs _ rfl)
    · exact h.raise _
  | keccakf => exact ⟨_, rfl, h.guardIdle fun hs => .complete (h.setSt hs _ rfl)⟩
  | stld ra => exact ⟨_, rfl, h.guardIdle fun hs => h.guard _ fun _ => .complete (h.setSt hs _ (Sponge.load_pt _ _))⟩
  | strd rd => exact ⟨_, rfl, h.guardIdle fun _ => (h.writeB rd (by simpa using fits200)).complete⟩
  | sinit => exact ⟨_, rfl, .complete (h.setUnit _ _ rfl fun _ => rfl)⟩
  | absorb ra =>
    exact ⟨_, rfl, h.guard _ fun hs => .complete (h.setUnit _ .absorbing (decide_eq_true (absorbBytes_pt_lt (h.pt_lt hs) _)) nofun)⟩
  | final suffix => exact ⟨_, rfl, h.guard _ fun _ => (h.setUnit _ .squeezing rfl nofun).complete⟩
  | squeeze rd ra =>
    refine ⟨_, rfl, h.guard _ fun hs => h.guard _ fun hn => ?_⟩
    rw [not_not] at hs
    have hpt := squeezeBytes_pt_le ((State.cursorOk_squeezing hs).mp h.cursor) (s.readN ra).toNat
    exact ((h.setSqueezing hs hpt).writeB rd (by rw [length_squeezeBytes]; omega)).complete
  | sdone => exact ⟨_, rfl, h.destroySponge.complete⟩
  | lenc rd ra => exact ⟨_, rfl, (h.writeB rd (length_leftEncode_le _)).complete⟩
  | renc rd ra => exact ⟨_, rfl, (h.writeB rd (length_rightEncode_le _)).complete⟩
  | encstr rd ra => exact ⟨_, rfl, h.guard _ fun hl => (h.writeB rd (by simpa [encodeString] using hl)).complete⟩
  | bytepad rd ra rb =>
    refine ⟨_, rfl, h.guard _ fun hw => h.guard _ fun hl => (h.writeB rd ?_).complete⟩
    rw [length_bytepad _ (Nat.pos_of_ne_zero hw)]
    omega
  | bcat rd ra rb => exact ⟨_, rfl, h.guard _ fun hl => (h.writeB rd (by simpa using hl)).complete⟩
  | bxor rd ra rb =>
    refine ⟨_, rfl, h.guard _ fun _ => (h.writeB rd ?_).complete⟩
    rw [length_xorBytes]
    exact (Nat.min_le_left _ _).trans (h.lengths ra)
  | b2i rd ra => exact ⟨_, rfl, h.guard _ fun _ => (h.writeN rd _).complete⟩
  | i2b rd ra => exact ⟨_, rfl, (h.writeB rd ((i2b_law _).1.trans (by omega))).complete⟩
  | nli rd imm => exact ⟨_, rfl, (h.writeN rd _).complete⟩
  | bclr rd => exact ⟨_, rfl, (h.writeB rd (Nat.zero_le _)).complete⟩
  | cshake =>
    exact ⟨_, rfl, h.guardIdle fun _ => h.guard _ fun hl =>
      (h.writeB BO (by rw [length_cshake]; exact div_eight_le_of_not_bad hl)).destroySponge.complete⟩
  | kmacxof =>
    exact ⟨_, rfl, h.guardIdle fun _ => h.guard _ fun hl =>
      (h.writeB BO (by rw [length_kmacxof]; exact div_eight_le_of_not_bad hl)).destroySponge.complete⟩
  | pneut rd => exact ⟨_, rfl, (h.writeP rd _).complete⟩
  | pgen rd => exact ⟨_, rfl, (h.writeP rd _).complete⟩
  | pfromx rd ra lsb =>
    refine ⟨_, rfl, ?_⟩
    split
    · exact h.raise _
    · exact (h.writeP rd _).complete
  | pneg rd ra => exact ⟨_, rfl, (h.writeP rd _).complete⟩
  | padd rd ra rb =>
    refine ⟨_, rfl, ?_⟩
    split
    · exact h.raise _
    · exact (h.writeP rd _).complete
  | pscale rd ra rb =>
    refine ⟨_, rfl, ?_⟩
    split
    · exact h.raise _
    · exact (h.writeP rd _).complete
  | pgetx rd ra => exact ⟨_, rfl, (h.writeN rd _).complete⟩
  | pgety rd ra => exact ⟨_, rfl, (h.writeN rd _).complete⟩
  | pset rd ra rb => exact ⟨_, rfl, (h.writeP rd _).complete⟩
  | keygen =>
    refine ⟨_, rfl, h.guardIdle fun _ => ?_⟩
    obtain ⟨q, hq, -⟩ := pscale_onCurve (passwordScalar (s.readB BK)) onCurve_basePoint
    simp only [hq]
    exact ((h.writeN NS _).writeP PV _).destroySponge.complete
  | symenc =>
    have hct := h.lengths BX
    exact ⟨_, rfl, h.guardIdle fun _ =>
      (((h.takeDraw.writeB BZ (fits64 (by simp))).writeB BO (by simpa using hct)).writeB BT
        (fits64 (by simp))).destroySponge.complete⟩
  | symdec => exact ⟨_, rfl, h.guardIdle fun _ => h.finishDecrypt (h.openMessage_fits _ BO _ _ _)⟩
  | asymenc =>
    refine ⟨_, rfl, h.guardIdle fun _ => ?_⟩
    have hct := h.lengths BX
    dsimp only
    split
    · exact (((h.takeDraw.writeP PZ _).writeB BO (by simpa using hct)).writeB BT (fits64 (by simp))).destroySponge.complete
    · exact h.takeDraw.raise _
  | asymdec =>
    refine ⟨_, rfl, h.guardIdle fun _ => ?_⟩
    split
    · exact h.raise _
    · exact h.finishDecrypt (h.openMessage_fits _ BO _ _ _)
  | sign =>
    refine ⟨_, rfl, h.guardIdle fun _ => ?_⟩
    obtain ⟨q, hq, -⟩ := pscale_onCurve (signatureNonce (passwordScalar (s.readB BK)) (s.readB BX)) onCurve_basePoint
    simp only [hq]
    exact ((h.writeB BH (fits64 (length_signatureDigest _ _))).writeN NZ _).destroySponge.complete
  | verify =>
    refine ⟨_, rfl, h.guardIdle fun _ => ?_⟩
    split
    · exact h.finishVerify _
    · split
      · exact h.raise _
      · exact h.finishVerify _

theorem exec_inv {s t : State} (h : s.Inv) {i : Instr} (he : exec i s = .next t) : t.Inv := by
  obtain ⟨t', ht', hinv⟩ := exec_keeps_inv h i
  cases ht'.symm.trans he
  exact hinv

/-- Settles O58: after reset the unit is zero, the phase IDLE and every byte string empty. -/
theorem resetHasInvariant : Obligations.ResetHasInvariant := by
  unfold Obligations.ResetHasInvariant
  exact ⟨rfl, fun i => by simp [State.readB, State.reset], nofun⟩

/-- Reset leaves the engine of the reset state. -/
theorem resetEngine_inv (s : State) : (resetEngine s).Inv :=
  ⟨resetHasInvariant.cursor, resetHasInvariant.lengths, resetHasInvariant.ready⟩

theorem hostWriteB_inv {s : State} (h : s.Inv) (i : Nat) (v : Bytes) : (hostWriteB i v s).Inv := by
  unfold hostWriteB
  split
  · split
    · exact h.writeB _ ‹_›
    · exact h.raise _
  · exact h.raise _

theorem hostWriteN_inv {s : State} (h : s.Inv) (i : Nat) (v : Int) : (hostWriteN i v s).Inv := by
  unfold hostWriteN
  split
  · split
    · exact h.writeN _ _
    · exact h.raise _
  · exact h.raise _

theorem hostReadB_eq_next {i : Nat} {s t : State} (h : hostReadB i s = .next t) : ∃ r, t = s.reply r := by
  unfold hostReadB at h
  split at h
  · cases h; exact ⟨_, rfl⟩
  · cases h

theorem hostReadN_eq_next {i : Nat} {s t : State} (h : hostReadN i s = .next t) : ∃ r, t = s.reply r := by
  unfold hostReadN at h
  split at h
  · cases h; exact ⟨_, rfl⟩
  · cases h

theorem hostCommand_inv {s t : State} (h : s.Inv) {w : CommandWord} (he : hostCommand w s = .next t) : t.Inv := by
  unfold hostCommand at he
  split at he
  · exact exec_inv h he
  · cases he; exact h.raise _

theorem hostAct_inv {s t : State} (h : s.Inv) {a : HostAction} (he : hostAct a s = .next t) : t.Inv := by
  cases a with
  | writeB i v => cases he; exact hostWriteB_inv h i v
  | readB i => obtain ⟨r, rfl⟩ := hostReadB_eq_next he; exact h.reply r
  | writeN i v => cases he; exact hostWriteN_inv h i v
  | readN i => obtain ⟨r, rfl⟩ := hostReadN_eq_next he; exact h.reply r
  | readStatus => cases he; exact h.reply _
  | command w => exact hostCommand_inv h he
  | reset => cases he; exact resetEngine_inv s

/-- Settles O57: a step is the waiting engine or one action of the environment, and each keeps the invariant. -/
theorem stepKeepsInvariant : Obligations.StepKeepsInvariant := by
  unfold Obligations.StepKeepsInvariant
  intro s t h he
  unfold step nextAction at he
  split at he
  · cases he; exact h
  · exact hostAct_inv (h.setPending _) he

end Sys2Proof.Machine
end

section
/-! The host's access to the engine (20_memory.md): what an accepted and a refused write, a read and a command word do, and the step that
performs the next of them. -/

namespace Sys2Proof.Machine

/-! ### Host writes (R56, R57) -/

theorem hostWriteB_of_le (i : BReg) {v : Bytes} (hv : v.length ≤ bmax) (s : State) : hostWriteB i.val v s = s.writeB i v := by
  rw [hostWriteB, dif_pos i.isLt, if_pos hv]

theorem hostWriteB_refused {i : Nat} {v : Bytes} (h : ¬ (i < 8 ∧ v.length ≤ bmax)) (s : State) :
    hostWriteB i v s = s.raise .format := by
  unfold hostWriteB
  split
  case isTrue hi => exact if_neg fun hv => h ⟨hi, hv⟩
  case isFalse => rfl

/-- An integer register's value is the word the host writes for it. -/
@[simp] theorem toNWord_toNat (v : NWord) : toNWord v.toNat = v := by
  rw [toNWord, BitVec.ofNat_toNat, BitVec.setWidth_eq]

set_option exponentiation.threshold 600 in
theorem hostWriteN_toNat (i : NReg) (v : NWord) (s : State) : hostWriteN i.val v.toNat s = s.writeN i v := by
  rw [hostWriteN, dif_pos i.isLt, Int.toNat_natCast, if_pos ⟨Int.natCast_nonneg _, v.isLt⟩, toNWord_toNat]

theorem hostWriteN_refused {i : Nat} {v : Int} (h : ¬ (i < 8 ∧ 0 ≤ v ∧ v.toNat < 2 ^ 521)) (s : State) :
    hostWriteN i v s = s.raise .format := by
  unfold hostWriteN
  split
  case isTrue hi => exact if_neg fun hv => h ⟨hi, hv⟩
  case isFalse => rfl

/-- Settles O5: both writes raise FORMAT when their precondition is broken, and a raise changes `STATUS` alone. -/
theorem hostWriteRefused : Obligations.HostWriteRefused := by
  unfold Obligations.HostWriteRefused
  intro s i
  exact ⟨fun v h => congrArg _ (hostWriteB_refused h s), fun v h => congrArg _ (hostWriteN_refused h s)⟩

/-! ### Host reads (R56) -/

theorem hostReadB_reg (i : BReg) (s : State) : hostReadB i.val s = .next (s.reply (.bytes (s.readB i))) := dif_pos i.isLt

theorem hostReadB_of_ge {i : Nat} (h : 8 ≤ i) (s : State) : hostReadB i s = .fault .noSuchRegister := dif_neg h.not_gt

theorem hostReadN_reg (i : NReg) (s : State) : hostReadN i.val s = .next (s.reply (.integer (s.readN i))) := dif_pos i.isLt

theorem hostReadN_of_ge {i : Nat} (h : 8 ≤ i) (s : State) : hostReadN i s = .fault .noSuchRegister := dif_neg h.not_gt

/-- Settles O6, access by access: an action of the environment is the host's write or read of that register. -/
theorem hostAccess : Obligations.HostAccess := by
  unfold Obligations.HostAccess
  intro s
  refine ⟨?writeB, ?writeN, ?readB, ?readN, ?readStatus, ?noSuchRegister⟩
  case writeB => exact fun i v hv => congrArg _ (hostWriteB_of_le i hv s)
  case writeN => exact fun i v => congrArg _ (hostWriteN_toNat i v s)
  case readB => exact fun i => hostReadB_reg i s
  case readN => exact fun i => hostReadN_reg i s
  case readStatus => rfl
  case noSuchRegister => exact fun i h => ⟨hostReadB_of_ge h s, hostReadN_of_ge h s⟩

/-! ### Command words and the step (R58, R60) -/

theorem hostCommand_of_decode {w : CommandWord} {i : Instr} (h : decode w = .ok i) (s : State) : hostCommand w s = exec i s := by
  rw [hostCommand, h]

theorem step_of_pending {s : State} {a : HostAction} {rest : List HostAction} (h : s.pending = a :: rest) :
    step s = hostAct a { s with pending := rest } := by
  rw [step, nextAction, h]

/-- The step that performs a command word that decodes is the command. -/
theorem step_of_pending_command {s : State} {w : CommandWord} {i : Instr} {rest : List HostAction}
    (hp : s.pending = .command w :: rest) (hd : decode w = .ok i) : step s = exec i { s with pending := rest } :=
  (step_of_pending hp).trans (hostCommand_of_decode hd _)

/-- Settles O12: a placed word is the first pending action, and taking it off again leaves the state it was placed in. -/
theorem stepRunsDecodedCommand : Obligations.StepRunsDecodedCommand := by
  unfold Obligations.StepRunsDecodedCommand
  refine ⟨fun s a rest h => step_of_pending h, fun s w i rest hp hd => step_of_pending_command hp hd, ?withFetchWord⟩
  case withFetchWord =>
    intro s nbits w i hd
    exact step_of_pending_command (s := s.withFetchWord nbits w) (rest := s.pending) rfl hd

end Sys2Proof.Machine
end

section
/-! The command words (30_encoding.md): decoding and encoding undo each other, the decoder accepts the words of the opcode map, and what
the pseudo-commands do. -/

namespace Sys2Proof

/-! ### Formats (R71)

Every format reads the four fields beside the opcode; a field the format does not use is read by `unused`. -/

theorem except_bind_eq_ok {ε α β : Type} {x : Except ε α} {f : α → Except ε β} {b : β} :
    x >>= f = .ok b ↔ ∃ a, x = .ok a ∧ f a = .ok b := by
  cases x <;> simp [bind, Except.bind]

/-- The command `i` is built from what the four readers answer for the fields beside the opcode (R70). -/
def ReadsAs {α β γ δ : Type} (w : CommandWord) (rd : BitVec 4 → Except Illegal α) (ra : BitVec 4 → Except Illegal β)
    (rb : BitVec 4 → Except Illegal γ) (imm : BitVec 12 → Except Illegal δ) (build : α → β → γ → δ → Instr) (i : Instr) : Prop :=
  ∃ d a b m, rd (rdField w) = .ok d ∧ ra (raField w) = .ok a ∧ rb (rbField w) = .ok b ∧ imm (immField w) = .ok m ∧ build d a b m = i

section Formats
variable {w : CommandWord} {i : Instr} {k l m n : Nat} {rd : BitVec 4 → Except Illegal (Fin n)} {ra : BitVec 4 → Except Illegal (Fin m)}
  {rb : BitVec 4 → Except Illegal (Fin l)}

@[simp] theorem formatF0_eq_ok_iff {j : Instr} :
    formatF0 w j = .ok i ↔ ReadsAs w unused unused unused unused (fun _ _ _ _ => j) i := by
  grind [formatF0, except_bind_eq_ok, ReadsAs]

@[simp] theorem formatFI_eq_ok_iff {get : BitVec 12 → Except Illegal (BitVec k)} {build : BitVec k → Instr} :
    formatFI w get build = .ok i ↔ ReadsAs w unused unused unused get (fun _ _ _ m => build m) i := by
  grind [formatFI, except_bind_eq_ok, ReadsAs]

@[simp] theorem formatFD_eq_ok_iff {build : Fin n → Instr} :
    formatFD w rd build = .ok i ↔ ReadsAs w rd unused unused unused (fun d _ _ _ => build d) i := by
  grind [formatFD, except_bind_eq_ok, ReadsAs]

@[simp] theorem formatFA_eq_ok_iff {build : Fin m → Instr} :
    formatFA w ra build = .ok i ↔ ReadsAs w unused ra unused unused (fun _ a _ _ => build a) i := by
  grind [formatFA, except_bind_eq_ok, ReadsAs]

@[simp] theorem formatFDA_eq_ok_iff {build : Fin n → Fin m → Instr} :
    formatFDA w rd ra build = .ok i ↔ ReadsAs w rd ra unused unused (fun d a _ _ => build d a) i := by
  grind [formatFDA, except_bind_eq_ok, ReadsAs]

@[simp] theorem formatFDI_eq_ok_iff {build : Fin n → BitVec 12 → Instr} :
    formatFDI w rd build = .ok i ↔ ReadsAs w rd unused unused .ok (fun d _ _ m => build d m) i := by
  grind [formatFDI, except_bind_eq_ok, ReadsAs]

@[simp] theorem formatFDAB_eq_ok_iff {build : Fin n → Fin m → Fin l → Instr} :
    formatFDAB w rd ra rb build = .ok i ↔ ReadsAs w rd ra rb unused (fun d a b _ => build d a b) i := by
  grind [formatFDAB, except_bind_eq_ok, ReadsAs]

@[simp] theorem formatFDAI_eq_ok_iff {build : Fin n → Fin m → BitVec 1 → Instr} :
    formatFDAI w rd ra build = .ok i ↔ ReadsAs w rd ra unused (immLow 1) (fun d a _ m => build d a m) i := by
  grind [formatFDAI, except_bind_eq_ok, ReadsAs]

end Formats

/-! ### Decoding and encoding (R74 to R76) -/

theorem unused_eq_ok_iff {k : Nat} {f : BitVec k} {u : Unit} : unused f = .ok u ↔ f = 0 :=
  ⟨unused_eq_ok, fun h => h ▸ unused_zero k⟩

theorem index8_eq_ok_iff {f : BitVec 4} {i : Fin 8} : index8 f = .ok i ↔ f = indexField i :=
  ⟨index8_eq_ok, fun h => h ▸ index8_indexField i⟩

theorem index4_eq_ok_iff {f : BitVec 4} {i : Fin 4} : index4 f = .ok i ↔ f = indexField i :=
  ⟨index4_eq_ok, fun h => h ▸ index4_indexField i⟩

theorem immLow_eq_ok_iff {k : Nat} {f : BitVec 12} {v : BitVec k} (hk : k ≤ 12) : immLow k f = .ok v ↔ f = v.setWidth 12 :=
  ⟨immLow_eq_ok hk, fun h => h ▸ immLow_setWidth hk v⟩

theorem roundIndex_eq_ok_iff {f : BitVec 12} {ir : BitVec 5} : roundIndex f = .ok ir ↔ f = ir.setWidth 12 ∧ ir.toNat ≤ 23 :=
  ⟨roundIndex_eq_ok, fun h => h.1 ▸ roundIndex_setWidth h.2⟩

/-- Settles O7: the word's opcode selects the command's own format, and each of its readers gives back the operand its field holds. -/
theorem decodeOfEncode : Obligations.DecodeOfEncode := by
  unfold Obligations.DecodeOfEncode
  intro i hwf
  cases i
  case kround ir =>
    have hir : ir.toNat ≤ 23 := by simpa [Instr.wf] using hwf
    simp [encode, decode, ReadsAs, roundIndex_setWidth hir]
  all_goals simp [encode, decode, ReadsAs, immLow_setWidth]

/-- Settles O8, row by row of the decoder: a reader that answers determines the whole field, and a word is its five fields. -/
theorem encodeOfDecode : Obligations.EncodeOfDecode := by
  unfold Obligations.EncodeOfDecode
  intro w i h
  unfold decode at h
  split at h
  case h_38 => cases h
  all_goals
    rename_i hop
    simp only [formatF0_eq_ok_iff, formatFI_eq_ok_iff, formatFD_eq_ok_iff, formatFA_eq_ok_iff, formatFDA_eq_ok_iff,
      formatFDI_eq_ok_iff, formatFDAB_eq_ok_iff, formatFDAI_eq_ok_iff] at h
    obtain ⟨d, a, b, m, hd, ha, hb, hm, rfl⟩ := h
    rw [← packWord_fields w, hop]
    simp_all [encode, Instr.wf, unused_eq_ok_iff, index8_eq_ok_iff, index4_eq_ok_iff, immLow_eq_ok_iff, roundIndex_eq_ok_iff]

/-- Settles O10. -/
theorem sampleWords : Obligations.SampleWords := by
  unfold Obligations.SampleWords
  decide

/-! ### Masks (R74)

A reader accepts a field exactly when the bits its row's mask keeps are zero. -/

theorem exists_readsAs {α β γ δ : Type} (w : CommandWord) (rd : BitVec 4 → Except Illegal α) (ra : BitVec 4 → Except Illegal β)
    (rb : BitVec 4 → Except Illegal γ) (imm : BitVec 12 → Except Illegal δ) (build : α → β → γ → δ → Instr) :
    (∃ i, ReadsAs w rd ra rb imm build i) ↔ (∃ d, rd (rdField w) = .ok d) ∧ (∃ a, ra (raField w) = .ok a) ∧
      (∃ b, rb (rbField w) = .ok b) ∧ ∃ m, imm (immField w) = .ok m := by
  constructor
  · rintro ⟨-, d, a, b, m, hd, ha, hb, hm, rfl⟩
    exact ⟨⟨d, hd⟩, ⟨a, ha⟩, ⟨b, hb⟩, ⟨m, hm⟩⟩
  · rintro ⟨⟨d, hd⟩, ⟨a, ha⟩, ⟨b, hb⟩, ⟨m, hm⟩⟩
    exact ⟨_, d, a, b, m, hd, ha, hb, hm, rfl⟩

theorem exists_index8_iff (f : BitVec 4) : (∃ i, index8 f = .ok i) ↔ f &&& 8 = 0 := by
  revert f; decide

theorem exists_index4_iff (f : BitVec 4) : (∃ i, index4 f = .ok i) ↔ f &&& 12 = 0 := by
  revert f; decide

/-- A field is below `2^k` exactly when its bits from `k` on are zero. -/
theorem toNat_lt_two_pow_iff_and {n : Nat} (k : Nat) (f : BitVec n) :
    f.toNat < 2 ^ k ↔ f &&& (BitVec.allOnes n <<< k) = 0 := by
  constructor
  · intro h
    ext i hi
    by_cases hki : k ≤ i
    · have hf : f[i] = false := Nat.testBit_eq_false_of_lt (h.trans_le (Nat.pow_le_pow_right Nat.two_pos hki))
      simp [hf]
    · simp [Nat.lt_of_not_le hki]
  · intro h
    refine Nat.lt_pow_two_of_testBit _ fun i hki => ?_
    by_cases hi : i < n
    · have hf := congrArg (BitVec.getLsbD · i) h
      simpa [hi, Nat.not_lt.mpr hki, BitVec.getElem_eq_testBit_toNat, show ¬ n ≤ i - k by omega] using hf
    · exact BitVec.getLsbD_of_ge f i (Nat.not_lt.mp hi)

theorem exists_immLow_iff (k : Nat) (f : BitVec 12) : (∃ v, immLow k f = .ok v) ↔ f &&& (BitVec.allOnes 12 <<< k) = 0 := by
  rw [← toNat_lt_two_pow_iff_and, immLow]
  split <;> simp [*]

/-- A five-bit immediate is bits 24:20 of the word. -/
theorem extractLsb'_of_immField {w : CommandWord} {ir : BitVec 5} (h : immField w = ir.setWidth 12) : w.extractLsb' 20 5 = ir :=
  calc w.extractLsb' 20 5
    _ = (immField w).extractLsb' 0 5 := by ext i hi; simp [immField, show i < 12 by omega]
    _ = ir := by rw [h]; ext i hi; simp [show i < 12 by omega, BitVec.getLsbD_eq_getElem hi]

theorem exists_roundIndex_iff (w : CommandWord) : (∃ ir, roundIndex (immField w) = .ok ir) ↔
    immField w &&& (BitVec.allOnes 12 <<< 5) = 0 ∧ (w.extractLsb' 20 5).toNat ≤ 23 := by
  rw [← exists_immLow_iff]
  simp only [roundIndex_eq_ok_iff, immLow_eq_ok_iff (k := 5) (by decide)]
  constructor
  · rintro ⟨ir, h, hle⟩
    exact ⟨⟨ir, h⟩, (extractLsb'_of_immField h).symm ▸ hle⟩
  · rintro ⟨⟨ir, h⟩, hle⟩
    exact ⟨ir, h, extractLsb'_of_immField h ▸ hle⟩

theorem and_0xF (f : BitVec 4) : f &&& 0xF#4 = f := BitVec.and_allOnes

theorem and_0xFFF (f : BitVec 12) : f &&& 0xFFF#12 = f := BitVec.and_allOnes

/-- A masked word is compared field by field. -/
theorem and_eq_iff_fields (w m p : CommandWord) : w &&& m = p ↔
    opField w &&& m.extractLsb' 0 8 = p.extractLsb' 0 8 ∧ rdField w &&& m.extractLsb' 8 4 = p.extractLsb' 8 4 ∧
      raField w &&& m.extractLsb' 12 4 = p.extractLsb' 12 4 ∧ rbField w &&& m.extractLsb' 16 4 = p.extractLsb' 16 4 ∧
      immField w &&& m.extractLsb' 20 12 = p.extractLsb' 20 12 := by
  constructor
  · rintro rfl
    simp only [BitVec.extractLsb'_and, opField, rdField, raField, rbField, immField, and_self]
  · rintro ⟨ho, hd, ha, hb, hm⟩
    rw [← packWord_fields w, ← packWord_fields m, packWord_and, ← packWord_fields p]
    exact congr (congr (congr (congr (congrArg packWord ho) hd) ha) hb) hm

/-- Among the words with a row's opcode, those that decode are those that fit the row: its mask keeps exactly the bits its format's
readers want zero (R74, R75). -/
theorem exists_decode_iff_fits {w : CommandWord} {row : OpcodeRow} (hr : row ∈ opcodeTable) (hop : opField w = opField row.pattern) :
    (∃ i, decode w = .ok i) ↔
      w &&& row.mask = row.pattern ∧ (row.mnemonic = "KROUND" → (w.extractLsb' 20 5).toNat ≤ 23) := by
  change opField w = row.pattern.extractLsb' 0 8 at hop
  fin_cases hr
  all_goals
    simp only [BitVec.reduceExtractLsb'] at hop
    simp [decode, hop, and_eq_iff_fields, exists_readsAs, unused_eq_ok_iff, exists_index8_iff, exists_index4_iff, exists_immLow_iff,
      exists_roundIndex_iff, and_0xF, and_0xFFF, and_assoc]

namespace Laws

/-- The word of every command fits the row of its mnemonic, and no other (R74). -/
theorem encodesRow (i : Instr) : EncodesRow.Statement i := by
  cases i
  exacts [EncodesRow.kround _, EncodesRow.keccakf, EncodesRow.stld _, EncodesRow.strd _, EncodesRow.sinit, EncodesRow.absorb _,
    EncodesRow.final _, EncodesRow.squeeze _ _, EncodesRow.sdone, EncodesRow.lenc _ _, EncodesRow.renc _ _, EncodesRow.encstr _ _,
    EncodesRow.bytepad _ _ _, EncodesRow.bcat _ _ _, EncodesRow.bxor _ _ _, EncodesRow.b2i _ _, EncodesRow.i2b _ _,
    EncodesRow.nli _ _, EncodesRow.bclr _, EncodesRow.cshake, EncodesRow.kmacxof, EncodesRow.pneut _, EncodesRow.pgen _,
    EncodesRow.pfromx _ _ _, EncodesRow.pneg _ _, EncodesRow.padd _ _ _, EncodesRow.pscale _ _ _, EncodesRow.pgetx _ _,
    EncodesRow.pgety _ _, EncodesRow.pset _ _ _, EncodesRow.keygen, EncodesRow.symenc, EncodesRow.symdec, EncodesRow.asymenc,
    EncodesRow.asymdec, EncodesRow.sign, EncodesRow.verify]

end Laws

/-- A word that decodes fits the row of the command's mnemonic and no other. -/
theorem fits_iff_mnemonic {w : CommandWord} {i : Instr} (h : decode w = .ok i) {row : OpcodeRow} (hr : row ∈ opcodeTable) :
    w &&& row.mask = row.pattern ↔ row.mnemonic = i.mnemonic := by
  obtain ⟨-, rfl⟩ := encodeOfDecode w i h
  exact Laws.encodesRow i row hr

/-- Settles O9: a word of the row has the row's opcode, and with that opcode the words that decode are the words that fit. -/
theorem decodeFollowsTable : Obligations.DecodeFollowsTable := by
  unfold Obligations.DecodeFollowsTable
  intro w row hr
  constructor
  · rintro ⟨i, hi, hm⟩
    have hfit := (fits_iff_mnemonic hi hr).mpr hm.symm
    exact (exists_decode_iff_fits hr (Laws.opField_of_fits hr hfit)).mp ⟨i, hi⟩
  · rintro ⟨hfit, hround⟩
    obtain ⟨i, hi⟩ := (exists_decode_iff_fits hr (Laws.opField_of_fits hr hfit)).mpr ⟨hfit, hround⟩
    exact ⟨i, hi, ((fits_iff_mnemonic hi hr).mp hfit).symm⟩

end Sys2Proof

namespace Sys2Proof.Machine

/-! ### Commands one after the other (R79) -/

theorem execAll_cons {i : Instr} {s t : State} (h : exec i s = .next t) (is : List Instr) : execAll (i :: is) s = execAll is t := by
  rw [execAll, h]

theorem execAll_singleton (i : Instr) (s : State) : execAll [i] s = exec i s := by
  rw [execAll]
  cases exec i s <;> rfl

/-! A later command that completes overwrites `ERR` and `ACCEPT` (R34), so the completion of an earlier one can be left out. -/

@[simp] theorem State.complete_complete (s : State) : s.complete.complete = s.complete := rfl
@[simp] theorem State.writeB_complete (s : State) (i : BReg) (v : Bytes) : s.complete.writeB i v = (s.writeB i v).complete := rfl
@[simp] theorem State.writeN_complete (s : State) (i : NReg) (v : NWord) : s.complete.writeN i v = (s.writeN i v).complete := rfl
@[simp] theorem State.writeP_complete (s : State) (i : PReg) (v : Point) : s.complete.writeP i v = (s.writeP i v).complete := rfl
@[simp] theorem State.destroySponge_complete (s : State) : s.complete.destroySponge = s.destroySponge.complete := rfl

/-! ### The commands they use -/

theorem exec_bclr (rd : BReg) (s : State) : exec (.bclr rd) s = .next (s.writeB rd []).complete := rfl

theorem exec_nli (rd : NReg) (imm : BitVec 12) (s : State) : exec (.nli rd imm) s = .next (s.writeN rd (zext521 imm)).complete := rfl

theorem zext521_zero : zext521 0 = 0 := BitVec.setWidth_zero 521 12

theorem exec_pgetx (rd : NReg) (ra : PReg) (s : State) :
    exec (.pgetx rd ra) s = .next (s.writeN rd (ofField (s.readP ra).x)).complete := rfl

theorem exec_pgety (rd : NReg) (ra : PReg) (s : State) :
    exec (.pgety rd ra) s = .next (s.writeN rd (ofField (s.readP ra).y)).complete := rfl

theorem exec_pset (rd : PReg) (ra rb : NReg) (s : State) :
    exec (.pset rd ra rb) s = .next (s.writeP rd ⟨toField (s.readN ra), toField (s.readN rb)⟩).complete := rfl

/-- CSHAKE completes when its output length is accepted (R174). -/
theorem exec_cshake {s : State} (hs : s.phase = .idle) (h8 : (s.readN NL).toNat % 8 = 0) (hl : (s.readN NL).toNat / 8 ≤ bmax) :
    exec .cshake s =
      .next (s.writeB BO (cshake (s.readB BX) (s.readN NL).toNat (s.readB BN) (s.readB BS))).destroySponge.complete := by
  have hbad : badOutputLength (s.readN NL).toNat = false := by simp [badOutputLength, h8, hl]
  simp [exec, execCshake, hs, hbad]

/-! ### The pseudo-commands (R78) -/

/-- Moving the coordinates of a point through `N7` and `N6` copies it (R78). -/
theorem execAll_expandPmov (rd ra : PReg) (s : State) : execAll (expandPmov rd ra) s =
    .next (((s.writeN 7 (ofField (s.readP ra).x)).writeN 6 (ofField (s.readP ra).y)).writeP rd (s.readP ra)).complete := by
  rw [expandPmov, execAll_cons (exec_pgetx ..), execAll_cons (exec_pgety ..), execAll_singleton, exec_pset]
  simp [State.readN_writeN_other _ _ (show (6 : NReg) ≠ 7 by decide)]

theorem execAll_expandNclr (rd : NReg) (s : State) : execAll (expandNclr rd) s = .next (s.writeN rd 0).complete := by
  rw [expandNclr, execAll_singleton, exec_nli, zext521_zero]

/-- With both strings empty CSHAKE is plain SHAKE256 (R78, R173). -/
theorem execAll_expandShake256 {s : State} (hs : s.phase = .idle) (h8 : (s.readN NL).toNat % 8 = 0)
    (hl : (s.readN NL).toNat / 8 ≤ bmax) : execAll expandShake256 s =
      .next (((s.writeB BN []).writeB BS []).writeB BO (spongeHash (s.readB BX) 0x1F ((s.readN NL).toNat / 8))).destroySponge.complete := by
  have hx : ((s.writeB BN []).writeB BS []).readB BX = s.readB BX := by
    rw [State.readB_writeB_other _ _ (by decide), State.readB_writeB_other _ _ (by decide)]
  have hn : ((s.writeB BN []).writeB BS []).readB BN = [] := by
    rw [State.readB_writeB_other _ _ (by decide), State.readB_writeB_same]
  rw [expandShake256, execAll_cons (exec_bclr ..), execAll_cons (exec_bclr ..), execAll_singleton, State.writeB_complete,
    State.complete_complete, exec_cshake (s := ((s.writeB BN []).writeB BS []).complete) hs h8 hl]
  simp [hx, hn, cshake_plain]

/-- Settles O60, one pseudo-command after the other. -/
theorem pseudoCommands : Obligations.PseudoCommands := by
  unfold Obligations.PseudoCommands
  intro s
  refine ⟨?pmov, ?nclr, ?pdbl, ?shake256, ?finalShake, ?finalCshake⟩
  case pmov => exact fun rd ra => ⟨_, _, toNat_ofField _, toNat_ofField _, execAll_expandPmov rd ra s⟩
  case nclr => exact fun rd => execAll_expandNclr rd s
  case pdbl => exact fun rd ra => execAll_singleton _ s
  case shake256 => exact execAll_expandShake256
  case finalShake => exact execAll_singleton _ s
  case finalCshake => exact execAll_singleton _ s

end Sys2Proof.Machine
end

section
/-! The permutation and the raw commands (41_permutation.md): the steps of a round in coordinates, the round constants, the commands that
permute the state, and the two that move its 200 bytes. -/

namespace Sys2Proof.Machine

/-! ### Theta, chi, iota in coordinates (R102, R105, R106) -/

theorem laneAt_ofFn (f : Fin 25 → Lane) (x y : Fin 5) : laneAt (Vector.ofFn f) x y = f ⟨x.val + 5 * y.val, by omega⟩ := by
  simp [laneAt]

/-- The place of a lane in its row and the number of its row (R100). -/
theorem index_mod_div (x y : Fin 5) : (x.val + 5 * y.val) % 5 = x.val ∧ (x.val + 5 * y.val) / 5 = y.val := by omega

theorem laneAt_theta (a : Lanes) (x y : Fin 5) :
    let parity := fun x : Fin 5 => laneAt a x 0 ^^^ laneAt a x 1 ^^^ laneAt a x 2 ^^^ laneAt a x 3 ^^^ laneAt a x 4
    laneAt (theta a) x y = laneAt a x y ^^^ (parity (x - 1) ^^^ rotl64 (parity (x + 1)) 1) := by
  obtain ⟨hmod, -⟩ := index_mod_div x y
  have hprev : (x - 1).val = (x.val + 4) % 5 := by rw [Fin.val_sub, Nat.add_comm]; rfl
  have hnext : (x + 1).val = (x.val + 1) % 5 := Fin.val_add x 1
  rw [theta, laneAt_ofFn]
  simp [laneAt, Vector.get_eq_getElem, hmod, hprev, hnext]

theorem laneAt_chi (a : Lanes) (x y : Fin 5) :
    laneAt (chi a) x y = laneAt a x y ^^^ (~~~ laneAt a (x + 1) y &&& laneAt a (x + 2) y) := by
  obtain ⟨hmod, hdiv⟩ := index_mod_div x y
  rw [chi, laneAt_ofFn]
  simp [laneAt, Vector.get_eq_getElem, hmod, hdiv, Fin.val_add]

theorem laneAt_iota (a : Lanes) (ir : Fin 24) (x y : Fin 5) :
    laneAt (iota a ir) x y = if x = 0 ∧ y = 0 then laneAt a x y ^^^ roundConstants.get ir else laneAt a x y := by
  split
  · next h =>
    obtain ⟨rfl, rfl⟩ := h
    exact Vector.getElem_set_self ..
  · next h => exact Vector.getElem_set_ne _ _ (by omega)

/-! ### The walk of rho_pi (R103)

A turn rotates what the turn before it took out of the lanes, so the lane a turn rotates is the one the turn before overwrote. The first
turn starts with lane 1, which the last turn overwrites: the walk is a cycle, and turn `k - 1`, counted modulo 24, serves for all. -/

/-- Lanes the walk does not reach keep their value. -/
theorem foldl_rhoPiStep_of_ne {turns : List (Fin 24)} {j : Fin 25} (h : ∀ k ∈ turns, piln.get k ≠ j) (walk : Lanes × Lane) :
    (turns.foldl rhoPiStep walk).1.get j = walk.1.get j := by
  induction turns generalizing walk with
  | nil => rfl
  | cons k turns ih =>
    obtain ⟨hk, hturns⟩ := List.forall_mem_cons.mp h
    rw [List.foldl_cons, ih hturns]
    exact Vector.getElem_set_ne (piln.get k).isLt j.isLt (Fin.val_ne_of_ne hk)

/-- The turns before turn `k`, turn `k`, and the turns after it. -/
theorem finRange_eq_turn (k : Fin 24) :
    List.finRange 24 = (List.finRange 24).take k ++ k :: (List.finRange 24).drop (k + 1) := by
  have hk : (List.finRange 24)[k.val]'(by simp) = k := by simp
  rw [← congrArg (· :: _) hk, List.getElem_cons_drop, List.take_append_drop]

/-- The value in hand before turn `k` is the old value of the lane that the turn before overwrites. -/
theorem hand_before_turn (a : Lanes) (k : Fin 24) :
    (((List.finRange 24).take k).foldl rhoPiStep (a, a[1])).2 = a.get (piln.get (k - 1)) := by
  cases k using Fin.cases with
  | zero => rfl
  | succ m =>
    have hsplit : ∀ m : Fin 23, (List.finRange 24).take m.succ = (List.finRange 24).take m ++ [m.succ - 1] := by decide
    have hfresh : ∀ m : Fin 23, ∀ i ∈ (List.finRange 24).take m, piln.get i ≠ piln.get (m.succ - 1) := by decide
    rw [hsplit, List.foldl_append]
    exact foldl_rhoPiStep_of_ne (hfresh m) _

/-- What the walk leaves in the lane that turn `k` overwrites: no later turn overwrites it again. -/
theorem rhoPi_get_piln (a : Lanes) (k : Fin 24) :
    (rhoPi a).get (piln.get k) = rotl64 (a.get (piln.get (k - 1))) (rotc.get k) := by
  have hlast : ∀ k : Fin 24, ∀ i ∈ (List.finRange 24).drop (k + 1), piln.get i ≠ piln.get k := by decide
  rw [rhoPi, finRange_eq_turn k, List.foldl_append, List.foldl_cons, foldl_rhoPiStep_of_ne (hlast k), ← hand_before_turn]
  exact Vector.getElem_set_self ..

theorem rhoPi_get_zero (a : Lanes) : (rhoPi a).get 0 = a.get 0 :=
  foldl_rhoPiStep_of_ne (by decide) _

/-- The walk in coordinates: every lane but lane 0 has its turn, which moves lane `(x, y)` to `(y, 2x + 3y)` (R103, R104). -/
theorem exists_turn : ∀ x y : Fin 5, ¬ (x = 0 ∧ y = 0) → ∃ k : Fin 24,
    piln.get k = ⟨y.val + 5 * (2 * x + 3 * y).val, by omega⟩ ∧ piln.get (k - 1) = ⟨x.val + 5 * y.val, by omega⟩ ∧
      rotc.get k = rhoOffset x y := by
  decide

@[simp] theorem rotl64_zero (v : Lane) : rotl64 v 0 = v := by
  simp [rotl64, BitVec.ushiftRight_eq_zero]

theorem laneAt_rhoPi (a : Lanes) (x y : Fin 5) :
    laneAt (rhoPi a) y (2 * x + 3 * y) = rotl64 (laneAt a x y) (rhoOffset x y) := by
  by_cases h : x = 0 ∧ y = 0
  · obtain ⟨rfl, rfl⟩ := h
    exact (rhoPi_get_zero a).trans (rotl64_zero _).symm
  · obtain ⟨k, hto, hfrom, hoffset⟩ := exists_turn x y h
    rw [laneAt, laneAt, ← hto, ← hfrom, ← hoffset, rhoPi_get_piln]

/-! ### The round constants (R108) -/

theorem getLsbD_foldl_or_twoPow (bits : List Nat) (lane : Lane) (z : Nat) :
    (bits.foldl (fun lane z => lane ||| BitVec.twoPow 64 z) lane).getLsbD z = true ↔
      lane.getLsbD z = true ∨ z ∈ bits ∧ z < 64 := by
  induction bits generalizing lane with
  | nil => simp
  | cons b bits ih =>
    have hone : (BitVec.twoPow 64 b).getLsbD z = true ↔ z = b ∧ z < 64 := by
      simp only [BitVec.getLsbD_twoPow, Bool.and_eq_true, decide_eq_true_eq]
      omega
    rw [List.foldl_cons, ih, BitVec.getLsbD_or, Bool.or_eq_true, hone, List.mem_cons, or_and_right, or_assoc]

theorem getLsbD_laneOfBits {bits : List Nat} (h : ∀ z ∈ bits, z < 64) (z : Nat) :
    (laneOfBits bits).getLsbD z = true ↔ z ∈ bits := by
  rw [laneOfBits, getLsbD_foldl_or_twoPow]
  simpa using h z

/-- The table's positions are the outputs of the shift register that are 1. -/
theorem roundConstantBits_eq_shiftRegister : ∀ ir : Fin 24, roundConstantBits.get ir =
    ((List.range 7).filter fun j => (shiftRegister (j + 7 * ir.val)).getLsbD 0).map fun j => 2 ^ j - 1 := by
  decide +kernel

theorem getLsbD_roundConstants (ir : Fin 24) (z : Nat) : (roundConstants.get ir).getLsbD z = true ↔
    ∃ j, j < 7 ∧ z = 2 ^ j - 1 ∧ (shiftRegister (j + 7 * ir.val)).getLsbD 0 = true := by
  have hlt : ∀ ir : Fin 24, ∀ z ∈ roundConstantBits.get ir, z < 64 := by decide
  have hget : roundConstants.get ir = laneOfBits (roundConstantBits.get ir) := Vector.getElem_map ..
  rw [hget, getLsbD_laneOfBits (hlt ir), roundConstantBits_eq_shiftRegister]
  simp only [List.mem_map, List.mem_filter, List.mem_range]
  exact exists_congr fun j => by rw [and_assoc, and_comm (b := 2 ^ j - 1 = z), eq_comm]

/-- Settles O13: a round is its steps by definition, and each step and the constants have their lemma above. -/
theorem roundStepsInCoordinates : Obligations.RoundStepsInCoordinates := by
  unfold Obligations.RoundStepsInCoordinates
  exact ⟨fun _ _ => rfl, getLsbD_roundConstants,
    fun a x y => ⟨laneAt_theta a x y, laneAt_rhoPi a x y, laneAt_chi a x y, fun ir => laneAt_iota a ir x y⟩⟩

/-! ### The raw commands in IDLE and outside it (R112 to R115) -/

/-- The state with its 200 bytes replaced. -/
def State.setSt (s : State) (st : Vector Byte 200) : State := { s with sponge := { s.sponge with st := st } }

@[simp] theorem State.setSt_sponge_st (s : State) (st : Vector Byte 200) : (s.setSt st).sponge.st = st := rfl
@[simp] theorem State.setSt_phase (s : State) (st : Vector Byte 200) : (s.setSt st).phase = s.phase := rfl

/-- A command that replaces the 200 bytes and completes changes only them and `STATUS`. -/
theorem State.complete_setSt (s : State) (st : Vector Byte 200) :
    (s.setSt st).complete = { s with sponge := { s.sponge with st := st }, err := .ok, accept := false } := rfl

@[simp] theorem State.setSt_setSt (s : State) (st st' : Vector Byte 200) : (s.setSt st).setSt st' = s.setSt st' := rfl
@[simp] theorem State.setSt_complete (s : State) (st : Vector Byte 200) : s.complete.setSt st = (s.setSt st).complete := rfl

theorem exec_kround {s : State} (hs : s.phase = .idle) {ir : BitVec 5} (h : ir.toNat < 24) :
    exec (.kround ir) s = .next (s.setSt (keccakRoundBytes s.sponge.st ⟨ir.toNat, h⟩)).complete := by
  rw [exec, execKround, dif_pos h, if_neg (not_not.mpr hs)]
  rfl

theorem exec_kround_of_ne {s : State} (hs : s.phase ≠ .idle) {ir : BitVec 5} (h : ir.toNat < 24) :
    exec (.kround ir) s = .next (s.raise .seq) := by
  rw [exec, execKround, dif_pos h, if_pos hs]

theorem exec_keccakf {s : State} (hs : s.phase = .idle) :
    exec .keccakf s = .next (s.setSt (keccakF s.sponge.st)).complete := by
  rw [exec, execKeccakf, if_neg (not_not.mpr hs)]
  rfl

theorem exec_keccakf_of_ne {s : State} (hs : s.phase ≠ .idle) : exec .keccakf s = .next (s.raise .seq) := by
  rw [exec, execKeccakf, if_pos hs]

theorem exec_stld {s : State} (hs : s.phase = .idle) {ra : BReg} (h : (s.readB ra).length = 200) :
    exec (.stld ra) s = .next (s.setSt (s.sponge.load (s.readB ra)).st).complete := by
  rw [exec, execStld, if_neg (not_not.mpr hs), if_neg (not_not.mpr h)]
  rfl

theorem exec_strd {s : State} (hs : s.phase = .idle) (rd : BReg) :
    exec (.strd rd) s = .next (s.writeB rd s.sponge.bytes).complete := by
  rw [exec, execStrd, if_neg (not_not.mpr hs)]

/-! ### A list of rounds (R109, R112) -/

/-- The KROUND command of a round. -/
def kroundOf (k : Fin 24) : Instr := .kround (BitVec.ofNat 5 k.val)

theorem toNat_ofNat_round (k : Fin 24) : (BitVec.ofNat 5 k.val).toNat = k.val :=
  Nat.mod_eq_of_lt (by omega)

theorem exec_kroundOf {s : State} (hs : s.phase = .idle) (k : Fin 24) :
    exec (kroundOf k) s = .next (s.setSt (keccakRoundBytes s.sponge.st k)).complete := by
  have h := toNat_ofNat_round k
  rw [kroundOf, exec_kround hs (by omega)]
  simp only [h]

theorem exec_kroundOf_of_ne {s : State} (hs : s.phase ≠ .idle) (k : Fin 24) : exec (kroundOf k) s = .next (s.raise .seq) :=
  exec_kround_of_ne hs (by rw [toNat_ofNat_round]; exact k.isLt)

/-- In IDLE the rounds of a list are applied one after the other. -/
theorem execAll_kroundOf {s : State} (hs : s.phase = .idle) {rounds : List (Fin 24)} (hne : rounds ≠ []) :
    execAll (rounds.map kroundOf) s = .next (s.setSt (rounds.foldl keccakRoundBytes s.sponge.st)).complete := by
  induction rounds generalizing s with
  | nil => exact absurd rfl hne
  | cons k rounds ih =>
    rw [List.map_cons, execAll_cons (exec_kroundOf hs k)]
    cases rounds with
    | nil => rfl
    | cons k' rounds =>
      rw [ih (s := (s.setSt (keccakRoundBytes s.sponge.st k)).complete) (by simp [hs]) (List.cons_ne_nil _ _)]
      simp

/-- Outside IDLE every command of the list raises SEQ, so the list does. -/
theorem execAll_kroundOf_of_ne {s : State} (hs : s.phase ≠ .idle) {rounds : List (Fin 24)} (hne : rounds ≠ []) :
    execAll (rounds.map kroundOf) s = .next (s.raise .seq) := by
  induction rounds generalizing s with
  | nil => exact absurd rfl hne
  | cons k rounds ih =>
    rw [List.map_cons, execAll_cons (exec_kroundOf_of_ne hs k)]
    cases rounds with
    | nil => rfl
    | cons k' rounds => exact ih hs (List.cons_ne_nil _ _)

/-- The permutation is its rounds on the bytes, since going to lanes and back between two rounds changes nothing. -/
theorem foldl_keccakRoundBytes (st : Vector Byte 200) : (List.finRange 24).foldl keccakRoundBytes st = keccakF st := by
  apply eq_of_lanesOf_eq
  rw [lanesOf_keccakF, keccakLanes]
  exact (List.foldl_hom lanesOf fun st ir => (lanesOf_keccakRoundBytes st ir).symm).symm

/-- R112: the 24 KROUND commands in order are KECCAKF. -/
theorem execAll_kround_eq_keccakf (s : State) : execAll ((List.finRange 24).map kroundOf) s = exec .keccakf s := by
  have hne : List.finRange 24 ≠ [] := by simp
  by_cases hs : s.phase = .idle
  · rw [execAll_kroundOf hs hne, foldl_keccakRoundBytes, exec_keccakf hs]
  · rw [execAll_kroundOf_of_ne hs hne, exec_keccakf_of_ne hs]

/-- Settles O14: the bytes that stand in the state afterwards have the lanes asked for, and the 24 rounds are KECCAKF. -/
theorem permutationCommands : Obligations.PermutationCommands := by
  unfold Obligations.PermutationCommands
  refine ⟨?kround, ?keccakf, execAll_kround_eq_keccakf⟩
  case kround =>
    intro s ir h hs
    exact ⟨_, lanesOf_keccakRoundBytes _ _, by rw [exec_kround hs h, State.complete_setSt]⟩
  case keccakf =>
    intro s hs
    exact ⟨_, lanesOf_keccakF _, by rw [exec_keccakf hs, State.complete_setSt]⟩

/-! ### Moving the 200 bytes (R114, R115) -/

theorem get_load_st (u : Sponge) (v : Bytes) (j : Fin 200) : (u.load v).st.get j = v.getD j.val 0 :=
  ((u.load v).read_lt j.isLt).symm.trans (u.read_load v j.isLt)

theorem getD_bytes (u : Sponge) (j : Fin 200) : u.bytes.getD j.val 0 = u.st.get j := by
  simp [Sponge.bytes, Vector.get_eq_getElem]

/-- Storing the bytes and loading them again writes the register and leaves the sponge as it was. -/
theorem execAll_strd_stld {s : State} (hs : s.phase = .idle) (rd : BReg) :
    execAll [.strd rd, .stld rd] s = .next (s.writeB rd s.sponge.bytes).complete := by
  have hread : ((s.writeB rd s.sponge.bytes).complete).readB rd = s.sponge.bytes := s.readB_writeB_same rd _
  have hlen := (congrArg List.length hread).trans s.sponge.length_bytes
  rw [execAll_cons (exec_strd hs rd), execAll_singleton, exec_stld (s := (s.writeB rd s.sponge.bytes).complete) hs hlen, hread,
    State.complete_sponge, State.writeB_sponge, Sponge.load_bytes]
  rfl

/-- Settles O15: what loading and storing do to each byte, and that loading what was stored restores the sponge. -/
theorem rawTransfer : Obligations.RawTransfer := by
  unfold Obligations.RawTransfer
  refine ⟨?stld, ?strd, fun _ rd hs => ⟨_, execAll_strd_stld hs rd⟩⟩
  case stld =>
    intro s ra hs hlen
    exact ⟨_, get_load_st _ _, by rw [exec_stld hs hlen, State.complete_setSt]⟩
  case strd =>
    intro s rd hs
    exact ⟨_, s.sponge.length_bytes, getD_bytes s.sponge, exec_strd hs rd⟩

end Sys2Proof.Machine
end

section
/-! The sponge (42_sponge.md): the five commands where they are allowed, the bytes that absorbing, padding and squeezing touch, the streams,
and the phase table of R120. -/

namespace Sys2Proof.Machine

/-! ### The commands in the phases that allow them (R121 to R129) -/

theorem exec_absorb {s : State} (hs : s.phase = .ready ∨ s.phase = .absorbing) (ra : BReg) :
    exec (.absorb ra) s = .next { s with sponge := absorbBytes s.sponge (s.readB ra), phase := .absorbing }.complete := by
  rw [exec, execAbsorb, if_neg (by tauto)]

theorem exec_final {s : State} (hs : s.phase = .ready ∨ s.phase = .absorbing) (suffix : Byte) :
    exec (.final suffix) s = .next { s with sponge := finalize s.sponge suffix, phase := .squeezing }.complete := by
  rw [exec, execFinal, if_neg (by tauto)]

theorem exec_squeeze {s : State} (hs : s.phase = .squeezing) (rd : BReg) {ra : NReg} (hn : (s.readN ra).toNat ≤ bmax) :
    exec (.squeeze rd ra) s = .next ({ s with sponge := (squeezeBytes (s.readN ra).toNat s.sponge).2 }.writeB rd
      (squeezeBytes (s.readN ra).toNat s.sponge).1).complete := by
  rw [exec, execSqueeze, if_neg (not_not.mpr hs), if_neg (Nat.not_lt.mpr hn)]

/-- Settles O16: neither command looks at the phase. -/
theorem sinitSdoneResult : Obligations.SinitSdoneResult := by
  unfold Obligations.SinitSdoneResult
  exact fun s => ⟨rfl, rfl⟩

/-! ### Absorbing (R122, R123) -/

/-- Settles O17: the cursor and the bytes are those of the absorbed string. -/
theorem absorbResult : Obligations.AbsorbResult := by
  unfold Obligations.AbsorbResult
  intro s ra hs hpt
  exact ⟨exec_absorb hs ra, absorbBytes_pt hpt _, fun hfit j _ => absorbBytes_read _ hfit j⟩

/-- A byte of the state, read at its address. -/
theorem Sponge.get_st (u : Sponge) (j : Fin 200) : u.st.get j = u.read j := (u.read_lt j.isLt).symm

/-- The byte at the last place of the block fills it: it is XORed in and the block is permuted (R122). -/
theorem absorbByte_of_full {u : Sponge} (h : u.pt.toNat = 135) (c : Byte) :
    absorbByte u c = permuteBlock (u.xorAt 135 c) := by
  have hpt : (u.pt + 1).toNat = 136 := by rw [succ_toNat (by omega), h]
  unfold absorbByte
  rw [h]
  exact if_pos hpt

/-- The bytes that are permuted at the block's end: the last one is XORed in at 135, those before it below. -/
theorem read_xorAt_absorbBytes {u : Sponge} {front : Bytes} (h : u.pt.toNat + front.length = 135) (last : Byte) (j : Nat) :
    ((absorbBytes u front).xorAt 135 last).read j =
      if u.pt.toNat ≤ j ∧ j < 136 then u.read j ^^^ (front ++ [last]).getD (j - u.pt.toNat) 0 else u.read j := by
  rw [Sponge.read_xorAt _ _ _ _ (by decide), absorbBytes_read front (by omega)]
  by_cases hlast : j = 135
  · have hindex : j - u.pt.toNat = front.length := by omega
    rw [if_pos hlast, if_neg (by omega), if_pos (by omega), hindex, List.getD_append_right _ _ _ _ le_rfl, Nat.sub_self]
    rfl
  · rw [if_neg hlast]
    by_cases hfront : u.pt.toNat ≤ j ∧ j < u.pt.toNat + front.length
    · rw [if_pos hfront, if_pos (by omega), List.getD_append _ _ _ _ (by omega)]
    · rw [if_neg hfront, if_neg (by omega)]

/-- Settles O18: the string that fills the block is all its bytes but the last, which stay below the block's end, and the last one, which
reaches it. -/
theorem absorbBlock : Obligations.AbsorbBlock := by
  unfold Obligations.AbsorbBlock
  intro u a v hne hlen
  obtain ⟨front, last, rfl⟩ := (List.eq_nil_or_concat' a).resolve_left hne
  have hfront : u.pt.toNat + front.length = 135 := by rw [List.length_append, List.length_singleton] at hlen; omega
  have hpt : (absorbBytes u front).pt.toNat = 135 := by rw [absorbBytes_pt (by omega)]; omega
  refine ⟨((absorbBytes u front).xorAt 135 last).st, fun j => ?_, ?_⟩
  · rw [Sponge.get_st, Sponge.get_st, read_xorAt_absorbBytes hfront]
  · rw [absorbBytes_append, absorbBytes_append, absorbBytes_cons, absorbBytes_nil, absorbByte_of_full hpt]
    rfl

/-! ### Padding (R124, R125) -/

/-- XORing a byte in at one address XORs zero in at the others. -/
theorem Sponge.read_xorAt_eq_xor (u : Sponge) {a : Nat} (ha : a < 200) (j : Nat) (c : Byte) :
    (u.xorAt a c).read j = u.read j ^^^ (if j = a then c else 0) := by
  rw [Sponge.read_xorAt u a j c ha]
  split
  · next h => rw [h]
  · exact (BitVec.xor_zero).symm

/-- Settles O19: the bytes that are permuted are those after the two XORs. -/
theorem finalResult : Obligations.FinalResult := by
  unfold Obligations.FinalResult
  intro s suffix hs hpt
  refine ⟨((s.sponge.xorAt s.sponge.pt.toNat suffix).xorAt 135 0x80).st, fun j => ?_, exec_final hs suffix⟩
  rw [Sponge.get_st, Sponge.get_st, Sponge.read_xorAt_eq_xor _ (by decide), Sponge.read_xorAt_eq_xor _ (by omega)]

/-! ### Squeezing (R127, R128) -/

/-- Inside the rate window squeezing leaves the state bytes alone (R127). -/
theorem squeezeBytes_st_of_le {u : Sponge} {n : Nat} (h : u.pt.toNat + n ≤ 136) : (squeezeBytes n u).2.st = u.st := by
  rcases Nat.eq_zero_or_pos n with rfl | hn
  · rfl
  · exact (squeezeBytes_of_le h 0 hn).2

/-- A used-up window is permuted before the first byte that is asked for (R127). -/
theorem squeezeBytes_of_used_up {u : Sponge} (h : u.pt.toNat = 136) {n : Nat} (hn : 0 < n) :
    squeezeBytes n u = squeezeBytes n (permuteBlock u) := by
  obtain ⟨k, rfl⟩ := Nat.exists_eq_succ_of_ne_zero hn.ne'
  have hpermuted : ¬ (permuteBlock u).pt.toNat = rsiz := by simp [rsiz]
  simp only [squeezeBytes, if_pos (show u.pt.toNat = rsiz from h), if_neg hpermuted]

/-- Settles O20: the output and the unit of SQUEEZE are those of `squeeze`, and a used-up window becomes a fresh one first. -/
theorem squeezeResult : Obligations.SqueezeResult := by
  unfold Obligations.SqueezeResult
  intro s rd ra hs hn hpt
  refine ⟨_, _, exec_squeeze hs rd hn, length_squeezeBytes _ _, squeezeBytes_pt hpt _, ?none, ?window, ?usedUp⟩
  case none => intro h; rw [h, squeezeBytes_zero]
  case window => exact fun h => ⟨squeezeBytes_st_of_le h, fun j hj => (squeezeBytes_of_le h j hj).1⟩
  case usedUp =>
    intro hfull hpos hle
    have hfit : (permuteBlock s.sponge).pt.toNat + (s.readN ra).toNat ≤ 136 := by simpa using hle
    rw [squeezeBytes_of_used_up hfull hpos]
    refine ⟨squeezeBytes_st_of_le hfit, fun j hj => ?_⟩
    rw [(squeezeBytes_of_le hfit j hj).1]
    simp [Sponge.read]

/-! ### Streams (R130) -/

/-- ABSORB reads a register it does not write, so a second one absorbs what its register held at first. -/
theorem execAll_absorb_absorb {s : State} (hs : s.phase = .ready ∨ s.phase = .absorbing) (ra rb : BReg) :
    execAll [.absorb ra, .absorb rb] s =
      .next { s with sponge := absorbBytes s.sponge (s.readB ra ++ s.readB rb), phase := .absorbing }.complete := by
  rw [execAll_cons (exec_absorb hs ra), execAll_singleton, exec_absorb (.inr rfl), absorbBytes_append]
  rfl

/-- Two SQUEEZEs, the second from the unit the first one left. -/
theorem execAll_squeeze_squeeze {s : State} (hs : s.phase = .squeezing) {rd re : BReg} (hne : rd ≠ re) {ra rb : NReg}
    (ha : (s.readN ra).toNat ≤ bmax) (hb : (s.readN rb).toNat ≤ bmax) :
    let first := squeezeBytes (s.readN ra).toNat s.sponge
    let second := squeezeBytes (s.readN rb).toNat first.2
    ∃ t, execAll [.squeeze rd ra, .squeeze re rb] s = .next t ∧ t.readB rd = first.1 ∧ t.readB re = second.1 ∧
      t.sponge = second.2 ∧ t.phase = .squeezing := by
  intro first second
  have hsecond := exec_squeeze (s := ({ s with sponge := first.2 }.writeB rd first.1).complete) hs re hb
  refine ⟨_, (execAll_cons (exec_squeeze hs rd ha) _).trans ((execAll_singleton _ _).trans hsecond), ?_, ?_, rfl, hs⟩
  · rw [State.readB_complete, State.readB_writeB_other _ _ hne.symm]
    exact State.readB_writeB_same _ rd first.1
  · exact State.readB_writeB_same _ re second.1

/-- Settles O21: both commands inherit the streaming law of the function they run. -/
theorem spongeStreams : Obligations.SpongeStreams := by
  unfold Obligations.SpongeStreams
  refine ⟨fun s ra rb rc hs hc => ?absorb, fun s ra rb rc rd re rf hs hc hfit hne => ?squeeze⟩
  case absorb => rw [execAll_absorb_absorb hs, exec_absorb hs, hc]
  case squeeze =>
    obtain ⟨t, ht, hrd, hre, hsponge, hphase⟩ :=
      execAll_squeeze_squeeze hs hne (ra := ra) (rb := rb) (by omega) (by omega)
    refine ⟨t, _, ht, exec_squeeze hs rf hfit, ?_, ?_, hs.trans hphase.symm⟩
    · rw [State.readB_complete, State.readB_writeB_same, hc, squeezeBytes_add, hrd, hre]
    · rw [State.complete_sponge, State.writeB_sponge, hc, squeezeBytes_add, hsponge]

/-! ### The phase table (R120, R262, R265, R266) -/

section PhaseTable
variable {i : Instr} {s t : State}

/-- In a phase that does not allow the command, raising SEQ is the one outcome (R262). -/
theorem Outcome.eq_raise_seq (h : Outcome i s t) (hi : i.allowedIn s.phase = false) : t = s.raise .seq := by
  cases h with
  | seq => rfl
  | _ => cases hi.symm.trans ‹i.allowedIn s.phase = true›

/-- In a phase that allows the command no outcome is SEQ (R262). -/
theorem Outcome.err_ne_seq (h : Outcome i s t) (hi : i.allowedIn s.phase = true) : t.err ≠ .seq := by
  cases h with
  | seq h => cases h.symm.trans hi
  | done _ _ _ err => simp [err]
  | _ => nofun

/-- A command that ends with OK or AUTH_FAIL leaves the phase of R120's table, and one that raises leaves the phase it found (R265, R266). A
rejection leaves the unit destroyed, and IDLE is the phase in which the commands that reject are allowed. -/
theorem Outcome.phase_eq (h : Outcome i s t) :
    t.phase = if t.err = .ok ∨ t.err = .authFail then i.phaseAfter s.phase else s.phase := by
  cases h with
  | rejected h hi => rcases hi with rfl | rfl <;> exact (eq_of_beq h).symm
  | notVerified h hi => subst hi; exact (eq_of_beq h).symm
  | done _ _ _ err _ phase => rw [phase, if_pos (.inl err)]
  | drawLost => exact State.takeDraw_phase s
  | _ => rfl

end PhaseTable

/-- Settles O51: every well-formed command answers with an outcome, and each outcome follows the table. -/
theorem phaseTable : Obligations.PhaseTable := by
  unfold Obligations.PhaseTable
  intro i s hwf
  obtain ⟨t, ht, ho⟩ := exec_outcome i s hwf
  exact ⟨t, ht, ho.eq_raise_seq, fun hi => ⟨ho.err_ne_seq hi, ho.phase_eq⟩⟩

end Sys2Proof.Machine
end

section
/-! The encodings and the byte-string utilities (43_encodings.md): the bytes of the two length encodings and how they are cut off again, the
big-endian magnitude, and the commands where their operands fit and where they do not. -/

namespace Sys2Proof.Machine

/-! ### The length encodings (R140, R141, R144, R145) -/

theorem int_bigEndian_encodedLength (x : Nat) : int (bigEndian (encodedLength x) x) = x := int_bigEndian (lt_pow_encodedLength x)

/-- The length byte of a register's contents is their byte count (R144, R145). -/
theorem lengthByte_toNat (v : NWord) : lengthByte v.toNat = BitVec.ofNat 8 (encodedLength v.toNat) :=
  lengthByte_eq ((encodedLength_le_66 v).trans_lt (by decide))

theorem exec_lenc (rd : BReg) (ra : NReg) (s : State) :
    exec (.lenc rd ra) s = .next (s.writeB rd (leftEncode (s.readN ra).toNat)).complete := rfl

theorem exec_renc (rd : BReg) (ra : NReg) (s : State) :
    exec (.renc rd ra) s = .next (s.writeB rd (rightEncode (s.readN ra).toNat)).complete := rfl

/-- Settles O22: the least byte count is `encodedLength`, and it is a byte for every register's contents. -/
theorem lengthEncodings : Obligations.LengthEncodings := by
  unfold Obligations.LengthEncodings
  intro s rd ra
  refine ⟨encodedLength (s.readN ra).toNat, bigEndian (encodedLength (s.readN ra).toNat) (s.readN ra).toNat, one_le_encodedLength _,
    encodedLength_le_66 _, lt_pow_encodedLength _, fun m => encodedLength_le, length_bigEndian _ _, int_bigEndian_encodedLength _, ?_, ?_⟩
  · rw [exec_lenc, leftEncode, lengthByte_toNat]
  · rw [exec_renc, rightEncode, lengthByte_toNat]

/-! ### Cutting an encoding off again (R148, R149) -/

/-- Within R148's bound the length byte gives the byte count back. -/
theorem toNat_lengthByte {x : Nat} (hx : x < 2 ^ 2040) : (lengthByte x).toNat = encodedLength x := by
  rw [lengthByte_eq (encodedLength_lt_256 hx), BitVec.toNat_ofNat, Nat.mod_eq_of_lt (encodedLength_lt_256 hx)]

theorem encodedLength_eq_of_lengthByte_eq {x y : Nat} (hx : x < 2 ^ 2040) (hy : y < 2 ^ 2040) (h : lengthByte x = lengthByte y) :
    encodedLength x = encodedLength y := by
  rw [← toNat_lengthByte hx, h, toNat_lengthByte hy]

/-- The big-endian bytes determine the number. -/
theorem eq_of_bigEndian_encodedLength_eq {x y : Nat} (h : bigEndian (encodedLength x) x = bigEndian (encodedLength y) y) : x = y := by
  rw [← int_bigEndian_encodedLength x, h, int_bigEndian_encodedLength]

/-- The length byte comes first and says where the number's bytes end. -/
theorem leftEncode_append_cancel {x y : Nat} {u v : Bytes} (hx : x < 2 ^ 2040) (hy : y < 2 ^ 2040)
    (h : leftEncode x ++ u = leftEncode y ++ v) : x = y ∧ u = v := by
  obtain ⟨hbyte, hrest⟩ := List.cons.inj h
  have hlen := encodedLength_eq_of_lengthByte_eq hx hy hbyte
  obtain ⟨hnum, hstr⟩ := List.append_inj hrest (by simpa using hlen)
  exact ⟨eq_of_bigEndian_encodedLength_eq hnum, hstr⟩

/-- The length byte comes last and says where the number's bytes begin. -/
theorem append_rightEncode_cancel {x y : Nat} {u v : Bytes} (hx : x < 2 ^ 2040) (hy : y < 2 ^ 2040)
    (h : u ++ rightEncode x = v ++ rightEncode y) : x = y ∧ u = v := by
  rw [rightEncode, rightEncode, ← List.append_assoc, ← List.append_assoc] at h
  obtain ⟨hrest, hbyte⟩ := List.append_inj' h rfl
  have hlen := encodedLength_eq_of_lengthByte_eq hx hy (List.singleton_inj.mp hbyte)
  obtain ⟨hstr, hnum⟩ := List.append_inj' hrest (by simpa using hlen)
  exact ⟨eq_of_bigEndian_encodedLength_eq hnum, hstr⟩

/-- Settles O23: the two cut-off laws, and the length law of `bytepad`. -/
theorem encodingsUnambiguous : Obligations.EncodingsUnambiguous := by
  unfold Obligations.EncodingsUnambiguous
  refine ⟨fun x y u v => leftEncode_append_cancel, fun x y u v => append_rightEncode_cancel, fun x w hw => ?_⟩
  rw [length_bytepad x hw]
  exact Nat.mod_eq_zero_of_dvd (bytepadLength_spec x hw).1

/-! ### ENCSTR and BYTEPAD (R146, R147) -/

section Commands
variable {s : State} {ra : BReg} {rb : NReg}

theorem exec_encstr (rd : BReg) (h : (encodeString (s.readB ra)).length ≤ bmax) :
    exec (.encstr rd ra) s = .next (s.writeB rd (encodeString (s.readB ra))).complete := by
  rw [encodeString, List.length_append] at h
  rw [exec, execEncstr, if_neg (Nat.not_lt.mpr h)]

theorem exec_encstr_of_lt (rd : BReg) (h : bmax < (encodeString (s.readB ra)).length) :
    exec (.encstr rd ra) s = .next (s.raise .param) := by
  rw [encodeString, List.length_append] at h
  rw [exec, execEncstr, if_pos h]

theorem exec_bytepad_zero (rd ra : BReg) (hw : (s.readN rb).toNat = 0) : exec (.bytepad rd ra rb) s = .next (s.raise .param) := by
  rw [exec, execBytepad, if_pos hw]

theorem exec_bytepad (rd : BReg) (hw : 0 < (s.readN rb).toNat) (h : bytepadLength (s.readB ra) (s.readN rb).toNat ≤ bmax) :
    exec (.bytepad rd ra rb) s = .next (s.writeB rd (bytepad (s.readB ra) (s.readN rb).toNat)).complete := by
  rw [exec, execBytepad, if_neg hw.ne', if_neg (Nat.not_lt.mpr h)]

theorem exec_bytepad_of_lt (rd : BReg) (hw : 0 < (s.readN rb).toNat) (h : bmax < bytepadLength (s.readB ra) (s.readN rb).toNat) :
    exec (.bytepad rd ra rb) s = .next (s.raise .param) := by
  rw [exec, execBytepad, if_neg hw.ne', if_pos h]

end Commands

/-- `bytepad` adds fewer zero bytes than the width, so the fewest, and up to the length the command compares (R143, R147). -/
theorem exists_bytepad_zeros (x : Bytes) {w : Nat} (hw : 0 < w) :
    ∃ k, k < w ∧ (leftEncode w ++ x).length + k = bytepadLength x w ∧ bytepad x w = leftEncode w ++ x ++ List.replicate k 0 := by
  obtain ⟨-, hle, hlt⟩ := bytepadLength_spec x hw
  rw [← List.length_append] at hle hlt
  exact ⟨bytepadLength x w - (leftEncode w ++ x).length, by omega, by omega, rfl⟩

/-- Settles O24: ENCSTR writes `encode_string`, BYTEPAD `bytepad` with the zero bytes it adds. -/
theorem stringEncodings : Obligations.StringEncodings := by
  unfold Obligations.StringEncodings
  refine ⟨fun s rd ra => ⟨exec_encstr rd, exec_encstr_of_lt rd⟩, fun s rd ra rb => ⟨exec_bytepad_zero rd ra, fun hw => ?_⟩⟩
  obtain ⟨k, hk, hlen, hpad⟩ := exists_bytepad_zeros (s.readB ra) hw
  refine ⟨k, hk, ?_⟩
  rw [hlen, ← hpad]
  exact ⟨(bytepadLength_spec _ hw).1, exec_bytepad rd hw, exec_bytepad_of_lt rd hw⟩

/-! ### Byte strings as integers (R155, R156, R158, R159) -/

theorem int_cons (c : Byte) (v : Bytes) : int (c :: v) = c.toNat * 256 ^ v.length + int v := by
  have hc : int [c] = c.toNat := by simp [int]
  rw [← List.singleton_append, int_append, hc]

/-- Each byte counts with the power of 256 of the number of bytes after it (R12). -/
theorem int_eq_sum (v : Bytes) : int v = ∑ i ∈ Finset.range v.length, (v.getD i 0).toNat * 256 ^ (v.length - 1 - i) := by
  induction v with
  | nil => rfl
  | cons c v ih =>
    have hexp : ∀ i, v.length + 1 - 1 - (i + 1) = v.length - 1 - i := by omega
    simp only [List.length_cons, Finset.sum_range_succ', List.getD_cons_succ, List.getD_cons_zero, hexp]
    rw [int_cons, ih, Nat.add_comm]
    rfl

theorem exec_b2i {s : State} (rd : NReg) {ra : BReg} (h : int (s.readB ra) < 2 ^ 521) :
    exec (.b2i rd ra) s = .next (s.writeN rd (toNWord (int (s.readB ra)))).complete := by
  rw [exec, execB2i, if_neg (Nat.not_le.mpr h)]

theorem exec_b2i_of_le {s : State} (rd : NReg) {ra : BReg} (h : 2 ^ 521 ≤ int (s.readB ra)) :
    exec (.b2i rd ra) s = .next (s.raise .param) := by
  rw [exec, execB2i, if_pos h]

/-- Settles O26: `int` is the weighted sum, and B2I compares it with `2^521`. -/
theorem b2iResult : Obligations.B2iResult := by
  unfold Obligations.B2iResult
  refine ⟨int_eq_sum, fun v => ?_, fun s rd ra h => ⟨_, toNat_toNWord h, exec_b2i rd h⟩, fun s rd ra => exec_b2i_of_le rd⟩
  simp [int_cons]

theorem exec_i2b (rd : BReg) (ra : NReg) (s : State) : exec (.i2b rd ra) s = .next (s.writeB rd (i2b (s.readN ra))).complete := rfl

/-- B2I of the register I2B wrote returns the integer: the law of R158 gives its magnitude back, which is a register's contents. -/
theorem execAll_i2b_b2i (rd : BReg) (ra re : NReg) (s : State) :
    execAll [.i2b rd ra, .b2i re rd] s = .next ((s.writeB rd (i2b (s.readN ra))).writeN re (s.readN ra)).complete := by
  have hint : int ((s.writeB rd (i2b (s.readN ra))).complete.readB rd) = (s.readN ra).toNat := by
    rw [State.readB_complete, State.readB_writeB_same, (i2b_law _).2]
  rw [execAll_cons (exec_i2b rd ra s), execAll_singleton, exec_b2i re (by omega), hint, toNWord_toNat,
    State.writeN_complete, State.complete_complete]

/-- Settles O27: the law of R158, and the round trip. -/
theorem i2bResult : Obligations.I2bResult := by
  unfold Obligations.I2bResult
  exact fun s rd ra => ⟨i2b (s.readN ra), (i2b_law _).1, (i2b_law _).2, exec_i2b rd ra s, fun re => execAll_i2b_b2i rd ra re s⟩

/-! ### The utilities (R150, R151, R160, R161) -/

theorem exec_bcat {s : State} (rd : BReg) {ra rb : BReg} (h : (s.readB ra).length + (s.readB rb).length ≤ bmax) :
    exec (.bcat rd ra rb) s = .next (s.writeB rd (s.readB ra ++ s.readB rb)).complete := by
  rw [exec, execBcat, if_neg (Nat.not_lt.mpr h)]

theorem exec_bxor {s : State} (rd : BReg) {ra rb : BReg} (h : (s.readB ra).length = (s.readB rb).length) :
    exec (.bxor rd ra rb) s = .next (s.writeB rd (xorBytes (s.readB ra) (s.readB rb))).complete := by
  rw [exec, execBxor, if_neg (not_not.mpr h)]

theorem toNat_zext521 (imm : BitVec 12) : (zext521 imm).toNat = imm.toNat := BitVec.toNat_setWidth_of_le (by decide)

/-- Settles O25: each command reads its operands before it writes, so coinciding registers make no difference. -/
theorem byteStringUtilities : Obligations.ByteStringUtilities := by
  unfold Obligations.ByteStringUtilities
  refine ⟨fun s rd ra rb => exec_bcat rd, fun s rd ra rb h => ?bxor, fun s rd imm => ⟨_, toNat_zext521 imm, exec_nli rd imm s⟩,
    fun s rd => exec_bclr rd s⟩
  case bxor =>
    have hlen : (xorBytes (s.readB ra) (s.readB rb)).length = (s.readB ra).length := by rw [length_xorBytes, ← h, Nat.min_self]
    exact ⟨_, hlen, fun j hj => getD_xorBytes _ _ h j (hlen ▸ hj), exec_bxor rd h⟩

end Sys2Proof.Machine
end

section
/-! cSHAKE and KMACXOF (44_cshake_kmac.md): what the two commands answer, that a longer output begins with the shorter one, that they equal
their sequences of primitive commands, and that a composite command does not depend on the sponge unit it finds. -/

namespace Sys2Proof.Machine

/-! ### The two commands (R173 to R177) -/

/-- A command that completes and leaves the unit destroyed changes nothing more of the engine than the unit, the phase and `STATUS`. -/
theorem State.complete_destroySponge (s : State) : s.destroySponge.complete =
    { s with sponge := ⟨Vector.replicate 200 0, 0⟩, phase := .idle, err := .ok, accept := false } := rfl

/-- KMACXOF completes when its output length is accepted (R177). -/
theorem exec_kmacxof {s : State} (hs : s.phase = .idle) (h8 : (s.readN NL).toNat % 8 = 0) (hl : (s.readN NL).toNat / 8 ≤ bmax) :
    exec .kmacxof s =
      .next (s.writeB BO (kmacxof (s.readB BK) (s.readB BX) (s.readN NL).toNat (s.readB BS))).destroySponge.complete := by
  have hbad : ¬ badOutputLength (s.readN NL).toNat = true := by rw [badOutputLength_eq]; omega
  rw [exec, execKmacxof, if_neg (not_not.mpr hs), if_neg hbad]

/-- Settles O28: with both strings empty `cshake` is plain SHAKE, otherwise the sponge over the padded strings and the message. -/
theorem cshakeResult : Obligations.CshakeResult := by
  unfold Obligations.CshakeResult
  intro s hs h8 hl out
  have hout : cshake (s.readB BX) (s.readN NL).toNat (s.readB BN) (s.readB BS) = out := by
    by_cases hempty : s.readB BN = [] ∧ s.readB BS = []
    · obtain ⟨hn, hc⟩ := hempty
      simp only [out, hn, hc, cshake_plain, and_self, if_true]
    · rw [cshake_eq _ _ (not_and_or.mp hempty)]
      exact (if_neg hempty).symm
  rw [exec_cshake hs h8 hl, hout, State.complete_destroySponge]

/-- The name "KMAC" as `encode_string` writes it (R176). -/
theorem encodeString_kmacName : encodeString kmacName = [0x01, 0x20, 0x4B, 0x4D, 0x41, 0x43] := by decide

/-- Settles O29: `kmacxof` is the sponge over its four pieces. -/
theorem kmacxofResult : Obligations.KmacxofResult := by
  unfold Obligations.KmacxofResult
  intro s hs h8 hl out
  have hout : kmacxof (s.readB BK) (s.readB BX) (s.readN NL).toNat (s.readB BS) = out := by
    rw [kmacxof_eq, encodeString_kmacName, ← List.append_assoc, ← List.append_assoc]
  rw [exec_kmacxof hs h8 hl, hout, State.complete_destroySponge]

/-! ### A longer output (R174) -/

/-- `cshake` emits the beginning of one stream, as long as it is asked for. -/
theorem cshake_extends (x n s : Bytes) {l l' : Nat} (h : l ≤ l') : ∃ v, cshake x l' n s = cshake x l n s ++ v := by
  obtain ⟨m, hm⟩ := Nat.exists_eq_add_of_le (Nat.div_le_div_right (c := 8) h)
  simp only [cshake, hm, squeezeBytes_add]
  exact ⟨_, rfl⟩

theorem kmacxof_extends (k x s : Bytes) {l l' : Nat} (h : l ≤ l') : ∃ v, kmacxof k x l' s = kmacxof k x l s ++ v :=
  cshake_extends _ _ _ h

/-- Settles O30: both commands write what one stream begins with, and `NL` is no other operand of theirs. -/
theorem longerOutputExtends : Obligations.LongerOutputExtends := by
  unfold Obligations.LongerOutputExtends
  intro s i l hi hs h8 h8' hle hfit
  have hl : (s.readN NL).toNat / 8 ≤ bmax := (Nat.div_le_div_right hle).trans hfit
  have hnl : (s.writeN NL l).readN NL = l := State.readN_writeN_same s NL l
  rw [← hnl] at h8' hfit
  rcases hi with rfl | rfl
  · obtain ⟨v, hv⟩ := cshake_extends (s.readB BX) (s.readB BN) (s.readB BS) hle
    refine ⟨_, _, v, exec_cshake hs h8 hl, exec_cshake (s := s.writeN NL l) hs h8' hfit, ?_⟩
    simpa using hv
  · obtain ⟨v, hv⟩ := kmacxof_extends (s.readB BK) (s.readB BX) (s.readB BS) hle
    refine ⟨_, _, v, exec_kmacxof hs h8 hl, exec_kmacxof (s := s.writeN NL l) hs h8' hfit, ?_⟩
    simpa using hv

/-! ### Writes to byte-string registers -/

@[simp] theorem State.writeB_writeB_same (s : State) (i : BReg) (v w : Bytes) : (s.writeB i v).writeB i w = s.writeB i w := by
  simp [State.writeB]

theorem State.writeB_comm (s : State) {i j : BReg} (h : i ≠ j) (v w : Bytes) :
    (s.writeB i v).writeB j w = (s.writeB j w).writeB i v := by
  simp only [State.writeB, Vector.set_comm _ _ (Fin.val_ne_of_ne h)]

@[simp] theorem State.writeB_destroySponge (s : State) (i : BReg) (v : Bytes) :
    s.destroySponge.writeB i v = (s.writeB i v).destroySponge := rfl

/-! ### Sequences of commands (R178) -/

theorem execAll_append {s t : State} {is : List Instr} (js : List Instr) (h : execAll is s = .next t) :
    execAll (is ++ js) s = execAll js t := by
  induction is generalizing s with
  | nil => cases h; rfl
  | cons i is ih =>
    rw [List.cons_append, execAll]
    rw [execAll] at h
    cases hi : exec i s <;> rw [hi] at h
    · exact ih h
    · cases h
    · cases h

/-- The state with its sponge unit and the phase replaced. -/
def State.setUnit (s : State) (u : Sponge) (ph : Phase) : State := { s with sponge := u, phase := ph }

section Operation
variable (s : State) (u : Sponge) {ph : Phase}

theorem exec_sinit : exec .sinit s = .next (s.setUnit Sponge.zero .ready).complete := rfl

theorem exec_absorb_setUnit (hph : ph = .ready ∨ ph = .absorbing) (ra : BReg) :
    exec (.absorb ra) (s.setUnit u ph).complete = .next (s.setUnit (absorbBytes u (s.readB ra)) .absorbing).complete :=
  exec_absorb (s := (s.setUnit u ph).complete) hph ra

theorem exec_final_setUnit (hph : ph = .ready ∨ ph = .absorbing) (suffix : Byte) :
    exec (.final suffix) (s.setUnit u ph).complete = .next (s.setUnit (finalize u suffix) .squeezing).complete :=
  exec_final (s := (s.setUnit u ph).complete) hph suffix

theorem exec_squeeze_setUnit (rd : BReg) {ra : NReg} (hn : (s.readN ra).toNat ≤ bmax) :
    exec (.squeeze rd ra) (s.setUnit u .squeezing).complete = .next ((s.writeB rd (squeezeBytes (s.readN ra).toNat u).1).setUnit
      (squeezeBytes (s.readN ra).toNat u).2 .squeezing).complete :=
  exec_squeeze (s := (s.setUnit u .squeezing).complete) rfl rd hn

theorem exec_sdone_setUnit (ph : Phase) : exec .sdone (s.setUnit u ph).complete = .next s.destroySponge.complete := rfl

/-- Absorbing registers one after the other absorbs their concatenation, since ABSORB writes no register (R123, R130). -/
theorem execAll_absorbs (hph : ph = .ready ∨ ph = .absorbing) (rs : List BReg) :
    ∃ ph', (ph' = .ready ∨ ph' = .absorbing) ∧
      execAll (rs.map .absorb) (s.setUnit u ph).complete = .next (s.setUnit (absorbBytes u (rs.flatMap s.readB)) ph').complete := by
  induction rs generalizing u ph with
  | nil => exact ⟨ph, hph, rfl⟩
  | cons r rs ih =>
    rw [List.map_cons, execAll_cons (exec_absorb_setUnit s u hph r), List.flatMap_cons, absorbBytes_append]
    exact ih _ (.inr rfl)

/-- A whole operation on the engine's unit is `sponge` on the concatenation of the registers absorbed (R131). -/
theorem execAll_operation (rs : List BReg) (suffix : Byte) (rd : BReg) {ra : NReg} (hn : (s.readN ra).toNat ≤ bmax) :
    execAll (.sinit :: (rs.map .absorb ++ [.final suffix, .squeeze rd ra, .sdone])) s =
      .next (s.writeB rd (spongeHash (rs.flatMap s.readB) suffix (s.readN ra).toNat)).destroySponge.complete := by
  obtain ⟨ph, hph, habsorbs⟩ := execAll_absorbs s Sponge.zero (.inl rfl) rs
  rw [execAll_cons (exec_sinit s), execAll_append _ habsorbs, execAll_cons (exec_final_setUnit s _ hph suffix),
    execAll_cons (exec_squeeze_setUnit s _ rd hn), execAll_singleton, exec_sdone_setUnit, spongeHash]

end Operation

section Pieces
variable {s : State}

/-- A string fits where its padding to a width does. -/
theorem length_le_of_bytepad_le {x : Bytes} {w n : Nat} (hw : 0 < w) (h : (bytepad x w).length ≤ n) : x.length ≤ n := by
  have hle := (bytepadLength_spec x hw).2.1
  rw [length_bytepad x hw] at h
  omega

/-- Padding to a block, the width both sequences hold in `N3` (R178). -/
theorem exec_bytepad_block (rd ra : BReg) {rb : NReg} (hw : (s.readN rb).toNat = 136) (h : (bytepad (s.readB ra) 136).length ≤ bmax) :
    exec (.bytepad rd ra rb) s = .next (s.writeB rd (bytepad (s.readB ra) 136)).complete := by
  rw [length_bytepad _ (by decide), ← hw] at h
  rw [exec_bytepad rd (by omega) h, hw]

/-- The key's padding: ENCSTR and BYTEPAD into one register (R178). -/
theorem execAll_encstr_bytepad (rd ra : BReg) {rb : NReg} (hw : (s.readN rb).toNat = 136)
    (h : (bytepad (encodeString (s.readB ra)) 136).length ≤ bmax) :
    execAll [.encstr rd ra, .bytepad rd rd rb] s = .next (s.writeB rd (bytepad (encodeString (s.readB ra)) 136)).complete := by
  have hread : ((s.writeB rd (encodeString (s.readB ra))).complete).readB rd = encodeString (s.readB ra) := s.readB_writeB_same rd _
  rw [execAll_cons (exec_encstr rd (length_le_of_bytepad_le (by decide) h)), execAll_singleton,
    exec_bytepad_block _ _ (by exact hw) (by rwa [hread]), hread, State.writeB_complete, State.writeB_writeB_same, State.complete_complete]

variable {name key : Bytes}

/-- The first four commands of both sequences leave the padded name and customization string in `B5` (R178). -/
theorem execAll_namePrefix (hw : (s.readN 3).toNat = 136)
    (hname : bytepad (encodeString (s.readB BN) ++ encodeString (s.readB BS)) 136 = name) (h : name.length ≤ bmax) :
    execAll [.encstr 5 BN, .encstr 6 BS, .bcat 5 5 6, .bytepad 5 5 3] s =
      .next ((s.writeB 5 name).writeB 6 (encodeString (s.readB BS))).complete := by
  subst hname
  have hcat := length_le_of_bytepad_le (by decide) h
  have hsum := hcat
  rw [List.length_append] at hsum
  have hBS : (s.writeB 5 (encodeString (s.readB BN))).complete.readB BS = s.readB BS := State.readB_writeB_other _ _ (by decide)
  rw [execAll_cons (exec_encstr 5 (by omega)), execAll_cons (exec_encstr 6 (by rw [hBS]; omega)), hBS]
  generalize encodeString (s.readB BN) = n at *
  generalize encodeString (s.readB BS) = c at *
  have h5 : ((s.writeB 5 n).complete.writeB 6 c).complete.readB 5 = n := by simp [State.readB_writeB]
  have h6 : ((s.writeB 5 n).complete.writeB 6 c).complete.readB 6 = c := by simp
  rw [execAll_cons (exec_bcat 5 (by rwa [h5, h6])), execAll_singleton, h5, h6, exec_bytepad_block 5 5 (by exact hw) (by simpa using h)]
  simp [State.readB_writeB, State.writeB_comm _ (show (6 : BReg) ≠ 5 by decide)]

/-- CSHAKE's sequence (R178): the padded strings in `B5`, then one operation on it and `BX`. -/
theorem execAll_cshake_primitives (hfit : (s.readN 4).toNat ≤ bmax) (hw : (s.readN 3).toNat = 136)
    (hname : bytepad (encodeString (s.readB BN) ++ encodeString (s.readB BS)) 136 = name) (h : name.length ≤ bmax) :
    execAll [.encstr 5 BN, .encstr 6 BS, .bcat 5 5 6, .bytepad 5 5 3, .sinit, .absorb 5, .absorb BX, .final 0x04, .squeeze BO 4,
        .sdone] s =
      .next (((s.writeB BO (spongeHash (name ++ s.readB BX) 0x04 (s.readN 4).toNat)).destroySponge.complete.writeB 5 name).writeB 6
        (encodeString (s.readB BS))) := by
  have hread : [5, BX].flatMap ((s.writeB 5 name).writeB 6 (encodeString (s.readB BS))).complete.readB = name ++ s.readB BX := by
    simp [State.readB_writeB, BX]
  have hop := execAll_operation ((s.writeB 5 name).writeB 6 (encodeString (s.readB BS))).complete [5, BX] 0x04 BO (ra := 4) hfit
  rw [hread] at hop
  refine (execAll_append _ (execAll_namePrefix hw hname h)).trans (hop.trans ?_)
  simp [State.writeB_comm _ (show BO ≠ 5 by decide), State.writeB_comm _ (show BO ≠ 6 by decide)]

/-- KMACXOF's sequence before its operation (R178): the padded strings in `B5`, the padded key in `B6`, the trailer in `B7`. -/
theorem execAll_kmacxof_pieces (hw : (s.readN 3).toNat = 136) (hz : (s.readN 5).toNat = 0)
    (hname : bytepad (encodeString (s.readB BN) ++ encodeString (s.readB BS)) 136 = name) (h : name.length ≤ bmax)
    (hkey : bytepad (encodeString (s.readB BK)) 136 = key) (hk : key.length ≤ bmax) :
    execAll [.encstr 5 BN, .encstr 6 BS, .bcat 5 5 6, .bytepad 5 5 3, .encstr 6 BK, .bytepad 6 6 3, .renc 7 5] s =
      .next (((s.writeB 5 name).writeB 6 key).writeB 7 [0x00, 0x01]).complete := by
  have hBK : ((s.writeB 5 name).writeB 6 (encodeString (s.readB BS))).complete.readB BK = s.readB BK := by
    simp [State.readB_writeB, BK]
  have hpad := execAll_encstr_bytepad (s := ((s.writeB 5 name).writeB 6 (encodeString (s.readB BS))).complete) 6 BK (rb := 3) hw
    (by rwa [hBK, hkey])
  rw [hBK, hkey, State.writeB_complete, State.writeB_writeB_same, State.complete_complete] at hpad
  have hrenc : exec (.renc 7 5) ((s.writeB 5 name).writeB 6 key).complete =
      .next (((s.writeB 5 name).writeB 6 key).writeB 7 [0x00, 0x01]).complete := by
    rw [exec_renc, State.readN_complete, State.readN_writeB, State.readN_writeB, hz, rightEncode_zero, State.writeB_complete,
      State.complete_complete]
  exact (execAll_append _ (execAll_namePrefix hw hname h)).trans <| (execAll_append _ hpad).trans <|
    (execAll_singleton _ _).trans hrenc

/-- KMACXOF's sequence (R178): its pieces, then one operation on them and `BX`. -/
theorem execAll_kmacxof_primitives (hfit : (s.readN 4).toNat ≤ bmax) (hw : (s.readN 3).toNat = 136) (hz : (s.readN 5).toNat = 0)
    (hname : bytepad (encodeString (s.readB BN) ++ encodeString (s.readB BS)) 136 = name) (h : name.length ≤ bmax)
    (hkey : bytepad (encodeString (s.readB BK)) 136 = key) (hk : key.length ≤ bmax) :
    execAll [.encstr 5 BN, .encstr 6 BS, .bcat 5 5 6, .bytepad 5 5 3, .encstr 6 BK, .bytepad 6 6 3, .renc 7 5, .sinit,
        .absorb 5, .absorb 6, .absorb BX, .absorb 7, .final 0x04, .squeeze BO 4, .sdone] s =
      .next ((((s.writeB BO (spongeHash (name ++ (key ++ s.readB BX ++ [0x00, 0x01])) 0x04
        (s.readN 4).toNat)).destroySponge.complete.writeB 5 name).writeB 6 key).writeB 7 [0x00, 0x01]) := by
  have hread : [5, 6, BX, 7].flatMap (((s.writeB 5 name).writeB 6 key).writeB 7 [0x00, 0x01]).complete.readB =
      name ++ (key ++ s.readB BX ++ [0x00, 0x01]) := by
    simp [State.readB_writeB, BX]
  have hop := execAll_operation (((s.writeB 5 name).writeB 6 key).writeB 7 [0x00, 0x01]).complete [5, 6, BX, 7] 0x04 BO (ra := 4) hfit
  rw [hread] at hop
  refine (execAll_append _ (execAll_kmacxof_pieces hw hz hname h hkey hk)).trans (hop.trans ?_)
  simp [State.writeB_comm _ (show BO ≠ 5 by decide), State.writeB_comm _ (show BO ≠ 6 by decide),
    State.writeB_comm _ (show BO ≠ 7 by decide)]

end Pieces

/-- Settles O31: each sequence ends as the command does, with the pieces it built left in the scratch registers. -/
theorem compositesFromPrimitives : Obligations.CompositesFromPrimitives := by
  unfold Obligations.CompositesFromPrimitives
  intro s hs h8 hl hw hout
  have hfit : (s.readN 4).toNat ≤ bmax := hout ▸ hl
  refine ⟨fun hne hname => ?cshake, fun hN hz hname hkey => ?kmacxof⟩
  case cshake =>
    have hseq := execAll_cshake_primitives hfit hw rfl hname
    rw [hout, ← cshake_eq _ _ hne] at hseq
    exact ⟨_, _, _, exec_cshake hs h8 hl, hseq⟩
  case kmacxof =>
    have hseq := execAll_kmacxof_primitives hfit hw hz rfl hname rfl hkey
    rw [hout, hN, ← kmacxof_eq] at hseq
    exact ⟨_, _, _, _, exec_kmacxof hs h8 hl, hseq⟩

/-! ### A composite command's own unit (R170) -/

/-- A composite command that ends without raising leaves the unit destroyed: by its completion or by the rejection's (R170 c, R265). -/
theorem Outcome.sponge_eq_zero {i : Instr} {s t : State} (h : Outcome i s t) (hi : i.isComposite = true)
    (herr : t.err = .ok ∨ t.err = .authFail) : t.sponge = Sponge.zero := by
  cases h with
  | done _ _ _ _ _ _ _ unit => exact unit hi
  | rejected => rfl
  | notVerified => rfl
  | _ => simp at herr

theorem phaseAfter_of_isComposite {i : Instr} (ph : Phase) : i.isComposite = true → i.phaseAfter ph = ph := by
  cases i <;> simp [Instr.isComposite, Instr.phaseAfter]

/-- Where the first command did not raise, the second ended in the same state. -/
def SameUnlessRaised (t t' : State) : Prop := t.err = .ok ∨ t.err = .authFail → t' = t

section SameUnlessRaised
variable {s s' t t' : State} {c : Condition}

theorem SameUnlessRaised.refl (t : State) : SameUnlessRaised t t := fun _ => rfl

theorem SameUnlessRaised.raise (hc : ¬ (c = .ok ∨ c = .authFail) := by decide) : SameUnlessRaised (s.raise c) t' :=
  fun h => absurd h hc

/-- Two commands that raise where the same check fails have only their other branches left to compare. -/
theorem SameUnlessRaised.guard {p : Prop} [Decidable p] (h : SameUnlessRaised t t') (hc : ¬ (c = .ok ∨ c = .authFail) := by decide) :
    SameUnlessRaised (if p then s.raise c else t) (if p then s'.raise c else t') := by
  split
  · exact .raise hc
  · exact h

end SameUnlessRaised

section SetUnit
variable (s : State) (u : Sponge) (ph : Phase)

theorem State.readB_setUnit (r : BReg) : (s.setUnit u ph).readB r = s.readB r := rfl

theorem State.readN_setUnit (r : NReg) : (s.setUnit u ph).readN r = s.readN r := rfl

theorem State.readP_setUnit (r : PReg) : (s.setUnit u ph).readP r = s.readP r := rfl

theorem State.nextDraw_setUnit : (s.setUnit u ph).nextDraw = s.nextDraw := rfl

theorem State.takeDraw_setUnit : (s.setUnit u ph).takeDraw = s.takeDraw.setUnit u ph := by
  unfold State.takeDraw State.setUnit
  dsimp only
  split <;> rfl

theorem State.finishDecrypt_setUnit (res : Option Bytes) : (s.setUnit u ph).finishDecrypt res = s.finishDecrypt res := by
  cases res <;> rfl

theorem State.finishVerify_setUnit (ok : Bool) : (s.setUnit u ph).finishVerify ok = s.finishVerify ok := by
  cases ok <;> rfl

end SetUnit

/-- What a composite command ends in does not depend on the unit it finds, unless it raises (R170 b): it reads the phase, registers and
the draw alone, and every ending but a raise destroys the unit. Where a command branches on a point computation, its operands are rewritten
first, so that both states branch on the same one; a multiple of the base point exists. -/
theorem exec_setUnit {i : Instr} (hi : i.isComposite = true) (s : State) (u : Sponge) :
    ∃ t t', exec i s = .next t ∧ exec i (s.setUnit u s.phase) = .next t' ∧ SameUnlessRaised t t' := by
  cases i with
  | cshake => exact ⟨_, _, rfl, rfl, .guard (.guard (.refl _))⟩
  | kmacxof => exact ⟨_, _, rfl, rfl, .guard (.guard (.refl _))⟩
  | keygen =>
    refine ⟨_, _, rfl, rfl, .guard ?_⟩
    obtain ⟨q, hq, -⟩ := pscale_onCurve (passwordScalar (s.readB BK)) onCurve_basePoint
    rw [State.readB_setUnit]
    simp only [hq]
    exact .refl _
  | symenc =>
    refine ⟨_, _, rfl, rfl, .guard ?_⟩
    simp only [State.readB_setUnit, State.nextDraw_setUnit, State.takeDraw_setUnit]
    exact .refl _
  | symdec =>
    refine ⟨_, _, rfl, rfl, .guard ?_⟩
    simp only [State.readB_setUnit, State.finishDecrypt_setUnit]
    exact .refl _
  | asymenc =>
    refine ⟨_, _, rfl, rfl, .guard ?_⟩
    simp only [State.readB_setUnit, State.readP_setUnit, State.nextDraw_setUnit, State.takeDraw_setUnit]
    cases pscale (4 * int s.nextDraw) (s.readP PV) with
    | none => exact .raise
    | some =>
      cases pscale (4 * int s.nextDraw) basePoint with
      | none => exact .raise
      | some => exact .refl _
  | asymdec =>
    refine ⟨_, _, rfl, rfl, .guard ?_⟩
    simp only [State.readB_setUnit, State.readN_setUnit, State.readP_setUnit, State.finishDecrypt_setUnit]
    cases pscale (s.readN NS).toNat (s.readP PZ) with
    | none => exact .raise
    | some => exact .refl _
  | sign =>
    refine ⟨_, _, rfl, rfl, .guard ?_⟩
    obtain ⟨q, hq, -⟩ := pscale_onCurve (signatureNonce (passwordScalar (s.readB BK)) (s.readB BX)) onCurve_basePoint
    rw [State.readB_setUnit, State.readB_setUnit]
    simp only [hq]
    exact .refl _
  | verify =>
    refine ⟨_, _, rfl, rfl, .guard ?_⟩
    simp only [State.readB_setUnit, State.readN_setUnit, State.readP_setUnit, State.finishVerify_setUnit]
    by_cases hlarge : 2 ^ 521 ≤ int (s.readB BH)
    · simp only [if_pos hlarge]
      exact .refl _
    · simp only [if_neg hlarge]
      cases verifyPoint (s.readN NZ).toNat (int (s.readB BH)) (s.readP PV) with
      | none => exact .raise
      | some => exact .refl _
  | _ => cases hi

/-- Settles O56: every outcome that is no raise destroys the unit and keeps IDLE, and the unit that was there is not read. -/
theorem compositeOwnsFreshUnit : Obligations.CompositeOwnsFreshUnit := by
  unfold Obligations.CompositeOwnsFreshUnit
  intro i s t u hi hs h herr
  obtain ho | ⟨⟨_, rfl⟩, -⟩ := outcome_or_illegal h
  · refine ⟨ho.sponge_eq_zero hi herr, ?phase, ?unit⟩
    case phase => rw [ho.phase_eq, if_pos herr, phaseAfter_of_isComposite s.phase hi, hs]
    case unit =>
      obtain ⟨t₁, t', h₁, h', hsame⟩ := exec_setUnit hi s u
      cases h₁.symm.trans h
      exact h'.trans (congrArg _ (hsame herr))
  · cases hi

end Sys2Proof.Machine
end

section
/-! The curve commands (45_e521.md): what each of the nine answers, PADD as a group operation, the loop of `scale` by the values its
variables take, and multiples of points. -/

namespace Sys2Proof.Machine

/-! ### Writes to point registers -/

@[simp] theorem State.writeP_writeP_same (s : State) (i : PReg) (v w : Point) : (s.writeP i v).writeP i w = s.writeP i w := by
  simp [State.writeP]

section Commands

variable {s : State} {q : Point}

/-! ### Loading, negating and moving points (R200, R201, R203, R205) -/

theorem exec_pneut (rd : PReg) (s : State) : exec (.pneut rd) s = .next (s.writeP rd neutral).complete := rfl

theorem exec_pgen (rd : PReg) (s : State) : exec (.pgen rd) s = .next (s.writeP rd basePoint).complete := rfl

theorem exec_pneg (rd ra : PReg) (s : State) : exec (.pneg rd ra) s = .next (s.writeP rd (negate (s.readP ra))).complete := rfl

/-- PFROMX finds the curve point with the given x-coordinate and parity (R203). -/
theorem exec_pfromx (rd : PReg) {ra : NReg} {lsb : BitVec 1} (hx : q.x = toField (s.readN ra)) (hy : q.y.val % 2 = lsb.toNat)
    (hq : onCurve q = true) : exec (.pfromx rd ra lsb) s = .next (s.writeP rd q).complete := by
  rw [exec, execPfromx, (pointFromX_eq_some_iff ..).mpr ⟨hx, hy, hq⟩]

/-- With no such point PFROMX raises INVALID_POINT (R203). -/
theorem exec_pfromx_of_forall_ne (rd : PReg) {ra : NReg} {lsb : BitVec 1}
    (h : ∀ q : Point, q.x = toField (s.readN ra) → onCurve q = true → q.y.val % 2 ≠ lsb.toNat) :
    exec (.pfromx rd ra lsb) s = .next (s.raise .invalidPoint) := by
  have hnone : pointFromX (toField (s.readN ra)) lsb = none := by
    rw [Option.eq_none_iff_forall_ne_some]
    intro q hq
    obtain ⟨hx, hy, hc⟩ := (pointFromX_eq_some_iff ..).mp hq
    exact h q hx hc hy
  rw [exec, execPfromx, hnone]

/-! ### PADD and PSCALE (R208, R210) -/

theorem exec_padd (rd : PReg) {ra rb : PReg} (h : padd (s.readP ra) (s.readP rb) = some q) :
    exec (.padd rd ra rb) s = .next (s.writeP rd q).complete := by
  rw [exec, execPadd, h]

theorem exec_padd_of_none (rd : PReg) {ra rb : PReg} (h : padd (s.readP ra) (s.readP rb) = none) :
    exec (.padd rd ra rb) s = .next (s.raise .divZero) := by
  rw [exec, execPadd, h]

theorem exec_pscale (rd : PReg) {ra : NReg} {rb : PReg} (h : pscale (s.readN ra).toNat (s.readP rb) = some q) :
    exec (.pscale rd ra rb) s = .next (s.writeP rd q).complete := by
  rw [exec, execPscale, h]

theorem exec_pscale_of_none (rd : PReg) {ra : NReg} {rb : PReg} (h : pscale (s.readN ra).toNat (s.readP rb) = none) :
    exec (.pscale rd ra rb) s = .next (s.raise .divZero) := by
  rw [exec, execPscale, h]

end Commands

/-- The base point has x-coordinate 4 and even y (R197). -/
theorem basePoint_coordinates : basePoint.x.val = 4 ∧ basePoint.y.val % 2 = 0 := by decide +kernel

theorem toField_four : toField 4 = basePoint.x := by decide +kernel

/-- Settles O32: each command writes its point or coordinate whatever the operands are, and PFROMX finds the base point from 4 because it is
the curve point with that x-coordinate and parity. -/
theorem pointMoves : Obligations.PointMoves := by
  unfold Obligations.PointMoves
  intro s
  obtain ⟨hx, hy⟩ := basePoint_coordinates
  refine ⟨fun rd => ⟨neutral, rfl, rfl, exec_pneut rd s⟩,
    fun rd => ⟨basePoint, hx, hy, onCurve_basePoint, exec_pgen rd s, fun ra h4 => ?fromX⟩,
    fun rd ra => ⟨negate (s.readP ra), rfl, rfl, exec_pneg rd ra s⟩,
    fun rd ra => ⟨ofField (s.readP ra).x, ofField (s.readP ra).y, toNat_ofField _, toNat_ofField _, exec_pgetx rd ra s,
      exec_pgety rd ra s⟩,
    fun rd ra rb => ⟨⟨toField (s.readN ra), toField (s.readN rb)⟩, rfl, rfl, exec_pset rd ra rb s⟩⟩
  case fromX =>
    rw [exec_pgen]
    exact exec_pfromx rd (by rw [h4, toField_four]) hy onCurve_basePoint

/-- Settles O33: `x` is the coordinate PFROMX reads, so a point of the curve over it is `⟨x, y⟩`. -/
theorem pfromxResult : Obligations.PfromxResult := by
  unfold Obligations.PfromxResult
  intro s rd ra lsb x hx
  obtain rfl : x = toField (s.readN ra) := Fin.ext hx
  refine ⟨fun y hc hy => exec_pfromx rd rfl hy hc, fun h => exec_pfromx_of_forall_ne rd fun q hq hc => ?_⟩
  obtain ⟨_, y⟩ := q
  subst hq
  exact h y hc

/-! ### PADD for all pairs (R206, R207) -/

theorem feZ_one_add_cross (q1 q2 : Point) : feZ (fe 1 + curveD * q1.x * q2.x * q1.y * q2.y) = 1 + crossTerm q1 q2 := by
  simp [crossTerm]

theorem feZ_one_sub_cross (q1 q2 : Point) : feZ (fe 1 - curveD * q1.x * q2.x * q1.y * q2.y) = 1 - crossTerm q1 q2 := by
  simp [crossTerm]

/-- Settles O34: the denominators are `1 ± crossTerm`, and modulo `p` what `padd_eq_some_iff` says of the sum are the two products. -/
theorem paddResult : Obligations.PaddResult := by
  unfold Obligations.PaddResult
  intro s rd ra rb
  simp only [ne_eq, val_eq_zero_iff, feZ_one_add_cross, feZ_one_sub_cross]
  refine ⟨fun hup hdn => ?sum, fun h => exec_padd_of_none rd ((padd_eq_none_iff ..).mpr h)⟩
  obtain ⟨q, hq⟩ : ∃ q, padd (s.readP ra) (s.readP rb) = some q := by
    rw [← Option.ne_none_iff_exists', ne_eq, padd_eq_none_iff]
    exact not_or.mpr ⟨hup, hdn⟩
  obtain ⟨-, -, hx, hy⟩ := (padd_eq_some_iff ..).mp hq
  refine ⟨q, feZ_injective ?_, feZ_injective ?_, exec_padd rd hq⟩
  · rw [feZ_mul, feZ_one_add_cross, hx, feZ_add, feZ_mul, feZ_mul]
  · rw [feZ_mul, feZ_one_sub_cross, hy, feZ_sub, feZ_mul, feZ_mul]

/-! ### PADD on the curve (R193, R204, R207) -/

/-- Settles O35: on the curve `padd` answers a point of the curve. -/
theorem additionIsComplete : Obligations.AdditionIsComplete := by
  unfold Obligations.AdditionIsComplete
  intro s rd ra rb ha hb
  obtain ⟨q, hq, hc⟩ := padd_onCurve ha hb
  exact ⟨q, hc, exec_padd rd hq⟩

/-- Negating a point of the curve into another register and adding the two gives the neutral point (R204). -/
theorem execAll_pneg_padd {s : State} {ra rb : PReg} (hc : onCurve (s.readP ra) = true) (hne : ra ≠ rb) :
    execAll [.pneg rb ra, .padd rb ra rb] s = .next (s.writeP rb neutral).complete := by
  have hadd := padd_negate hc
  rw [execAll_cons (exec_pneg ..), execAll_singleton, exec_padd (q := neutral)]
  · simp
  · simpa [State.readP_writeP_other _ _ hne.symm] using hadd

/-- Two additions, the second with the first sum as its left operand (R207). -/
theorem execAll_padd_padd_left {s : State} {rd ra rb rc : PReg} {q q' : Point} (hne : rd ≠ rc)
    (h : padd (s.readP ra) (s.readP rb) = some q) (h' : padd q (s.readP rc) = some q') :
    execAll [.padd rd ra rb, .padd rd rd rc] s = .next (s.writeP rd q').complete := by
  rw [execAll_cons (exec_padd rd h), execAll_singleton, exec_padd (q := q')]
  · simp
  · simpa [State.readP_writeP_other _ _ hne] using h'

/-- Two additions, the second with the first sum as its right operand (R207). -/
theorem execAll_padd_padd_right {s : State} {rd ra rb rc : PReg} {q q' : Point} (hne : rd ≠ ra)
    (h : padd (s.readP rb) (s.readP rc) = some q) (h' : padd (s.readP ra) q = some q') :
    execAll [.padd rd rb rc, .padd rd ra rd] s = .next (s.writeP rd q').complete := by
  rw [execAll_cons (exec_padd rd h), execAll_singleton, exec_padd (q := q')]
  · simp
  · simpa [State.readP_writeP_other _ _ hne] using h'

/-- Settles O36: the laws of `padd`, carried to the commands. -/
theorem groupLaws : Obligations.GroupLaws := by
  unfold Obligations.GroupLaws
  refine ⟨fun s rd ra rb => ?comm, fun s rd ra rb hb => exec_padd rd (by rw [hb, padd_neutral]),
    fun s ra rb hc hne => execAll_pneg_padd hc hne, fun s rd ra rb rc ha hb hc hda hdc => ?assoc⟩
  case comm => rw [exec, exec, execPadd, execPadd, padd_comm]
  case assoc =>
    obtain ⟨ab, hab, cab⟩ := padd_onCurve ha hb
    obtain ⟨bc, hbc, -⟩ := padd_onCurve hb hc
    obtain ⟨q, hq, cq⟩ := padd_onCurve cab hc
    exact ⟨q, cq, execAll_padd_padd_left hdc hab hq, execAll_padd_padd_right hda hbc (padd_assoc ha hb hc hab hbc ▸ hq)⟩

/-! ### The points of small order (R195) -/

/-- A multiple of the neutral point is neutral (R194). -/
theorem pscale_neutral (k : Nat) : pscale k neutral = some neutral := by
  let := curveGroup
  have h : neutral = (0 : CurvePoint).1 := rfl
  rw [h, pscale_eq_smul, smul_zero]

/-- A point that doubles to a point of order 2 is sent to the neutral point by every multiple of 4. -/
theorem pscale_four_mul {q q' : Point} (hc : onCurve q = true) (h : padd q q = some q') (h' : padd q' q' = some neutral) (k : Nat) :
    pscale (4 * k) q = some neutral := by
  have h2 : pscale 2 q = some q' := (pscale_add 1 1 hc (pscale_one hc) (pscale_one hc)).trans h
  have h4 : pscale 4 q = some neutral := (pscale_add 2 2 hc h2 h2).trans h'
  rw [mul_comm, ← pscale_mul k 4 hc h4, pscale_neutral]

/-- Settles O37: every one of the four points doubles to one that doubles to `(0, 1)`. -/
theorem smallOrderPoints : Obligations.SmallOrderPoints := by
  unfold Obligations.SmallOrderPoints
  intro o h e w
  have hc : ∀ q ∈ [o, h, e, w], onCurve q = true := by decide +kernel
  have hh : padd h h = some o := by decide +kernel
  have he : padd e e = some h := by decide +kernel
  have hw : padd w w = some h := by decide +kernel
  have heh : padd e h = some w := by decide +kernel
  have ho : padd o o = some o := padd_neutral neutral
  refine ⟨hc, hh, he, hw, heh, fun q hq k => ?_⟩
  have hcq := hc q hq
  simp only [List.mem_cons, List.not_mem_nil, or_false] at hq
  obtain rfl | rfl | rfl | rfl := hq
  · exact pscale_four_mul hcq ho ho k
  · exact pscale_four_mul hcq hh ho k
  · exact pscale_four_mul hcq he hh k
  · exact pscale_four_mul hcq hw hh k

/-! ### The loop of `scale` (R209) -/

/-- The loop of R209 over the low `m` bits of `k`, run without meeting a zero denominator: `ScaleRun` without its start and its bound. -/
structure LoopRun (m k : Nat) (acc addend : Nat → Point) : Prop where
  add : ∀ i, i < m → k.testBit i = true → padd (acc i) (addend i) = some (acc (i + 1))
  keep : ∀ i, i < m → k.testBit i = false → acc (i + 1) = acc i
  double : ∀ i, i < m → padd (addend i) (addend i) = some (addend (i + 1))

/-- One turn of the loop, from `a` to `a'`, for the lowest bit of `k`. -/
def AddTurn (k : Nat) (a b a' : Point) : Prop := if k.testBit 0 then padd a b = some a' else a' = a

/-- A run is its first turn and the run of the rest, over the other bits. -/
theorem LoopRun.succ_iff {m k : Nat} {acc addend : Nat → Point} : LoopRun (m + 1) k acc addend ↔
    AddTurn k (acc 0) (addend 0) (acc 1) ∧ padd (addend 0) (addend 0) = some (addend 1) ∧
      LoopRun m (k / 2) (fun i => acc (i + 1)) (fun i => addend (i + 1)) := by
  constructor
  · intro h
    refine ⟨?_, h.double 0 m.succ_pos, ?_⟩
    · cases hk : k.testBit 0 with
      | true => simpa [AddTurn, hk] using h.add 0 m.succ_pos hk
      | false => simpa [AddTurn, hk] using h.keep 0 m.succ_pos hk
    · exact ⟨fun i hi hk => h.add (i + 1) (by omega) (by rwa [Nat.testBit_succ]),
        fun i hi hk => h.keep (i + 1) (by omega) (by rwa [Nat.testBit_succ]), fun i hi => h.double (i + 1) (by omega)⟩
  · rintro ⟨hadd, hdbl, h⟩
    refine ⟨fun i hi hk => ?_, fun i hi hk => ?_, fun i hi => ?_⟩
    · cases i with
      | zero => simpa [AddTurn, hk] using hadd
      | succ i => exact h.add i (by omega) (by rwa [← Nat.testBit_succ])
    · cases i with
      | zero => simpa [AddTurn, hk] using hadd
      | succ i => exact h.keep i (by omega) (by rwa [← Nat.testBit_succ])
    · cases i with
      | zero => exact hdbl
      | succ i => exact h.double i (by omega)

/-- The loop answers when its first turn does and the loop over the other bits answers from there. -/
theorem scaleLoop_succ_eq_some_iff {m k : Nat} {a b q : Point} : scaleLoop (m + 1) k a b = some q ↔
    ∃ a' b', AddTurn k a b a' ∧ padd b b = some b' ∧ scaleLoop m (k / 2) a' b' = some q := by
  have hbit : k.testBit 0 = true ↔ k % 2 = 1 := by simp [Nat.testBit_zero]
  have hturn : ∀ a', (if k % 2 = 1 then padd a b else some a) = some a' ↔ AddTurn k a b a' := fun a' => by
    by_cases hk : k % 2 = 1
    · rw [AddTurn, if_pos hk, if_pos (hbit.mpr hk)]
    · rw [AddTurn, if_neg hk, if_neg (mt hbit.mp hk), Option.some.injEq, eq_comm]
  simp only [← hturn, scaleLoop]
  cases (if k % 2 = 1 then padd a b else some a) with
  | none => simp
  | some a' => cases padd b b <;> simp

/-- A sequence with one more point in front of it. -/
def prependPoint (a : Point) (f : Nat → Point) : Nat → Point
  | 0 => a
  | i + 1 => f i

@[simp] theorem prependPoint_zero (a : Point) (f : Nat → Point) : prependPoint a f 0 = a := rfl
@[simp] theorem prependPoint_succ (a : Point) (f : Nat → Point) (i : Nat) : prependPoint a f (i + 1) = f i := rfl

/-- The loop answers the last accumulator of its run. -/
theorem scaleLoop_eq_some_iff {m k : Nat} {a b q : Point} : scaleLoop m k a b = some q ↔
    ∃ acc addend, LoopRun m k acc addend ∧ acc 0 = a ∧ addend 0 = b ∧ acc m = q := by
  induction m generalizing k a b with
  | zero =>
    constructor
    · intro h
      exact ⟨fun _ => a, fun _ => b, ⟨by simp, by simp, by simp⟩, rfl, rfl, Option.some.inj h⟩
    · rintro ⟨acc, addend, -, rfl, rfl, rfl⟩
      rfl
  | succ m ih =>
    simp only [scaleLoop_succ_eq_some_iff, ih, LoopRun.succ_iff]
    constructor
    · rintro ⟨_, _, hturn, hdbl, acc, addend, hrun, rfl, rfl, hq⟩
      exact ⟨prependPoint a acc, prependPoint b addend, ⟨hturn, hdbl, hrun⟩, rfl, rfl, hq⟩
    · rintro ⟨acc, addend, ⟨hturn, hdbl, hrun⟩, rfl, rfl, hq⟩
      exact ⟨acc 1, addend 1, hturn, hdbl, fun i => acc (i + 1), fun i => addend (i + 1), hrun, rfl, rfl, hq⟩

theorem eq_neutral_iff (q : Point) : q = neutral ↔ q.x.val = 0 ∧ q.y.val = 1 := by
  obtain ⟨x, y⟩ := q
  rw [neutral, Point.mk.injEq, Fin.ext_iff, Fin.ext_iff]

/-- A `ScaleRun` is the loop over all bits of the scalar, from the neutral point. -/
theorem scaleRun_iff {k n : Nat} {p : Point} {acc addend : Nat → Point} : ScaleRun k p n acc addend ↔
    n = bitlen k ∧ LoopRun n k acc addend ∧ acc 0 = neutral ∧ addend 0 = p := by
  constructor
  · intro h
    obtain ⟨hx, hy, hp⟩ := h.start
    have hn : n = bitlen k := Nat.le_antisymm (h.least _ (lt_two_pow_bitlen k)) ((bitlen_le_iff k n).mpr h.fits)
    exact ⟨hn, ⟨h.add, h.keep, h.double⟩, (eq_neutral_iff _).mpr ⟨hx, hy⟩, hp⟩
  · rintro ⟨rfl, h, hacc, hp⟩
    obtain ⟨hx, hy⟩ := (eq_neutral_iff _).mp hacc
    exact ⟨lt_two_pow_bitlen k, fun m => (bitlen_le_iff k m).mpr, ⟨hx, hy, hp⟩, h.add, h.keep, h.double⟩

/-- `scale` answers the last accumulator of its run, and answers only when there is one (R209). -/
theorem pscale_eq_some_iff {k : Nat} {p q : Point} : pscale k p = some q ↔ ∃ n acc addend, ScaleRun k p n acc addend ∧ acc n = q := by
  simp only [pscale, scaleLoop_eq_some_iff, scaleRun_iff]
  constructor
  · rintro ⟨acc, addend, h, hacc, hp, hq⟩
    exact ⟨bitlen k, acc, addend, ⟨rfl, h, hacc, hp⟩, hq⟩
  · rintro ⟨_, acc, addend, ⟨rfl, h, hacc, hp⟩, hq⟩
    exact ⟨acc, addend, h, hacc, hp, hq⟩

theorem toNat_zero_nword : (0 : NWord).toNat = 0 := BitVec.toNat_zero

theorem toNat_one_nword : (1 : NWord).toNat = 1 := BitVec.toNat_one (by decide)

/-- Settles O38: PSCALE writes what `pscale` answers, and `pscale` is the loop. -/
theorem pscaleResult : Obligations.PscaleResult := by
  unfold Obligations.PscaleResult
  refine ⟨fun k p => ⟨fun n acc addend h => pscale_eq_some_iff.mpr ⟨n, acc, addend, h, rfl⟩, fun h => ?noRun⟩,
    fun s rd ra rb => ⟨fun q => exec_pscale rd, exec_pscale_of_none rd, fun h0 => exec_pscale rd ?zero, fun hc => ?curve⟩⟩
  case noRun =>
    rw [Option.eq_none_iff_forall_ne_some]
    intro q hq
    obtain ⟨n, acc, addend, hrun, -⟩ := pscale_eq_some_iff.mp hq
    exact h n acc addend hrun
  case zero => rw [h0, toNat_zero_nword, pscale_zero]
  case curve =>
    obtain ⟨q, hq, hcq⟩ := pscale_onCurve (s.readN ra).toNat hc
    refine ⟨q, hcq, exec_pscale rd hq, fun h1 => ?_⟩
    rw [h1, toNat_one_nword] at hq
    exact Option.some.inj (hq.symm.trans (pscale_one hc))

/-! ### Multiples (R190, R214) -/

/-- Two multiples of one point and their sum (R214). -/
theorem execAll_pscale_pscale_padd {s : State} {ra rb : NReg} {rd re rp : PReg} {qa qb q : Point} (rf : PReg)
    (ha : pscale (s.readN ra).toNat (s.readP rp) = some qa) (hb : pscale (s.readN rb).toNat (s.readP rp) = some qb)
    (hq : padd qa qb = some q) (hdp : rd ≠ rp) (hde : rd ≠ re) :
    execAll [.pscale rd ra rp, .pscale re rb rp, .padd rf rd re] s =
      .next (((s.writeP rd qa).writeP re qb).writeP rf q).complete := by
  have hb' : pscale ((s.writeP rd qa).complete.readN rb).toNat ((s.writeP rd qa).complete.readP rp) = some qb := by
    simpa [State.readP_writeP_other _ _ hdp] using hb
  rw [execAll_cons (exec_pscale rd ha), execAll_cons (exec_pscale re hb'), execAll_singleton, exec_padd (q := q)]
  · simp
  · simpa [State.readP_writeP_other _ _ hde.symm] using hq

/-- Settles O39: `pscale` of a sum is the sum of the multiples, and `r` times the base point is neutral. -/
theorem scaleIsGroupMultiple : Obligations.ScaleIsGroupMultiple := by
  unfold Obligations.ScaleIsGroupMultiple
  refine ⟨fun s ra rb rc rd re rf rp hc hsum hdp hde => ?sum, fun s rd ra rb hr hg => exec_pscale rd ?order⟩
  case sum =>
    obtain ⟨qa, ha, ca⟩ := pscale_onCurve (s.readN ra).toNat hc
    obtain ⟨qb, hb, cb⟩ := pscale_onCurve (s.readN rb).toNat hc
    obtain ⟨q, hq, -⟩ := padd_onCurve ca cb
    have hmul : pscale (s.readN rc).toNat (s.readP rp) = some q := by rw [hsum, pscale_add _ _ hc ha hb, hq]
    exact ⟨_, q, execAll_pscale_pscale_padd rf ha hb hq hdp hde, rfl, by simp, exec_pscale rf hmul⟩
  case order => rw [hr, hg, pscale_groupOrder]

end Sys2Proof.Machine
end

section
/-! The protocol commands on points (46_protocol.md): ASYMENC, ASYMDEC and VERIFY wherever the multiples they compute exist, on the curve or
not. -/

namespace Sys2Proof.Machine

/-! ### The shared functions (R233, R234, R245) -/

/-- What `seal` does: the message XORed with the keystream, and the tag over the message (R234). -/
theorem sealMessage_spec (keys : Bytes × Bytes) (m labelE labelA : Bytes) :
    (sealMessage keys m labelE labelA).1.length = m.length ∧
      (∀ j, j < m.length → (sealMessage keys m labelE labelA).1.getD j 0 =
        (kmacxof keys.1 [] (8 * m.length) labelE).getD j 0 ^^^ m.getD j 0) ∧
      (sealMessage keys m labelE labelA).2 = kmacxof keys.2 m 512 labelA := by
  have hlen : (kmacxof keys.1 [] (bitLength m) labelE).length = m.length := by simp [bitLength]
  refine ⟨by simp [sealMessage, bitLength], fun j hj => ?_, rfl⟩
  exact getD_xorBytes _ _ hlen j (by rwa [hlen])

/-! The asymmetric keys are the halves of one output, keyed by the x-coordinate as an integer register's contents (R233). -/

theorem asymKeys_fst (w : Point) : (asymKeys w).1 = (kmacxof (i2b (ofField w.x)) [] 1024 [0x50]).take 64 := by
  rw [asymKeys, splitKeys, labelP]

theorem asymKeys_snd (w : Point) : (asymKeys w).2 = (kmacxof (i2b (ofField w.x)) [] 1024 [0x50]).drop 64 := by
  rw [asymKeys, splitKeys, labelP]

/-- The digest is keyed by the x-coordinate as an integer register's contents (R245). -/
theorem signatureDigest_eq (u : Point) (m : Bytes) : signatureDigest u m = kmacxof (i2b (ofField u.x)) m 512 [0x54] := by
  rw [signatureDigest, labelT]

/-- With the multiple of `G` known, `U'` is its sum with the multiple of the public key (R245). -/
theorem verifyPoint_eq_bind {z : Nat} {a : Point} (ha : pscale z basePoint = some a) (h : Nat) (v : Point) :
    verifyPoint z h v = (pscale h v).bind (padd a) := by
  rw [verifyPoint, ha]
  cases pscale h v <;> rfl

section Commands

variable {s : State} (hs : s.phase = .idle)
include hs

/-! ### The commands in IDLE (R241, R242, R245) -/

theorem exec_asymenc {w z : Point} (hw : pscale (4 * int s.nextDraw) (s.readP PV) = some w)
    (hz : pscale (4 * int s.nextDraw) basePoint = some z) : exec .asymenc s =
      .next (((s.takeDraw.writeP PZ z).writeB BO (sealMessage (asymKeys w) (s.readB BX) labelPKE labelPKA).1).writeB BT
        (sealMessage (asymKeys w) (s.readB BX) labelPKE labelPKA).2).destroySponge.complete := by
  rw [exec, execAsymenc, if_neg (not_not.mpr hs)]
  simp only [hw, hz]

theorem exec_asymenc_of_none (h : pscale (4 * int s.nextDraw) (s.readP PV) = none) :
    exec .asymenc s = .next (s.takeDraw.raise .divZero) := by
  rw [exec, execAsymenc, if_neg (not_not.mpr hs)]
  simp only [h]

theorem exec_asymdec {w : Point} (hw : pscale (s.readN NS).toNat (s.readP PZ) = some w) : exec .asymdec s =
    .next (s.finishDecrypt (openMessage (asymKeys w) (s.readB BO) (s.readB BT) labelPKE labelPKA)) := by
  rw [exec, execAsymdec, if_neg (not_not.mpr hs), hw]

theorem exec_asymdec_of_none (h : pscale (s.readN NS).toNat (s.readP PZ) = none) : exec .asymdec s = .next (s.raise .divZero) := by
  rw [exec, execAsymdec, if_neg (not_not.mpr hs), h]

theorem exec_verify_of_le (h : 2 ^ 521 ≤ int (s.readB BH)) : exec .verify s = .next (s.destroySponge.raise .authFail) := by
  rw [exec, execVerify, if_neg (not_not.mpr hs), if_pos h, State.finishVerify, if_neg Bool.false_ne_true]

theorem exec_verify {u : Point} (hlt : int (s.readB BH) < 2 ^ 521)
    (hu : verifyPoint (s.readN NZ).toNat (int (s.readB BH)) (s.readP PV) = some u) :
    exec .verify s = .next (s.finishVerify (signatureDigest u (s.readB BX) == s.readB BH)) := by
  rw [exec, execVerify, if_neg (not_not.mpr hs), if_neg hlt.not_ge, hu]

theorem exec_verify_of_none (hlt : int (s.readB BH) < 2 ^ 521)
    (hu : verifyPoint (s.readN NZ).toNat (int (s.readB BH)) (s.readP PV) = none) : exec .verify s = .next (s.raise .divZero) := by
  rw [exec, execVerify, if_neg (not_not.mpr hs), if_neg hlt.not_ge, hu]

end Commands

/-- Settles O43: the multiple of `G` always exists, and the ciphertext and the tag are what `seal` gives. -/
theorem asymencResult : Obligations.AsymencResult := by
  unfold Obligations.AsymencResult
  intro s hs k
  refine ⟨fun hc => ?curve, fun w hw => ?sealed, fun h => exec_asymenc_of_none hs h⟩
  case curve =>
    obtain ⟨w, hw, hcw⟩ := pscale_onCurve k hc
    exact ⟨w, hcw, hw⟩
  case sealed =>
    obtain ⟨z, hz, hcz⟩ := pscale_onCurve k onCurve_basePoint
    obtain ⟨hlen, hbytes, htag⟩ := sealMessage_spec (asymKeys w) (s.readB BX) labelPKE labelPKA
    have hexec := exec_asymenc hs hw hz
    rw [htag, asymKeys_snd] at hexec
    rw [asymKeys_fst] at hbytes
    exact ⟨z, ofField w.x, _, hz, hcz, toNat_ofField _, hlen, fun j hj => hbytes j (hlen ▸ hj), hexec⟩

/-- Settles O44: the plaintext is what `open` recovers, given out exactly when its tag is `BT`. -/
theorem asymdecResult : Obligations.AsymdecResult := by
  unfold Obligations.AsymdecResult
  intro s hs
  refine ⟨fun hc => ?curve, fun w hw => ?opened, fun h => exec_asymdec_of_none hs h⟩
  case curve =>
    obtain ⟨w, hw, hcw⟩ := pscale_onCurve (s.readN NS).toNat hc
    exact ⟨w, hcw, hw⟩
  case opened =>
    obtain ⟨m, hlen, hbytes, hopen⟩ := openMessage_spec (asymKeys w) (s.readB BO) (s.readB BT) labelPKE labelPKA
    have hexec := exec_asymdec hs hw
    rw [hopen, asymKeys_snd, labelPKA] at hexec
    rw [asymKeys_fst] at hbytes
    refine ⟨ofField w.x, m, toNat_ofField _, hlen, hbytes, fun htag => ?_, fun htag => ?_⟩
    · rw [hexec, if_pos htag, State.finishDecrypt]
    · rw [hexec, if_neg htag, State.finishDecrypt]

/-- Settles O46: `U'` is the sum of the two multiples where both it and they exist, and its digest is compared with `BH`. -/
theorem verifyResult : Obligations.VerifyResult := by
  unfold Obligations.VerifyResult
  intro s hs
  refine ⟨exec_verify_of_le hs, fun hlt => ?_⟩
  obtain ⟨a, ha, hca⟩ := pscale_onCurve (s.readN NZ).toNat onCurve_basePoint
  have hpoint := verifyPoint_eq_bind ha (int (s.readB BH)) (s.readP PV)
  refine ⟨a, hca, ha, fun hc => ?curve, fun b u hb hu => ?compared, fun hb => ?noMultiple, fun b hb hu => ?noSum⟩
  case curve =>
    obtain ⟨b, hb, hcb⟩ := pscale_onCurve (int (s.readB BH)) hc
    obtain ⟨u, hu, hcu⟩ := padd_onCurve hca hcb
    exact ⟨b, u, hb, hu, hcu⟩
  case compared =>
    rw [hb, Option.bind_some, hu] at hpoint
    have hexec := exec_verify hs hlt hpoint
    rw [signatureDigest_eq, State.finishVerify] at hexec
    refine ⟨ofField u.x, toNat_ofField _, fun h => ?_, fun h => ?_⟩
    · rw [hexec, if_pos (beq_iff_eq.mpr h)]
    · rw [hexec, if_neg (mt beq_iff_eq.mp h)]
  case noMultiple =>
    rw [hb, Option.bind_none] at hpoint
    exact exec_verify_of_none hs hlt hpoint
  case noSum =>
    rw [hb, Option.bind_some, hu] at hpoint
    exact exec_verify_of_none hs hlt hpoint

end Sys2Proof.Machine
end

section
/-! The protocol commands (46_protocol.md): the results of KEYGEN, SYMENC, SYMDEC and SIGN, the rejection of a tag or digest of a wrong
length, and the three round trips. -/

namespace Sys2Proof.Machine

/-! ### The shared functions (R232, R234, R244, R247) -/

/-! The symmetric keys are the halves of one output, keyed by the nonce and the password (R232, R238). -/

theorem symKeys_fst (z password : Bytes) : (symKeys z password).1 = (kmacxof (z ++ password) [] 1024 [0x53]).take 64 := by
  rw [symKeys, splitKeys, labelS]

theorem symKeys_snd (z password : Bytes) : (symKeys z password).2 = (kmacxof (z ++ password) [] 1024 [0x53]).drop 64 := by
  rw [symKeys, splitKeys, labelS]

/-- `open` accepts no tag of a length other than 64, the length of every recomputed tag (R247). -/
theorem openMessage_eq_none_of_length {tag : Bytes} (h : tag.length ≠ 64) (keys : Bytes × Bytes) (c labelE labelA : Bytes) :
    openMessage keys c tag labelE labelA = none := by
  rw [openMessage, if_neg]
  rintro rfl
  exact h (by simp)

/-- No digest is a string of a length other than 64 (R247). -/
theorem signatureDigest_ne_of_length {h : Bytes} (hlen : h.length ≠ 64) (u : Point) (m : Bytes) : signatureDigest u m ≠ h := by
  rintro rfl
  exact hlen (length_signatureDigest u m)

/-- `U'` exists exactly when the two multiples and their sum do (R245). -/
theorem verifyPoint_eq_some_iff {z h : Nat} {v u : Point} : verifyPoint z h v = some u ↔
    ∃ a b : Point, pscale z basePoint = some a ∧ pscale h v = some b ∧ padd a b = some u := by
  obtain ⟨a, ha, -⟩ := pscale_onCurve z onCurve_basePoint
  simp [verifyPoint_eq_bind ha, ha, Option.bind_eq_some_iff]

/-! ### Multiples of the base point (R244, R245, R246) -/

/-- A multiple of `G` depends on the scalar modulo `r` only. -/
theorem pscale_basePoint_congr {a b : Nat} (h : a % groupOrder = b % groupOrder) : pscale a basePoint = pscale b basePoint := by
  let := curveGroup
  rw [show basePoint = curveBase.1 from rfl, pscale_eq_smul, pscale_eq_smul, smul_curveBase_eq a b h]

/-- Both sides of an exchange reach one point: `a·(b·G) = b·(a·G)`. -/
theorem pscale_exchange {a b : Nat} {qa qb : Point} (ha : pscale a basePoint = some qa) (hb : pscale b basePoint = some qb) :
    pscale a qb = pscale b qa := by
  rw [pscale_mul a b onCurve_basePoint hb, pscale_mul b a onCurve_basePoint ha, mul_comm]

/-- For the public key of a secret, `U'` is the multiple of `G` by `z + h·s`. -/
theorem verifyPoint_of_secret {secret : Nat} {v : Point} (hv : pscale secret basePoint = some v) (z h : Nat) :
    verifyPoint z h v = pscale (z + h * secret) basePoint := by
  obtain ⟨a, ha, -⟩ := pscale_onCurve z onCurve_basePoint
  obtain ⟨b, hb, -⟩ := pscale_onCurve (h * secret) onCurve_basePoint
  rw [verifyPoint_eq_bind ha, pscale_mul h secret onCurve_basePoint hv, hb, Option.bind_some, pscale_add z _ onCurve_basePoint ha hb]

/-- With the response of SIGN, `U'` is the point `U` that SIGN hashed. -/
theorem verifyPoint_signatureResponse {secret : Nat} {v : Point} (hv : pscale secret basePoint = some v) (k h : Nat) :
    verifyPoint (signatureResponse k h secret) h v = pscale k basePoint := by
  rw [verifyPoint_of_secret hv, pscale_basePoint_congr (signatureResponse_spec k h secret).2]

@[simp] theorem toNat_toNWord_signatureResponse (k h secret : Nat) :
    (toNWord (signatureResponse k h secret)).toNat = signatureResponse k h secret :=
  toNat_toNWord ((signatureResponse_spec k h secret).1.trans groupOrder_lt)

section Commands

variable {s : State} (hs : s.phase = .idle)
include hs

/-! ### The commands in IDLE (R236, R238, R239, R242, R244, R245) -/

theorem exec_keygen {v : Point} (hv : pscale (passwordScalar (s.readB BK)) basePoint = some v) : exec .keygen s =
    .next ((s.writeN NS (toNWord (passwordScalar (s.readB BK)))).writeP PV v).destroySponge.complete := by
  rw [exec, execKeygen, if_neg (not_not.mpr hs)]
  simp only [hv]

theorem exec_symenc : exec .symenc s =
    .next (((s.takeDraw.writeB BZ s.nextDraw).writeB BO
      (sealMessage (symKeys s.nextDraw (s.readB BK)) (s.readB BX) labelSKE labelSKA).1).writeB BT
      (sealMessage (symKeys s.nextDraw (s.readB BK)) (s.readB BX) labelSKE labelSKA).2).destroySponge.complete := by
  rw [exec, execSymenc, if_neg (not_not.mpr hs)]

theorem exec_symdec : exec .symdec s = .next (s.finishDecrypt
    (openMessage (symKeys (s.readB BZ) (s.readB BK)) (s.readB BO) (s.readB BT) labelSKE labelSKA)) := by
  rw [exec, execSymdec, if_neg (not_not.mpr hs)]

theorem exec_sign {u : Point}
    (hu : pscale (signatureNonce (passwordScalar (s.readB BK)) (s.readB BX)) basePoint = some u) : exec .sign s =
      .next ((s.writeB BH (signatureDigest u (s.readB BX))).writeN NZ
        (toNWord (signatureResponse (signatureNonce (passwordScalar (s.readB BK)) (s.readB BX))
          (int (signatureDigest u (s.readB BX))) (passwordScalar (s.readB BK))))).destroySponge.complete := by
  rw [exec, execSign, if_neg (not_not.mpr hs)]
  simp only [hu]

/-! ### Acceptance (R246) -/

/-- SYMDEC gives out a message that was sealed under the keys of `BZ` and `BK`. -/
theorem exec_symdec_sealed {m : Bytes} (hc : s.readB BO = (sealMessage (symKeys (s.readB BZ) (s.readB BK)) m labelSKE labelSKA).1)
    (ht : s.readB BT = (sealMessage (symKeys (s.readB BZ) (s.readB BK)) m labelSKE labelSKA).2) :
    exec .symdec s = .next (s.destroySponge.writeB BX m).accepted := by
  rw [exec_symdec hs, hc, ht, openMessage_sealMessage, State.finishDecrypt]

/-- ASYMDEC gives out a message that was sealed under the keys of the point it computes. -/
theorem exec_asymdec_sealed {w : Point} (hw : pscale (s.readN NS).toNat (s.readP PZ) = some w) {m : Bytes}
    (hc : s.readB BO = (sealMessage (asymKeys w) m labelPKE labelPKA).1)
    (ht : s.readB BT = (sealMessage (asymKeys w) m labelPKE labelPKA).2) :
    exec .asymdec s = .next (s.destroySponge.writeB BX m).accepted := by
  rw [exec_asymdec hs hw, hc, ht, openMessage_sealMessage, State.finishDecrypt]

/-- VERIFY accepts a `BH` that is the digest of the point it computes. -/
theorem exec_verify_digest {u : Point} (hh : s.readB BH = signatureDigest u (s.readB BX))
    (hu : verifyPoint (s.readN NZ).toNat (int (s.readB BH)) (s.readP PV) = some u) :
    exec .verify s = .next s.destroySponge.accepted := by
  have hlt : int (s.readB BH) < 2 ^ 521 := hh ▸ int_signatureDigest_lt u (s.readB BX)
  rw [exec_verify hs hlt hu, State.finishVerify, if_pos (beq_iff_eq.mpr hh.symm)]

end Commands

/-! ### The results of single commands -/

/-- Settles O40: the scalar of the password fits `NS`, and its multiple of `G` always exists. -/
theorem keygenResult : Obligations.KeygenResult := by
  unfold Obligations.KeygenResult
  intro s hs
  obtain ⟨v, hv, hcv⟩ := pscale_onCurve (passwordScalar (s.readB BK)) onCurve_basePoint
  have hn := toNat_toNWord_passwordScalar (s.readB BK)
  refine ⟨toNWord (passwordScalar (s.readB BK)), v, ?_, ?_, ?_, hcv, exec_keygen hs hv⟩
  · rw [hn, passwordScalar, labelK]
  · rw [hn]
    exact passwordScalar_lt _
  · rw [hn, hv]

/-- Settles O41: the ciphertext and the tag are what `seal` gives under the keys of the draw. -/
theorem symencResult : Obligations.SymencResult := by
  unfold Obligations.SymencResult
  intro s hs z keka stream tag
  obtain ⟨hlen, hbytes, htag⟩ := sealMessage_spec (symKeys z (s.readB BK)) (s.readB BX) labelSKE labelSKA
  have hexec := exec_symenc hs
  rw [htag, symKeys_snd, labelSKA] at hexec
  rw [symKeys_fst, labelSKE] at hbytes
  exact ⟨_, s.length_nextDraw, hlen, fun j hj => hbytes j (hlen ▸ hj), length_kmacxof .., hexec⟩

/-- Settles O42: the plaintext is what `open` recovers, given out exactly when its tag is `BT`. -/
theorem symdecResult : Obligations.SymdecResult := by
  unfold Obligations.SymdecResult
  intro s hs keka stream
  obtain ⟨m, hlen, hbytes, hopen⟩ :=
    openMessage_spec (symKeys (s.readB BZ) (s.readB BK)) (s.readB BO) (s.readB BT) labelSKE labelSKA
  have hexec := exec_symdec hs
  rw [hopen, symKeys_snd, labelSKA] at hexec
  rw [symKeys_fst, labelSKE] at hbytes
  refine ⟨m, hlen, hbytes, fun htag => ?_, fun htag => ?_⟩
  · rw [hexec, if_pos htag, State.finishDecrypt]
  · rw [hexec, if_neg htag, State.finishDecrypt]

/-- Settles O45: the multiple of `G` by the nonce always exists, and `signatureResponse_spec` fixes the response. -/
theorem signResult : Obligations.SignResult := by
  unfold Obligations.SignResult
  intro s hs
  have hsecret := toNat_toNWord_passwordScalar (s.readB BK)
  obtain ⟨u, hu, -⟩ := pscale_onCurve (signatureNonce (passwordScalar (s.readB BK)) (s.readB BX)) onCurve_basePoint
  obtain ⟨hlt, hcongr⟩ := signatureResponse_spec (signatureNonce (passwordScalar (s.readB BK)) (s.readB BX))
    (int (signatureDigest u (s.readB BX))) (passwordScalar (s.readB BK))
  have hexec := exec_sign hs hu
  rw [← toNat_toNWord_signatureResponse] at hlt hcongr
  generalize toNWord (signatureResponse _ _ _) = z at hlt hcongr hexec
  rw [signatureDigest_eq] at hcongr hexec
  rw [signatureNonce, labelN] at hu hcongr
  refine ⟨toNWord (passwordScalar (s.readB BK)), ofField u.x, z, u, ?_, hu, toNat_ofField _, length_kmacxof .., hlt, ?_, hexec⟩
  · rw [hsecret, passwordScalar, labelK]
  · rw [hsecret, hcongr]

/-- Settles O47: no recomputed tag or digest has the wrong length, so each comparison fails. -/
theorem wrongLengthRejected : Obligations.WrongLengthRejected := by
  unfold Obligations.WrongLengthRejected
  intro s hs
  refine ⟨fun hlen => ?symdec, fun w hlen hw => ?asymdec, fun u hlen h => ?verify, fun u => verifyPoint_eq_some_iff⟩
  case symdec => rw [exec_symdec hs, openMessage_eq_none_of_length hlen, State.finishDecrypt]
  case asymdec => rw [exec_asymdec hs hw, openMessage_eq_none_of_length hlen, State.finishDecrypt]
  case verify =>
    rcases Nat.lt_or_ge (int (s.readB BH)) (2 ^ 521) with hlt | hle
    · have hu := h.resolve_left hlt.not_ge
      rw [exec_verify hs hlt hu, beq_false_of_ne (signatureDigest_ne_of_length hlen u _), State.finishVerify,
        if_neg Bool.false_ne_true]
    · exact exec_verify_of_le hs hle

/-! ### Round trips (R246) -/

/-- Settles O48: SYMDEC opens what SYMENC sealed, the nonce and the password being the same. -/
theorem symmetricRoundTrip : Obligations.SymmetricRoundTrip := by
  unfold Obligations.SymmetricRoundTrip
  intro s hs
  rw [execAll_cons (exec_symenc hs), execAll_cons (exec_bclr ..), execAll_singleton, exec_symdec_sealed (m := s.readB BX)]
  · exact ⟨_, rfl, by simp⟩
  · rfl
  · simp (disch := decide) [State.readB_writeB_other]
  · simp (disch := decide) [State.readB_writeB_other]

/-- With the scalar of the public key in `NS`, ASYMDEC computes the point ASYMENC did, and so opens what was sealed. -/
theorem execAll_asymenc_asymdec {s : State} (hs : s.phase = .idle)
    (hkey : pscale (s.readN NS).toNat basePoint = some (s.readP PV)) :
    ∃ t : State, execAll [.asymenc, .bclr BX, .asymdec] s = .next t ∧ t.readB BX = s.readB BX ∧ t.accept = true ∧ t.err = .ok := by
  obtain ⟨z, hz, hcz⟩ := pscale_onCurve (4 * int s.nextDraw) onCurve_basePoint
  obtain ⟨w, hw, -⟩ := pscale_onCurve (s.readN NS).toNat hcz
  have hw' : pscale (4 * int s.nextDraw) (s.readP PV) = some w := (pscale_exchange hz hkey).trans hw
  rw [execAll_cons (exec_asymenc hs hw' hz), execAll_cons (exec_bclr ..), execAll_singleton,
    exec_asymdec_sealed (w := w) (m := s.readB BX)]
  · exact ⟨_, rfl, by simp⟩
  · rfl
  · simpa using hw
  · simp (disch := decide) [State.readB_writeB_other]
  · simp (disch := decide) [State.readB_writeB_other]

/-- Settles O49: KEYGEN leaves a scalar and its public key. -/
theorem asymmetricRoundTrip : Obligations.AsymmetricRoundTrip := by
  unfold Obligations.AsymmetricRoundTrip
  intro s hs
  obtain ⟨v, hv, -⟩ := pscale_onCurve (passwordScalar (s.readB BK)) onCurve_basePoint
  rw [execAll_cons (exec_keygen hs hv)]
  exact execAll_asymenc_asymdec rfl (by simpa using hv)

/-- Settles O50: VERIFY computes the point SIGN hashed, by `verifyPoint_signatureResponse`. -/
theorem signatureVerifies : Obligations.SignatureVerifies := by
  unfold Obligations.SignatureVerifies
  intro s hs
  obtain ⟨v, hv, -⟩ := pscale_onCurve (passwordScalar (s.readB BK)) onCurve_basePoint
  obtain ⟨u, hu, -⟩ := pscale_onCurve (signatureNonce (passwordScalar (s.readB BK)) (s.readB BX)) onCurve_basePoint
  rw [execAll_cons (exec_keygen hs hv), execAll_cons (exec_sign (u := u) ..), execAll_singleton, exec_verify_digest (u := u)]
  · exact ⟨_, rfl, rfl, rfl⟩
  · rfl
  · simp (disch := decide) [State.readB_writeB_other]
  · simp [verifyPoint_signatureResponse hv, hu]
  · rfl
  · simpa using hu

end Sys2Proof.Machine
end

section
/-! The conditions (60_exceptions.md): which command may end with which, when PARAM is raised, what a command that fails leaves, words that
are no command, and clearing the engine by commands. -/

namespace Sys2Proof.Machine

/-! ### Who raises what (R260 to R264) -/

/-- A command that some phase forbids may raise SEQ (R260, R262). -/
theorem mayRaise_seq_of_not_allowedIn {i : Instr} {ph : Phase} (h : i.allowedIn ph = false) : i.mayRaise .seq = true := by
  cases i with
  | absorb | final | squeeze => rfl
  | kround | keccakf | stld | strd => rfl
  | cshake | kmacxof | keygen | symenc | symdec | asymenc | asymdec | sign | verify => rfl
  | _ => cases h

/-- A command with an operand value the list of R263 names may raise PARAM (R260). -/
theorem mayRaise_param_of_badOperand {i : Instr} {s : State} (h : i.badOperand s) : i.mayRaise .param = true := by
  cases i with
  | stld | squeeze | encstr | bytepad | bcat | bxor | b2i | cshake | kmacxof => rfl
  | _ => exact h.elim

section Outcomes
variable {i : Instr} {s t : State}

/-- Every outcome ends with a condition the command's row of the table allows (R260). -/
theorem Outcome.mayRaise_err (h : Outcome i s t) : i.mayRaise t.err = true := by
  cases h with
  | seq h => exact mayRaise_seq_of_not_allowedIn h
  | param _ hb => exact mayRaise_param_of_badOperand hb
  | invalidPoint _ _ hi => exact hi
  | divZero _ _ hi => exact hi
  | drawLost _ hi => subst hi; rfl
  | rejected _ hi => rcases hi with rfl | rfl <;> rfl
  | notVerified _ hi => subst hi; rfl
  | done _ _ _ err => rw [err]; rfl

/-- Of the outcomes in a phase that allows the command, the one with an operand value of R263's list is PARAM (R263, R268). -/
theorem Outcome.err_eq_param_iff (h : Outcome i s t) : t.err = .param ↔ i.allowedIn s.phase = true ∧ i.badOperand s := by
  cases h with
  | seq h => simp [h]
  | param h hb => simp [h, hb]
  | invalidPoint _ hb | divZero _ hb => simp [hb]
  | drawLost _ hi | notVerified _ hi => subst hi; simp [Instr.badOperand]
  | rejected _ hi => rcases hi with rfl | rfl <;> simp [Instr.badOperand]
  | done _ _ hb err => simp [hb, err]

/-- An outcome that is neither an end with OK nor a rejection changes `STATUS` alone, ASYMENC's lost draw apart (R235, R266). -/
theorem Outcome.eq_raise (h : Outcome i s t) (hok : t.err ≠ .ok) (hrej : t.err ≠ .authFail) :
    t = s.raise t.err ∨ i = .asymenc ∧ t = s.takeDraw.raise .divZero := by
  cases h with
  | seq | param | invalidPoint | divZero => exact .inl rfl
  | drawLost _ hi => exact .inr ⟨hi, rfl⟩
  | rejected | notVerified => exact absurd rfl hrej
  | done _ _ _ err => exact absurd err hok

/-- A rejection destroys the sponge unit, and empties `BX` where a plaintext would have stood (R265). -/
theorem Outcome.eq_reject (h : Outcome i s t) (hrej : t.err = .authFail) :
    i = .verify ∧ t = s.destroySponge.raise .authFail ∨
      (i = .symdec ∨ i = .asymdec) ∧ t = (s.destroySponge.writeB BX []).raise .authFail := by
  cases h with
  | rejected _ hi => exact .inr ⟨hi, rfl⟩
  | notVerified _ hi => exact .inl ⟨hi, rfl⟩
  | done _ _ _ err => cases err.symm.trans hrej
  | _ => cases hrej

end Outcomes

/-- An answer of a well-formed command is an outcome. -/
theorem outcome_of_exec {i : Instr} {s t : State} (hwf : i.wf = true) (h : exec i s = .next t) : Outcome i s t := by
  obtain ⟨t', ht', ho⟩ := exec_outcome i s hwf
  cases ht'.symm.trans h
  exact ho

/-! ### Command words (R261, R267) -/

theorem hostCommand_of_error {w : CommandWord} {e : Illegal} (h : decode w = .error e) (s : State) :
    hostCommand w s = .next (s.raise .illegal) := by
  rw [hostCommand, h]

/-- What issuing a word ends with: a condition of the command it decodes to, or ILLEGAL when it decodes to none. -/
theorem hostCommand_err {w : CommandWord} {s t : State} (h : hostCommand w s = .next t) :
    (∃ i, decode w = .ok i ∧ i.mayRaise t.err = true) ∨ (∃ e, decode w = .error e) ∧ t.err = .illegal := by
  cases hd : decode w with
  | ok i =>
    rw [hostCommand_of_decode hd] at h
    obtain ⟨hwf, -⟩ := encodeOfDecode w i hd
    exact .inl ⟨i, rfl, (outcome_of_exec hwf h).mayRaise_err⟩
  | error e =>
    cases (hostCommand_of_error hd s).symm.trans h
    exact .inr ⟨⟨e, rfl⟩, rfl⟩

/-- A word ends with ILLEGAL exactly when it is no command: no command's row of the table has ILLEGAL (R260, R261). -/
theorem hostCommand_err_eq_illegal_iff {w : CommandWord} {s t : State} (h : hostCommand w s = .next t) :
    t.err = .illegal ↔ ∃ e, decode w = .error e := by
  rcases hostCommand_err h with ⟨i, hd, hi⟩ | ⟨hd, herr⟩
  · have hne : t.err ≠ .illegal := fun herr => by rw [herr] at hi; cases hi
    simp [hne, hd]
  · exact iff_of_true herr hd

/-- No word ends with FORMAT: that is a refused host write's (R267). -/
theorem hostCommand_err_ne_format {w : CommandWord} {s t : State} (h : hostCommand w s = .next t) : t.err ≠ .format := by
  intro herr
  rcases hostCommand_err h with ⟨i, -, hi⟩ | ⟨-, hillegal⟩
  · rw [herr] at hi; cases hi
  · cases herr.symm.trans hillegal

/-- Settles O11: raising ILLEGAL changes `STATUS` alone. -/
theorem illegalWord : Obligations.IllegalWord := by
  unfold Obligations.IllegalWord
  exact fun _ _ s h => hostCommand_of_error h s

/-- Settles O4: the codes one by one, then the commands by their outcomes and the words by what they decode to. -/
theorem conditionTable : Obligations.ConditionTable := by
  unfold Obligations.ConditionTable
  refine ⟨rfl, ?codes, fun i s t hwf h => (outcome_of_exec hwf h).mayRaise_err, fun w s t h => hostCommand_err_eq_illegal_iff h,
    fun w s t h => hostCommand_err_ne_format h⟩
  case codes => intro c; cases c <;> decide

/-! ### PARAM and what a failing command leaves (R263, R265, R266, R268) -/

/-- Settles O52: which outcome is PARAM, and that it is a raise. -/
theorem paramList : Obligations.ParamList := by
  unfold Obligations.ParamList
  intro i s t hwf h
  have ho := outcome_of_exec hwf h
  refine ⟨ho.err_eq_param_iff, fun herr => ?_⟩
  rcases ho.eq_raise (by simp [herr]) (by simp [herr]) with ht | ⟨-, ht⟩
  · exact ht.trans (by rw [herr]; rfl)
  · cases herr.symm.trans (congrArg State.err ht)

/-- Settles O53: the failures among the outcomes, and KROUND with a round index no word has, which raises ILLEGAL. -/
theorem failureLeavesState : Obligations.FailureLeavesState := by
  unfold Obligations.FailureLeavesState
  intro i s t h
  rcases outcome_or_illegal h with ho | ⟨-, rfl⟩
  · refine ⟨fun herr => ho.eq_raise ?_ ?_, ho.eq_reject⟩
    · intro hok; simp [hok] at herr
    · intro hrej; simp [hrej] at herr
  · exact ⟨fun _ => .inl rfl, nofun⟩

/-! ### Clearing everything by commands (R274) -/

/-- Commands of one kind in a row, each completing with one write, complete with all their writes. -/
theorem execAll_map_append {α : Type} {command : α → Instr} {write : State → α → State}
    (hexec : ∀ a s, exec (command a) s.complete = .next (write s a).complete) (l : List α) (is : List Instr) (s : State) :
    execAll (l.map command ++ is) s.complete = execAll is (l.foldl write s).complete := by
  induction l generalizing s with
  | nil => rfl
  | cons a l ih => exact (execAll_cons (hexec a s) _).trans (ih (write s a))

/-- Storing one value at the places of a list, one after the other. -/
theorem getElem_foldl_set {α : Type} {n : Nat} (x : α) (l : List (Fin n)) (v : Vector α n) (j : Fin n) :
    (l.foldl (fun v i => v.set i.val x i.isLt) v)[j.val] = if j ∈ l then x else v[j.val] := by
  induction l generalizing v with
  | nil => simp
  | cons i l ih =>
    rw [List.foldl_cons, ih, Vector.getElem_set]
    grind

/-- Storing one value at every place of a register file. -/
theorem foldl_set_finRange {α : Type} {n : Nat} (x : α) (v : Vector α n) :
    (List.finRange n).foldl (fun v i => v.set i.val x i.isLt) v = Vector.replicate n x := by
  ext j hj
  rw [getElem_foldl_set x _ v ⟨j, hj⟩, if_pos (List.mem_finRange _), Vector.getElem_replicate]

theorem foldl_writeB (s : State) (v : Bytes) :
    (List.finRange 8).foldl (fun t r => t.writeB r v) s = { s with b := Vector.replicate 8 v } := by
  rw [← foldl_set_finRange v s.b]
  refine List.foldl_hom (fun b => { s with b := b }) (init := s.b) ?_
  exact fun _ _ => rfl

theorem foldl_writeN (s : State) (v : NWord) :
    (List.finRange 8).foldl (fun t r => t.writeN r v) s = { s with n := Vector.replicate 8 v } := by
  rw [← foldl_set_finRange v s.n]
  refine List.foldl_hom (fun n => { s with n := n }) (init := s.n) ?_
  exact fun _ _ => rfl

theorem foldl_writeP (s : State) (v : Point) :
    (List.finRange 4).foldl (fun t r => t.writeP r v) s = { s with p := Vector.replicate 4 v } := by
  rw [← foldl_set_finRange v s.p]
  refine List.foldl_hom (fun p => { s with p := p }) (init := s.p) ?_
  exact fun _ _ => rfl

theorem exec_sdone (s : State) : exec .sdone s = .next s.destroySponge.complete := rfl

theorem execAll_bclr_all (is : List Instr) (s : State) :
    execAll ((List.finRange 8).map .bclr ++ is) s.complete = execAll is { s with b := Vector.replicate 8 [] }.complete := by
  rw [execAll_map_append (write := fun t r => t.writeB r []) (fun r s => exec_bclr r s.complete), foldl_writeB]

theorem execAll_nli_zero_all (is : List Instr) (s : State) :
    execAll ((List.finRange 8).map (.nli · 0) ++ is) s.complete = execAll is { s with n := Vector.replicate 8 0 }.complete := by
  rw [execAll_map_append (write := fun t r => t.writeN r (zext521 0)) (fun r s => exec_nli r 0 s.complete), foldl_writeN, zext521_zero]

theorem execAll_pneut_all (is : List Instr) (s : State) :
    execAll ((List.finRange 4).map .pneut ++ is) s.complete = execAll is { s with p := Vector.replicate 4 neutral }.complete := by
  rw [execAll_map_append (write := fun t r => t.writeP r neutral) (fun r s => exec_pneut r s.complete), foldl_writeP]

/-- Settles O59: SDONE leaves the unit of the reset state, and each of the other three kinds one register file of it. -/
theorem resetByCommands : Obligations.ResetByCommands := by
  unfold Obligations.ResetByCommands
  intro s
  rw [List.append_assoc, List.append_assoc, List.singleton_append, execAll_cons (exec_sdone s), execAll_bclr_all,
    execAll_nli_zero_all, ← List.append_nil (List.map _ _), execAll_pneut_all]
  rfl

end Sys2Proof.Machine
end

section
/-! Reset as an action (70_reset_and_hazards.md), and the engine that waits. -/

namespace Sys2Proof.Machine

/-- With no action pending the engine waits (log 3). -/
theorem step_of_pending_nil {s : State} (h : s.pending = []) : step s = .next s := by
  rw [step, nextAction, h]

/-- The step that performs a pending reset is the reset of the engine (R290, R291). -/
theorem step_of_pending_reset {s : State} {rest : List HostAction} (h : s.pending = .reset :: rest) :
    step s = .next (resetEngine { s with pending := rest }) :=
  step_of_pending h

/-- Settles O2: the engine that is reset keeps only the environment's fields, of which the step has taken the reset itself. -/
theorem resetAction : Obligations.ResetAction := by
  unfold Obligations.ResetAction
  exact ⟨fun _ _ h => step_of_pending_reset h, fun _ h => step_of_pending_nil h⟩

end Sys2Proof.Machine
end
